-- ==== Sys2Proof/Word.lean ====
section
/-! DEFINITION. The word type: every operand, register byte and data byte of the block is an unsigned byte (rules R6, R76, R112). -/

namespace Sys2Proof

/-- A byte: 8 bits, bit 0 the least significant (rule R6). -/
abbrev Byte := BitVec 8

end Sys2Proof
end

