-- ==== Sys2Proof/Config.lean ====
section
/-! DEFINITION. What an instance of the block fixes (the record `CFG`, rules R5, R20, R21) and the free
values: the environment's answers to the primitive calls (rules R8, R34, R35). The legality test and the
default tables stand in Machine/Configuration.lean. -/

namespace Sys2Proof

/-- The two connector variants (rule R5): hardware-select and software-select. -/
inductive Sel
  | hw
  | sw
deriving DecidableEq, Repr

/-- What the environment answers to one primitive call (rules R34, R35). -/
inductive Answer
  | ok
  | err
deriving DecidableEq, Repr, Inhabited

/-- The seventeen letters with a seven-segment shape (rules R100, R101), both cases of each. -/
inductive Letter
  | a | b | c | d | e | f | g | h | i | j | l | n | o | p | q | s | u
deriving DecidableEq, Repr

/-- The 30 glyph keys of rule R101. -/
inductive GlyphKey
  | space
  | dash
  | underscore
  | digit (d : Fin 10)
  | letter (name : Letter)
deriving DecidableEq, Repr

/-- The six keys of the BCD code table (rule R107). -/
inductive BcdKey
  | blank | dash | e | h | l | p
deriving DecidableEq, Repr

/-- The record `CFG` of rule R5. Each map is a table whose index is the key's or the ordinal's number; the
lengths of the tables are rule R21 (g). -/
structure Cfg where
  /-- `N`, the number of chained devices (rule R20). -/
  n : Nat
  /-- `NMAX`, the bound of the chain's length (rules R5, R248). -/
  nmax : Nat
  /-- `SEL`, the connector variant. -/
  sel : Sel
  /-- `SEG`, the segment pattern of each of the 30 glyph keys. -/
  seg : Vector Byte 30
  /-- `BCDC`, the code of each of the 6 BCD keys. -/
  bcdc : Vector Byte 6
  /-- `REGADDR`, the wire address of each of the 14 register names, by ordinal (rules R29, R42). -/
  regaddr : Vector Byte 14
  /-- `WIRE_POWER`, by ordinal (rules R30, R43). -/
  wirePower : Vector Byte 2
  /-- `WIRE_DECODE`, by ordinal (rules R31, R43). -/
  wireDecode : Vector Byte 4
  /-- `WIRE_INTENSITY`, by ordinal (rules R32, R43). -/
  wireIntensity : Vector Byte 16
  /-- `WIRE_SCAN`, by ordinal (rules R32, R43). -/
  wireScan : Vector Byte 8
  /-- `WIRE_TEST`, by ordinal (rules R33, R43). -/
  wireTest : Vector Byte 2
deriving DecidableEq, Repr

/-- FREE VALUE (log 6). The environment's answer to the call with this number, for a call whose answer the
state's list of answers does not hold: rule R8, "Each answer is given by the environment and is a free input of
the step". It has no body, so nothing can be proved of its value. -/
opaque Config.freeAnswer : Nat → Answer

end Sys2Proof
end

