-- ==== Sys2Proof/Syntax.lean ====
section
/-! DEFINITION. The commands of the block: the value types they carry (rules R29 to R33), the 20 commands
(rule R77) and the command word as the latch `CMD` holds it (rules R26, R74, R75). -/

namespace Sys2Proof

/-- The closed set of 14 register names (rule R29); `digit i` is `Digit_i`, register number `i + 1` (rule R7). -/
inductive RegName
  | noOp
  | digit (i : Fin 8)
  | decodeMode
  | intensity
  | scanLimit
  | shutdown
  | displayTest
deriving DecidableEq, Repr

/-- Rule R30. -/
inductive Power
  | shutdownMode
  | normalOperation
deriving DecidableEq, Repr

/-- Rule R31. -/
inductive DecodeMode
  | noDecode
  | codeBDigit0
  | codeBDigits3_0
  | codeBDigits7_0
deriving DecidableEq, Repr

/-- Rule R33. -/
inductive DisplayTest
  | normal
  | testMode
deriving DecidableEq, Repr

/-- The eight-byte payload of a format L command; index `j` is the document's array index `j` (rule R75). -/
abbrev Payload := Vector Byte 8

/-- The 20 commands, one constructor for each row of rule R77. A device index `k` is the whole `dev` byte; it is
held against `N` when the command runs (rule R204), not when it is decoded. Intensity levels, scan limits and
digit indexes are counts and carry their range in `Instr.wellFormed`. -/
inductive Instr
  | segenc (ch : Byte) (dot : Bool)
  | bcdenc (ch : Byte)
  | wrraw (k reg data : Byte)
  | wrreg (k : Byte) (name : RegName) (data : Byte)
  | bcraw (reg data : Byte)
  | draw (digit : Nat) (data : Byte)
  | pwron
  | pwroff
  | setshdn (mode : Power)
  | setdec (k : Byte) (mode : DecodeMode)
  | setint (k : Byte) (level : Nat)
  | setinta (level : Nat)
  | setscan (k : Byte) (limit : Nat)
  | settest (k : Byte) (mode : DisplayTest)
  | settesta (mode : DisplayTest)
  | clr (k : Byte)
  | clra
  | wrdig8 (k : Byte) (buf : Payload)
  | wrstr (k : Byte) (dots : Byte) (buf : Payload)
  | wrbcd (k : Byte) (buf : Payload)
deriving DecidableEq, Repr

/-- The fields of a command word, which are the fields of the command latch `CMD` (rules R26, R73). -/
structure CmdWord where
  op : Byte
  dev : Byte
  a : Byte
  b : Byte
  buf : Payload
deriving DecidableEq, Repr

/-- The payload a format S command leaves in the latch (rule R73). -/
def Payload.zero : Payload := Vector.replicate 8 0

/-- The reset value of `CMD` (rules R26, R38). -/
def CmdWord.zero : CmdWord := { op := 0, dev := 0, a := 0, b := 0, buf := Payload.zero }

end Sys2Proof
end

