-- ==== Sys2Proof/WellFormed.lean ====
section
/-! DEFINITION. When a command is well-formed: its typed operands lie in their ranges (rules R76, R78). The
operands that are names (registers, Power, DecodeMode, DisplayTest) and the bytes cannot be out of range. -/

namespace Sys2Proof

/-- Rule R76: the digit index of DRAW is 0 to 7, an Intensity ordinal 0 to 15, a ScanLimit ordinal 0 to 7. -/
def Instr.wellFormed : Instr → Bool
  | .segenc _ _ => true
  | .bcdenc _ => true
  | .wrraw _ _ _ => true
  | .wrreg _ _ _ => true
  | .bcraw _ _ => true
  | .draw digit _ => decide (digit < 8)
  | .pwron => true
  | .pwroff => true
  | .setshdn _ => true
  | .setdec _ _ => true
  | .setint _ level => decide (level < 16)
  | .setinta level => decide (level < 16)
  | .setscan _ limit => decide (limit < 8)
  | .settest _ _ => true
  | .settesta _ => true
  | .clr _ => true
  | .clra => true
  | .wrdig8 _ _ => true
  | .wrstr _ _ _ => true
  | .wrbcd _ _ => true

end Sys2Proof
end

