-- ==== Sys2Proof/Decode.lean ====
section
/-! DEFINITION. The command decoder, total on any bytes and rejecting by name (rules R71 to R81), and after it
the encoder written from the same tables. The ordinals of the value types (rules R29 to R33) stand here too. -/

namespace Sys2Proof

/-! ### Ordinals -/

/-- The ordinal `regid` of a register name (rule R29). -/
def RegName.ordinal : RegName → Fin 14
  | .noOp => 0
  | .digit i => ⟨i.val + 1, by omega⟩
  | .decodeMode => 9
  | .intensity => 10
  | .scanLimit => 11
  | .shutdown => 12
  | .displayTest => 13

/-- The register name of an ordinal; ordinals 14 and above name nothing (rule R29). -/
def RegName.ofOrdinal : Nat → Option RegName
  | 0 => some .noOp
  | 1 => some (.digit 0)
  | 2 => some (.digit 1)
  | 3 => some (.digit 2)
  | 4 => some (.digit 3)
  | 5 => some (.digit 4)
  | 6 => some (.digit 5)
  | 7 => some (.digit 6)
  | 8 => some (.digit 7)
  | 9 => some .decodeMode
  | 10 => some .intensity
  | 11 => some .scanLimit
  | 12 => some .shutdown
  | 13 => some .displayTest
  | _ => none

/-- Rule R30. -/
def Power.ordinal : Power → Fin 2
  | .shutdownMode => 0
  | .normalOperation => 1

def Power.ofOrdinal : Nat → Option Power
  | 0 => some .shutdownMode
  | 1 => some .normalOperation
  | _ => none

/-- Rule R31. -/
def DecodeMode.ordinal : DecodeMode → Fin 4
  | .noDecode => 0
  | .codeBDigit0 => 1
  | .codeBDigits3_0 => 2
  | .codeBDigits7_0 => 3

def DecodeMode.ofOrdinal : Nat → Option DecodeMode
  | 0 => some .noDecode
  | 1 => some .codeBDigit0
  | 2 => some .codeBDigits3_0
  | 3 => some .codeBDigits7_0
  | _ => none

/-- Rule R33. -/
def DisplayTest.ordinal : DisplayTest → Fin 2
  | .normal => 0
  | .testMode => 1

def DisplayTest.ofOrdinal : Nat → Option DisplayTest
  | 0 => some .normal
  | 1 => some .testMode
  | _ => none

/-! ### Taking a word from bytes -/

/-- Why a byte list is no command. -/
inductive Reject
  /-- The bytes end before the command word does (log 5). -/
  | incomplete
  /-- Rule R79 (a): an opcode not in the table. -/
  | reservedOpcode
  /-- Rule R79 (b): a bit that must be zero is 1. -/
  | mustBeZero
  /-- Rule R79 (c): a register ordinal that names nothing. -/
  | unnamedRegister
deriving DecidableEq, Repr

/-- Format L is told by bit 7 of the opcode alone (rule R72). -/
def isLong (op : Byte) : Bool := op.getLsbD 7

/-- The length in bytes of a command word with this opcode (rule R72). -/
def wordLength (op : Byte) : Nat := if isLong op then 12 else 4

/-- Splits the first command word off a byte list, byte 0 first (rules R71 to R75), and gives the rest; `none`
where the list ends too soon. A format S word has a zero payload (rule R73). -/
def takeWord : List Byte → Option (CmdWord × List Byte)
  | op :: dev :: a :: b :: rest =>
    if isLong op then
      match rest with
      | b0 :: b1 :: b2 :: b3 :: b4 :: b5 :: b6 :: b7 :: rest =>
        some ({ op := op, dev := dev, a := a, b := b, buf := #v[b0, b1, b2, b3, b4, b5, b6, b7] }, rest)
      | _ => none
    else some ({ op := op, dev := dev, a := a, b := b, buf := Payload.zero }, rest)
  | _ => none

/-! ### The opcode table -/

/-- The names of the table's rows. -/
inductive Mnemonic
  | SEGENC | BCDENC | WRRAW | WRREG | BCRAW | DRAW | PWRON | PWROFF | SETSHDN | SETDEC
  | SETINT | SETINTA | SETSCAN | SETTEST | SETTESTA | CLR | CLRA | WRDIG8 | WRSTR | WRBCD
deriving DecidableEq, Repr

/-- One row of rule R77. The match of every row is its opcode with zeros below; the mask of every row is 0xFF for
the opcode, the three bytes given here for `dev`, `a` and `b`, and zeros for the payload. -/
structure Row where
  op : Byte
  mnemonic : Mnemonic
  devMask : Byte
  aMask : Byte
  bMask : Byte
deriving DecidableEq, Repr

/-- The table of rule R77. -/
def opcodeTable : List Row :=
  [ ⟨0x01, .SEGENC, 0xFF, 0x00, 0xFE⟩,
    ⟨0x02, .BCDENC, 0xFF, 0x00, 0xFF⟩,
    ⟨0x10, .WRRAW, 0x00, 0x00, 0x00⟩,
    ⟨0x11, .WRREG, 0x00, 0xF0, 0x00⟩,
    ⟨0x12, .BCRAW, 0xFF, 0x00, 0x00⟩,
    ⟨0x13, .DRAW, 0xFF, 0xF8, 0x00⟩,
    ⟨0x20, .PWRON, 0xFF, 0xFF, 0xFF⟩,
    ⟨0x21, .PWROFF, 0xFF, 0xFF, 0xFF⟩,
    ⟨0x22, .SETSHDN, 0xFF, 0xFE, 0xFF⟩,
    ⟨0x23, .SETDEC, 0x00, 0xFC, 0xFF⟩,
    ⟨0x24, .SETINT, 0x00, 0xF0, 0xFF⟩,
    ⟨0x25, .SETINTA, 0xFF, 0xF0, 0xFF⟩,
    ⟨0x26, .SETSCAN, 0x00, 0xF8, 0xFF⟩,
    ⟨0x27, .SETTEST, 0x00, 0xFE, 0xFF⟩,
    ⟨0x28, .SETTESTA, 0xFF, 0xFE, 0xFF⟩,
    ⟨0x29, .CLR, 0x00, 0xFF, 0xFF⟩,
    ⟨0x2A, .CLRA, 0xFF, 0xFF, 0xFF⟩,
    ⟨0x80, .WRDIG8, 0x00, 0xFF, 0xFF⟩,
    ⟨0x81, .WRSTR, 0x00, 0x00, 0xFF⟩,
    ⟨0x82, .WRBCD, 0x00, 0xFF, 0xFF⟩ ]

/-- The row of an opcode; at most one, since the opcodes differ (rule R81). -/
def rowOf (op : Byte) : Option Row := opcodeTable.find? (fun r => r.op == op)

/-- The row's mask test: every bit that must be zero is zero (rules R77, R78). -/
def Row.holds (r : Row) (c : CmdWord) : Bool :=
  c.dev &&& r.devMask == 0 && c.a &&& r.aMask == 0 && c.b &&& r.bMask == 0

/-- A typed operand by its ordinal; under the row's mask only WRREG can fail here (rule R79 (c)). -/
def typed {α : Type} (v : Option α) (why : Reject) (f : α → Instr) : Except Reject Instr :=
  match v with
  | some x => .ok (f x)
  | none => .error why

/-- The command of a word that passed its row's mask, its operands read as whole unsigned fields (rule R76). -/
def operandsOf (m : Mnemonic) (c : CmdWord) : Except Reject Instr :=
  match m with
  | .SEGENC => .ok (.segenc c.a (c.b.getLsbD 0))
  | .BCDENC => .ok (.bcdenc c.a)
  | .WRRAW => .ok (.wrraw c.dev c.a c.b)
  | .WRREG => typed (RegName.ofOrdinal c.a.toNat) .unnamedRegister (fun r => .wrreg c.dev r c.b)
  | .BCRAW => .ok (.bcraw c.a c.b)
  | .DRAW => .ok (.draw c.a.toNat c.b)
  | .PWRON => .ok .pwron
  | .PWROFF => .ok .pwroff
  | .SETSHDN => typed (Power.ofOrdinal c.a.toNat) .mustBeZero (fun m => .setshdn m)
  | .SETDEC => typed (DecodeMode.ofOrdinal c.a.toNat) .mustBeZero (fun m => .setdec c.dev m)
  | .SETINT => .ok (.setint c.dev c.a.toNat)
  | .SETINTA => .ok (.setinta c.a.toNat)
  | .SETSCAN => .ok (.setscan c.dev c.a.toNat)
  | .SETTEST => typed (DisplayTest.ofOrdinal c.a.toNat) .mustBeZero (fun m => .settest c.dev m)
  | .SETTESTA => typed (DisplayTest.ofOrdinal c.a.toNat) .mustBeZero (fun m => .settesta m)
  | .CLR => .ok (.clr c.dev)
  | .CLRA => .ok .clra
  | .WRDIG8 => .ok (.wrdig8 c.dev c.buf)
  | .WRSTR => .ok (.wrstr c.dev c.a c.buf)
  | .WRBCD => .ok (.wrbcd c.dev c.buf)

/-- Decodes the fields of a command word (rules R77 to R81). The extra condition of DRAW, `N = 1`, is on the
instance and not on the word; the meaning of DRAW holds it (rule R135). -/
def decodeFields (c : CmdWord) : Except Reject Instr :=
  match rowOf c.op with
  | none => .error .reservedOpcode
  | some r => if r.holds c then operandsOf r.mnemonic c else .error .mustBeZero

/-- Decodes the first command of a byte list and gives the bytes after it (rule R81). -/
def decode (bytes : List Byte) : Except Reject (Instr × List Byte) :=
  match takeWord bytes with
  | none => .error .incomplete
  | some (c, rest) =>
    match decodeFields c with
    | .ok i => .ok (i, rest)
    | .error e => .error e

/-! ### The encoder -/

/-- A command's row. -/
def Instr.mnemonic : Instr → Mnemonic
  | .segenc _ _ => .SEGENC
  | .bcdenc _ => .BCDENC
  | .wrraw _ _ _ => .WRRAW
  | .wrreg _ _ _ => .WRREG
  | .bcraw _ _ => .BCRAW
  | .draw _ _ => .DRAW
  | .pwron => .PWRON
  | .pwroff => .PWROFF
  | .setshdn _ => .SETSHDN
  | .setdec _ _ => .SETDEC
  | .setint _ _ => .SETINT
  | .setinta _ => .SETINTA
  | .setscan _ _ => .SETSCAN
  | .settest _ _ => .SETTEST
  | .settesta _ => .SETTESTA
  | .clr _ => .CLR
  | .clra => .CLRA
  | .wrdig8 _ _ => .WRDIG8
  | .wrstr _ _ _ => .WRSTR
  | .wrbcd _ _ => .WRBCD

/-- An ordinal or a count as the operand byte that carries it. -/
def operandByte (n : Nat) : Byte := BitVec.ofNat 8 n

/-- The command word of a command, byte 0 first (rules R71, R74, R75, R77). -/
def encode : Instr → List Byte
  | .segenc ch dot => [0x01, 0, ch, if dot then 1 else 0]
  | .bcdenc ch => [0x02, 0, ch, 0]
  | .wrraw k reg data => [0x10, k, reg, data]
  | .wrreg k name data => [0x11, k, operandByte name.ordinal.val, data]
  | .bcraw reg data => [0x12, 0, reg, data]
  | .draw digit data => [0x13, 0, operandByte digit, data]
  | .pwron => [0x20, 0, 0, 0]
  | .pwroff => [0x21, 0, 0, 0]
  | .setshdn mode => [0x22, 0, operandByte mode.ordinal.val, 0]
  | .setdec k mode => [0x23, k, operandByte mode.ordinal.val, 0]
  | .setint k level => [0x24, k, operandByte level, 0]
  | .setinta level => [0x25, 0, operandByte level, 0]
  | .setscan k limit => [0x26, k, operandByte limit, 0]
  | .settest k mode => [0x27, k, operandByte mode.ordinal.val, 0]
  | .settesta mode => [0x28, 0, operandByte mode.ordinal.val, 0]
  | .clr k => [0x29, k, 0, 0]
  | .clra => [0x2A, 0, 0, 0]
  | .wrdig8 k buf => [0x80, k, 0, 0] ++ buf.toList
  | .wrstr k dots buf => [0x81, k, dots, 0] ++ buf.toList
  | .wrbcd k buf => [0x82, k, 0, 0] ++ buf.toList

/-! ### Words as numbers -/

/-- The bytes of an instruction whose lowest `nbits` bits are `w` read as ONE big-endian number, bit 0 its least
significant (rule R71 and the words of rule R77), with zero bytes after them up to the longest word (log 13). -/
def tableBytes (nbits w : Nat) : List Byte :=
  (List.range (nbits / 8)).map (fun j => BitVec.ofNat 8 (w >>> (8 * (nbits / 8 - 1 - j))))
    ++ List.replicate (12 - nbits / 8) 0

/-- The command this decoder reads from the table word `w` of `nbits` bits. -/
def decodeTableWord (nbits w : Nat) : Option Instr :=
  match decode (tableBytes nbits w) with
  | .ok (i, _) => some i
  | .error _ => none

end Sys2Proof
end

