-- ==== Sys2Proof/Machine/Configuration.lean ====
section
/-! DEFINITION. Reading the tables of `CFG` (rules R29 to R33, R42, R43, R101, R107), the legality test of rule R21,
and the default tables (rules R42, R43, R104, R109). -/

namespace Sys2Proof

/-! ### Keys as table indexes -/

def Letter.index : Letter → Fin 17
  | .a => 0 | .b => 1 | .c => 2 | .d => 3 | .e => 4 | .f => 5 | .g => 6 | .h => 7 | .i => 8
  | .j => 9 | .l => 10 | .n => 11 | .o => 12 | .p => 13 | .q => 14 | .s => 15 | .u => 16

/-- The place of a glyph key in the table `SEG`: SPACE, DASH, UNDERSCORE, the ten digits, the letters. -/
def GlyphKey.index : GlyphKey → Fin 30
  | .space => 0
  | .dash => 1
  | .underscore => 2
  | .digit d => ⟨3 + d.val, by omega⟩
  | .letter name => ⟨13 + name.index.val, by omega⟩

/-- The place of a BCD key in the table `BCDC`: BLANK, DASH, E, H, L, P. -/
def BcdKey.index : BcdKey → Fin 6
  | .blank => 0 | .dash => 1 | .e => 2 | .h => 3 | .l => 4 | .p => 5

/-! ### Look-ups -/

/-- `SEG(key)`. -/
def Cfg.segOf (c : Cfg) (key : GlyphKey) : Byte := c.seg.get key.index

/-- `BCDC(key)`. -/
def Cfg.bcdOf (c : Cfg) (key : BcdKey) : Byte := c.bcdc.get key.index

/-- `REGADDR(name)` (rule R42). -/
def Cfg.addrOf (c : Cfg) (name : RegName) : Byte := c.regaddr.get name.ordinal

/-- `WIRE_POWER(ordinal)` (rule R30). -/
def Cfg.powerOf (c : Cfg) (m : Power) : Byte := c.wirePower.get m.ordinal

/-- `WIRE_DECODE(ordinal)` (rule R31). -/
def Cfg.decodeOf (c : Cfg) (m : DecodeMode) : Byte := c.wireDecode.get m.ordinal

/-- `WIRE_INTENSITY(level)` (rule R32). -/
def Cfg.intensityOf (c : Cfg) (level : Fin 16) : Byte := c.wireIntensity.get level

/-- `WIRE_SCAN(k)` (rule R32). -/
def Cfg.scanOf (c : Cfg) (limit : Fin 8) : Byte := c.wireScan.get limit

/-- `WIRE_TEST(ordinal)` (rule R33). -/
def Cfg.testOf (c : Cfg) (m : DisplayTest) : Byte := c.wireTest.get m.ordinal

/-- Whether a register byte is a value of `REGADDR`: an address in the closed set (rule R41). -/
def Cfg.isAddress (c : Cfg) (r : Byte) : Bool := c.regaddr.toList.contains r

/-! ### Legality -/

/-- Rule R21 (c), first half: `REGADDR(NoOp)` and the eight digit registers are fixed. -/
def Cfg.fixedAddresses (c : Cfg) : Bool :=
  c.addrOf .noOp == 0x00 && (List.finRange 8).all (fun i => c.addrOf (.digit i) == BitVec.ofNat 8 (i.val + 1))

/-- Rule R21: what a legal `CFG` meets. Part (b) and part (g) hold by the types of the fields. -/
def Cfg.legal (c : Cfg) : Bool :=
  decide (1 ≤ c.n) && decide (c.n ≤ c.nmax) && decide (c.nmax ≤ 255)
    && c.fixedAddresses
    && c.regaddr.toList.all (fun r => decide (r ≤ 0x0F#8)) && decide c.regaddr.toList.Nodup
    && c.seg.toList.all (fun v => !v.getLsbD 7)
    && c.bcdc.toList.all (fun v => !v.getLsbD 7)

/-! ### Default tables (log 2) -/

/-- `SEG_DEFAULT` (rule R104), in the order of `GlyphKey.index`. PRESUMED: the spec marks every entry as general
knowledge. -/
def segDefault : Vector Byte 30 :=
  #v[0x00, 0x01, 0x08,
     0x7E, 0x30, 0x6D, 0x79, 0x33, 0x5B, 0x5F, 0x70, 0x7F, 0x7B,
     0x77, 0x1F, 0x4E, 0x3D, 0x4F, 0x47, 0x5E, 0x37, 0x30, 0x3C, 0x0E, 0x15, 0x7E, 0x67, 0x73, 0x5B, 0x3E]

/-- `BCDC_DEFAULT` (rule R109), in the order BLANK, DASH, E, H, L, P. PRESUMED, as `segDefault`. -/
def bcdcDefault : Vector Byte 6 := #v[0x0F, 0x0A, 0x0B, 0x0C, 0x0D, 0x0E]

/-- The default `REGADDR` (rule R42). The first nine are the spec's own, the last five PRESUMED. -/
def regaddrDefault : Vector Byte 14 :=
  #v[0x00, 0x01, 0x02, 0x03, 0x04, 0x05, 0x06, 0x07, 0x08, 0x09, 0x0A, 0x0B, 0x0C, 0x0F]

/-- `CFG_DEFAULT` (rules R5, R43): every default taken, `N` and `SEL` still free; `NMAX` is 8. -/
def Cfg.default (n : Nat) (sel : Sel) : Cfg where
  n := n
  nmax := 8
  sel := sel
  seg := segDefault
  bcdc := bcdcDefault
  regaddr := regaddrDefault
  wirePower := #v[0x00, 0x01]
  wireDecode := #v[0x00, 0x01, 0x0F, 0xFF]
  wireIntensity := #v[0, 1, 2, 3, 4, 5, 6, 7, 8, 9, 10, 11, 12, 13, 14, 15]
  wireScan := #v[0, 1, 2, 3, 4, 5, 6, 7]
  wireTest := #v[0x00, 0x01]

end Sys2Proof
end

