-- ==== Sys2Proof/Machine/State.lean ====
section
/-! DEFINITION. The state of the machine as plain data (rules R20 to R39), the reasons a step can stop, and the
state right after reset is released (rule R38). -/

namespace Sys2Proof.Machine

/-- `LC`, the life-cycle state (rule R22). Value 3 is never taken. -/
inductive LifeCycle
  | init
  | ready
  | failed
deriving DecidableEq, Repr

/-- `STATUS` (rules R23, R200). Values 6 and 7 are never produced. -/
inductive Status
  | ok
  | transportErr
  | pinErr
  | rangeErr
  | illegalCmd
  | notReady
deriving DecidableEq, Repr

/-- `CS`, the electrical level of the select line (rule R37, U3). -/
inductive Level
  | high
  | low
  | unknown
deriving DecidableEq, Repr

/-- One event of `TRACE` (rule R36): a primitive call with its answer. -/
inductive Event
  /-- `TX(bytes, r)`: a `SerWrite`. -/
  | tx (bytes : List Byte) (r : Answer)
  /-- `PL(r)`: a `PinDrive(low)`. -/
  | pl (r : Answer)
  /-- `PH(r)`: a `PinDrive(high)`. -/
  | ph (r : Answer)
deriving DecidableEq, Repr

/-- One act of the host at the command port (rules R70, R230; log 4). -/
inductive HostAct
  /-- The host offers a command word, byte 0 first. -/
  | word (bytes : List Byte)
  /-- The host asserts reset and releases it again. A reset that cuts a command short is this act in the place of that
  command's word (rule R246; log 12). -/
  | reset
deriving DecidableEq, Repr

/-- What a frame carries: one device's pair among no-operation pairs, or the same pair for every device (rules R121,
R122). -/
inductive FrameReq
  | target (k : Nat) (reg data : Byte)
  | all (reg data : Byte)
deriving DecidableEq, Repr

/-- Where the block stands between two primitive calls (rule R9), `todo` being the frames still to be built: the loop
variable of the pseudocode (rule R28; log 3). -/
inductive Progress
  /-- No call made, no command running. -/
  | idle
  /-- Between two frames. With none left, the completion with OK is next. -/
  | frames (todo : List FrameReq)
  /-- A `SW` frame is built and select driven low; the write is next (rule R125). -/
  | selected (todo : List FrameReq)
  /-- A `SW` frame is written with this answer; the drive to high is next (rule R125). -/
  | written (r : Answer) (todo : List FrameReq)
  /-- The drive to low of a `SW` frame failed; the drive to high is next and no write is made (rule R125). -/
  | lowFailed
  /-- A frame failed; the completion with this status is next (rule R165). -/
  | ending (st : Status)
deriving DecidableEq, Repr

/-- The device register space `DEV` (rule R40): pairs of an address and a byte, addresses strictly rising. The
address of register byte `r` of device `k` is `256 * k + r`. An address not listed reads as `unknown` (log 11). -/
abbrev Memory := List Host.Cell

/-- The machine never stops with a fault: every error of the spec is a status of a completed command (rules R200,
R206), so there is no constructor here. -/
inductive Fault
deriving DecidableEq, Repr

/-- The reasons a step gives no next state. -/
inductive Refusal
  /-- Raised by no meaning: an instruction that has none yet is refused by name in `exec`. Safe. -/
  | notModelled (mnemonic : String)
  /-- Raised by `step`: rule R21, "A model refuses an illegal CFG". Safe (log 7). -/
  | illegalConfig
  /-- Raised by `step` before the initialization sequence in the `SW` variant: the platform did not hold the select
  line high at reset release (rule R237; U9, treatment refuse). Safe (log 8). -/
  | selectNotHighAtRelease
deriving DecidableEq, Repr

/-- Everything the spec gives the machine. `cfg`, `progress`, `port`, `answers` and `calls` are the
model's own fields. -/
@[ext]
structure State where
  /-- The instance's `CFG` (rules R5, R20): a constant no step changes, held here so that a statement about every
  state is one about every configuration (log 1). -/
  cfg : Cfg
  /-- `LC` (rule R22). -/
  lc : LifeCycle
  /-- `STATUS` (rule R23). -/
  status : Status
  /-- `FAULT`, sticky (rule R24). -/
  fault : Bool
  /-- `FB`, `2 * NMAX` bytes (rule R25). -/
  fb : List Byte
  /-- `CMD`, the command latch (rule R26). -/
  cmd : CmdWord
  /-- `RES` (rule R27). -/
  res : Byte
  /-- `TRACE`, oldest event first (rule R36). -/
  trace : List Event
  /-- `CS` (rule R37). -/
  cs : Level
  /-- `DEV` (rules R37, R40). -/
  dev : Memory
  /-- The position inside the running command or sequence (rules R9, R28; log 3). -/
  progress : Progress
  /-- The host's acts to come, oldest first (log 4). -/
  port : List HostAct
  /-- The environment's next answers, oldest first; after them the answers are free values (log 6). -/
  answers : List Answer
  /-- How many primitive calls have been answered; it indexes the free answers (log 6). -/
  calls : Nat
deriving DecidableEq, Repr

/-- The block's state and its environment when reset is released, for an instance with this `CFG` (rules R38, R230),
with nothing offered by the host and no answer fixed. -/
def State.resetOf (cfg : Cfg) : State where
  cfg := cfg
  lc := .init
  status := .ok
  fault := false
  fb := List.replicate (2 * cfg.nmax) 0
  cmd := CmdWord.zero
  res := 0x00
  trace := []
  cs := .high
  dev := []
  progress := .idle
  port := []
  answers := []
  calls := 0

/-- The machine right after reset: `CFG_DEFAULT` with one device and hardware select (log 1). -/
def State.reset : State := State.resetOf (Cfg.default 1 .hw)

end Sys2Proof.Machine
end

