-- ==== Sys2Proof/Machine/Flags.lean ====
section
/-! DEFINITION. `STATUS` and `FAULT`: their codes (rules R22, R23, R200), how one transfer's answers combine to a
status (rules R124 to R126, R208), and what the host can read (rule R38). -/

namespace Sys2Proof.Machine

/-- The 2-bit code of `LC` (rule R22). -/
def LifeCycle.code : LifeCycle → BitVec 2
  | .init => 0
  | .ready => 1
  | .failed => 2

/-- The 3-bit code of `STATUS` (rules R23, R200). -/
def Status.code : Status → BitVec 3
  | .ok => 0
  | .transportErr => 1
  | .pinErr => 2
  | .rangeErr => 3
  | .illegalCmd => 4
  | .notReady => 5

/-- `FAULT` after a completion: sticky, set by every status that is not OK (rules R24, R206). -/
def faultAfter (old : Bool) (st : Status) : Bool := old || st != .ok

/-- The status of one `HW` transfer (rule R124). -/
def hwStatus : Answer → Status
  | .ok => .ok
  | .err => .transportErr

/-- The status of one `SW` transfer from the answers to the drive low, to the write (`none` where it was skipped)
and to the drive high (rules R125, R208). -/
def swStatus (r1 : Answer) (r2 : Option Answer) (r3 : Answer) : Status :=
  if r1 = .err ∨ r3 = .err then .pinErr else if r2 = some .err then .transportErr else .ok

/-- No command is under way. -/
def Progress.isIdle : Progress → Bool
  | .idle => true
  | .frames _ => false
  | .selected _ => false
  | .written _ _ => false
  | .lowFailed => false
  | .ending _ => false

/-- `BUSY` (rule R28): 1 while `LC = INIT` or a command is running. -/
def State.busy (s : State) : Bool := decide (s.lc = .init) || !s.progress.isIdle

/-- Reset has been released and the initialization sequence has made no call yet (rule R38). -/
def State.atRelease (s : State) : Bool := decide (s.lc = .init) && s.progress.isIdle

/-- What the host can read, and nothing else (rule R38). -/
structure HostView where
  busy : Bool
  lc : BitVec 2
  status : BitVec 3
  fault : Bool
  res : Byte
deriving DecidableEq, Repr

def State.hostView (s : State) : HostView :=
  { busy := s.busy, lc := s.lc.code, status := s.status.code, fault := s.fault, res := s.res }

end Sys2Proof.Machine
end

