-- ==== Sys2Proof/Machine/Operands.lean ====
section
/-! DEFINITION. Operand forms: the two encoders as functions of a byte (rules R100 to R112), the dots bitmask of
WRSTR (rule R163), and the order in which a payload meets the digit registers (rules R162 to R164). -/

namespace Sys2Proof.Machine

/-! ### The segment encoder -/

/-- The upper-case ASCII codes of the seventeen letters (rule R101). -/
def letterCodes : List (Byte × Letter) :=
  [(0x41, .a), (0x42, .b), (0x43, .c), (0x44, .d), (0x45, .e), (0x46, .f), (0x47, .g), (0x48, .h), (0x49, .i),
   (0x4A, .j), (0x4C, .l), (0x4E, .n), (0x4F, .o), (0x50, .p), (0x51, .q), (0x53, .s), (0x55, .u)]

/-- Folds 'a'..'z' to 'A'..'Z' and leaves every other byte (rule R101). -/
def foldCase (ch : Byte) : Byte := if 0x61#8 ≤ ch ∧ ch ≤ 0x7A#8 then ch - 0x20 else ch

/-- `glyph_key(ch)` (rule R101). -/
def glyphKey (ch : Byte) : Option GlyphKey :=
  if ch = 0x20 then some .space
  else if ch = 0x2D then some .dash
  else if ch = 0x5F then some .underscore
  else if 0x30#8 ≤ ch ∧ ch ≤ 0x39#8 then some (.digit (Fin.ofNat 10 (ch.toNat - 0x30)))
  else (letterCodes.lookup (foldCase ch)).map GlyphKey.letter

/-- `FALLBACK` (rule R103). -/
def fallback : Byte := 0xE5

/-- The pattern without the dot flag. -/
def segmentBase (cfg : Cfg) (ch : Byte) : Byte :=
  match glyphKey ch with
  | none => fallback
  | some key => cfg.segOf key

/-- The decimal point, bit 7 (rules R102, R105, R108). -/
def pointBit (dot : Bool) : Byte := if dot then 0x80 else 0x00

/-- `segment_encode(ch, dot)` (rule R105). -/
def segmentEncode (cfg : Cfg) (ch : Byte) (dot : Bool) : Byte := segmentBase cfg ch ||| pointBit dot

/-! ### The BCD encoder -/

/-- The ten bytes `bcd_encode` translates: the key and whether the point is set (rules R107, R108). -/
def bcdCodes : List (Byte × (BcdKey × Bool)) :=
  [(0x20, (.blank, false)), (0x2D, (.dash, false)),
   (0x65, (.e, false)), (0x45, (.e, true)), (0x68, (.h, false)), (0x48, (.h, true)),
   (0x6C, (.l, false)), (0x4C, (.l, true)), (0x70, (.p, false)), (0x50, (.p, true))]

/-- `bcd_encode(ch)` (rule R110): every other byte passes through unchanged (rule R111). -/
def bcdEncode (cfg : Cfg) (ch : Byte) : Byte :=
  match bcdCodes.lookup ch with
  | some (key, dot) => cfg.bcdOf key ||| pointBit dot
  | none => ch

/-! ### Payloads -/

/-- `dots[7 - j]`, the dot flag of payload byte `j` (rules R163, R168 (d)). -/
def dotOf (dots : Byte) (j : Fin 8) : Bool := dots.getLsbD (7 - j.val)

/-- `Digit_(7-j)`, the register payload byte `j` of a string goes to (rules R163, R164, R167, R168). -/
def stringDigit (j : Fin 8) : RegName := .digit j.rev

end Sys2Proof.Machine
end

