-- ==== Sys2Proof/Machine/Ops.lean ====
section
/-! DEFINITION. The operations every command is made of: completing with a status, which is how an error is
taken and how a command returns (rule R206); the device register space (rules R40 to R53); the two primitives
(rules R34, R35); building, transferring and sequencing frames (rules R120 to R130, R165); the tests before the
first frame (rule R131). -/

namespace Sys2Proof.Machine

/-! ### Completing a command -/

/-- `complete(st)`, and so `raise st` too (rule R206): `STATUS` and `FAULT` are written and nothing else changes;
the block is idle again, which is all there is of a return (rule R210). -/
def complete (st : Status) (s : State) : State :=
  { s with status := st, fault := faultAfter s.fault st }

/-- The position inside the running command (rule R28). -/
def State.setProgress (p : Progress) (s : State) : State := { s with progress := p }

/-! ### The device register space -/

/-- The address of register byte `r` of device `k`. -/
def devKey (k : Nat) (r : Byte) : Nat := 256 * k + r.toNat

/-- What an address holds: a byte, or unknown (`none`) where it is not listed. -/
def Memory.read : Memory → Nat → Option Byte
  | [], _ => none
  | (b, w) :: m, a => if a = b then some w else Memory.read m a

/-- Stores a byte and keeps the addresses strictly rising. -/
def Memory.write : Memory → Nat → Byte → Memory
  | [], a, v => [(a, v)]
  | (b, w) :: m, a, v =>
    if a < b then (a, v) :: (b, w) :: m
    else if a = b then (a, v) :: m
    else (b, w) :: Memory.write m a v

/-- `DEV[k][x] <- unknown` for every `x`. -/
def Memory.forgetDevice (m : Memory) (k : Nat) : Memory := m.filter (fun c => c.1 / 256 != k)

/-- The canonical form: addresses strictly rising. A listed entry is a known byte, so none equals what an unlisted
address reads as. -/
abbrev Memory.wf (m : Memory) : Prop := m.Pairwise (fun c d => c.1 < d.1)

/-- `DEV[k][r]`: a byte or unknown. No command reads it; statements do. -/
def State.devRead (s : State) (k : Nat) (r : Byte) : Option Byte := Memory.read s.dev (devKey k r)

/-- `MemWrite((k, r), 1, v)` (rule R51): (a) NoOp changes nothing, (b) a register of the closed set is stored,
(c) any other register byte leaves every register of the device unknown. -/
def memWrite (cfg : Cfg) (k : Nat) (r v : Byte) (m : Memory) : Memory :=
  if r = 0x00 then m
  else if cfg.isAddress r then m.write (devKey k r) v
  else m.forgetDevice k

/-- The stores of the pairs of the devices below `i`. -/
def latchBelow (cfg : Cfg) (f : List Byte) (m : Memory) : Nat → Memory
  | 0 => m
  | i + 1 => memWrite cfg i (f.getD (2 * i) 0) (f.getD (2 * i + 1) 0) (latchBelow cfg f m i)

/-- `Latch(F)` (rule R51): each device stores its own pair. The stores are to different devices, so their order
does not show. -/
def latch (f : List Byte) (s : State) : State := { s with dev := latchBelow s.cfg f s.dev s.cfg.n }

/-- `DevUnknown()` (rule R52). -/
def devUnknown (s : State) : State := { s with dev := [] }

/-! ### The primitives -/

/-- The answer the environment gives to the call after the next `j` calls (rules R8, R34, R35; log 6). -/
def State.upcoming (s : State) (j : Nat) : Answer :=
  match s.answers[j]? with
  | some r => r
  | none => Config.freeAnswer (s.calls + j)

/-- The environment has answered one call. -/
def State.takeAnswer (s : State) : State := { s with answers := s.answers.tail, calls := s.calls + 1 }

/-- The select line after a `SerWrite`: untouched in the `SW` variant; in the `HW` variant the transport toggles it
within the call, so it is high again after `ok` and not known after `err` (rules R34, R51; log 10). -/
def levelAfterWrite (sel : Sel) (r : Answer) (old : Level) : Level :=
  match sel, r with
  | .sw, _ => old
  | .hw, .ok => .high
  | .hw, .err => .unknown

/-- The select line after a `PinDrive` to `target`: not known after `err` (U3). -/
def levelAfterDrive (target : Level) (r : Answer) : Level :=
  match r with
  | .ok => target
  | .err => .unknown

/-- `SerWrite(bytes)` (rule R34); its answer is `s.upcoming 0`. -/
def serWrite (bytes : List Byte) (s : State) : State :=
  { s.takeAnswer with
    trace := s.trace ++ [.tx bytes (s.upcoming 0)]
    cs := levelAfterWrite s.cfg.sel (s.upcoming 0) s.cs }

/-- `PinDrive(low)` (rule R35); its answer is `s.upcoming 0`. -/
def pinLow (s : State) : State :=
  { s.takeAnswer with
    trace := s.trace ++ [.pl (s.upcoming 0)]
    cs := levelAfterDrive .low (s.upcoming 0) }

/-- `PinDrive(high)` (rule R35); its answer is `s.upcoming 0`. -/
def pinHigh (s : State) : State :=
  { s.takeAnswer with
    trace := s.trace ++ [.ph (s.upcoming 0)]
    cs := levelAfterDrive .high (s.upcoming 0) }

/-! ### Frames -/

/-- `FB` with `FB[0 .. 2*N-1]` zero and the bytes above kept (rules R121, R122). -/
def zeroFill (n : Nat) (fb : List Byte) : List Byte := List.replicate (2 * n) 0 ++ fb.drop (2 * n)

/-- Places a pair at device `k`'s position. -/
def putPair (k : Nat) (r d : Byte) (fb : List Byte) : List Byte := (fb.set (2 * k) r).set (2 * k + 1) d

/-- `BuildTarget(k, r, d)` on `FB` (rule R121). -/
def buildTarget (n k : Nat) (r d : Byte) (fb : List Byte) : List Byte := putPair k r d (zeroFill n fb)

/-- The pairs of the devices below `i` all set to `(r, d)`. -/
def putAllBelow (r d : Byte) (fb : List Byte) : Nat → List Byte
  | 0 => fb
  | i + 1 => putPair i r d (putAllBelow r d fb i)

/-- `BuildAll(r, d)` on `FB` (rule R122). -/
def buildAll (n : Nat) (r d : Byte) (fb : List Byte) : List Byte := putAllBelow r d (zeroFill n fb) n

/-- Builds a frame in `FB`; it never fails and calls no primitive (rule R120). -/
def build (f : FrameReq) (s : State) : State :=
  match f with
  | .target k r d => { s with fb := buildTarget s.cfg.n k r d s.fb }
  | .all r d => { s with fb := buildAll s.cfg.n r d s.fb }

/-- `FB[0 .. 2*N-1]`, the frame that is sent (rule R46). -/
def State.frame (s : State) : List Byte := s.fb.take (2 * s.cfg.n)

/-- One byte on the wire, most significant bit first (rule R47). -/
def byteBits (b : Byte) : List Bool := (List.range 8).map (fun i => b.getMsbD i)

/-- The bit stream of a frame, first bit first (rule R47). -/
def wireBits (f : List Byte) : List Bool := f.flatMap byteBits

/-- The devices after a transfer: latched where every part of it succeeded, unknown otherwise. -/
def settle (f : List Byte) (allOk : Bool) (s : State) : State := if allOk then latch f s else devUnknown s

/-- `Transfer()` in the `HW` variant (rule R124). -/
def transferHW (s : State) : Status × State :=
  (hwStatus (s.upcoming 0), settle s.frame (s.upcoming 0 == .ok) (serWrite s.frame s))

/-- `Transfer()` in the `SW` variant (rule R125): low, write unless the drive low failed, high on every path. -/
def transferSW (s : State) : Status × State :=
  match s.upcoming 0 with
  | .ok =>
    (swStatus .ok (some (s.upcoming 1)) (s.upcoming 2),
      settle s.frame (s.upcoming 1 == .ok && s.upcoming 2 == .ok) (pinHigh (serWrite s.frame (pinLow s))))
  | .err => (swStatus .err none (s.upcoming 1), settle s.frame false (pinHigh (pinLow s)))

/-- `Transfer()`. -/
def transfer (s : State) : Status × State :=
  match s.cfg.sel with
  | .hw => transferHW s
  | .sw => transferSW s

/-- `FrameTarget` and `FrameAll` (rule R128). -/
def sendFrame (f : FrameReq) (s : State) : Status × State := transfer (build f s)

/-- A sequence of frames: it stops at the first whose status is not OK, and that is its status (rules R127, R165). -/
def sendFrames : List FrameReq → State → Status × State
  | [], s => (.ok, s)
  | f :: fs, s =>
    match sendFrame f s with
    | (st, t) => if st = .ok then sendFrames fs t else (st, t)

/-! ### The tests before the first frame -/

/-- Whether the device index of a command, if it has one, lies in the chain (rules R49, R204). -/
def indexInRange (n : Nat) : Option Byte → Bool
  | none => true
  | some k => decide (k.toNat < n)

/-- What a command does once its word is accepted: an encoder's result, or frames to send, or the answer to operands
that make it illegal. -/
inductive Work
  | result (v : Byte)
  | frames (dev : Option Byte) (todo : List FrameReq)
  | illegal
deriving DecidableEq, Repr

/-- A command that sends frames, with an illegal word: NOT_READY, then ILLEGAL_CMD (rules R203, R207). -/
def refuseIllegal (s : State) : State :=
  if s.lc ≠ .ready then complete .notReady s else complete .illegalCmd s

/-- The tests before the first frame, earliest first: NOT_READY, ILLEGAL_CMD, RANGE_ERR (rules R131, R207). `go` sends
the frames of a command that passes them; an encoder has none and is not tested (rule R205). -/
def enter (go : List FrameReq → State → State) (w : Work) (s : State) : State :=
  match w with
  | .result v => complete .ok { s with res := v }
  | .illegal => refuseIllegal s
  | .frames dev todo =>
    if s.lc ≠ .ready then complete .notReady s
    else if indexInRange s.cfg.n dev = false then complete .rangeErr s
    else go todo s

/-- Sends frames and completes with their status (rules R127, R165, R206). -/
def sendAll (todo : List FrameReq) (s : State) : State :=
  complete (sendFrames todo s).1 (sendFrames todo s).2

/-- A whole command, from its acceptance to its completion. -/
def perform (w : Work) (s : State) : State := enter sendAll w s

/-- One frame to device `k`. -/
def oneTarget (k : Byte) (reg data : Byte) : Work := .frames (some k) [.target k.toNat reg data]

/-- One frame to every device. -/
def oneBroadcast (reg data : Byte) : Work := .frames none [.all reg data]

end Sys2Proof.Machine
end

