-- ==== Sys2Proof/Machine/Controller.lean ====
section
/-! DEFINITION. The meanings of the controller operations, PWRON to WRBCD (`spec/42_controller_ops.md`): each is a
fixed list of frames (rule R150). -/

namespace Sys2Proof.Machine

/-! ### Power -/

/-- PWRON (rule R151). -/
def workPwron (c : Cfg) : Work := oneBroadcast (c.addrOf .shutdown) (c.powerOf .normalOperation)

/-- PWRON performed (rule R151). -/
def execPwron (s : State) : Host.Outcome State Fault Refusal :=
  .next (perform (workPwron s.cfg) s)

/-- PWROFF (rule R152). -/
def workPwroff (c : Cfg) : Work := oneBroadcast (c.addrOf .shutdown) (c.powerOf .shutdownMode)

/-- PWROFF performed (rule R152). -/
def execPwroff (s : State) : Host.Outcome State Fault Refusal :=
  .next (perform (workPwroff s.cfg) s)

/-- SETSHDN (rule R153). -/
def workSetshdn (mode : Power) (c : Cfg) : Work := oneBroadcast (c.addrOf .shutdown) (c.powerOf mode)

/-- SETSHDN performed (rule R153). -/
def execSetshdn (mode : Power) (s : State) : Host.Outcome State Fault Refusal :=
  .next (perform (workSetshdn mode s.cfg) s)

/-! ### Per-register configuration -/

/-- SETDEC (rule R154). -/
def workSetdec (k : Byte) (mode : DecodeMode) (c : Cfg) : Work :=
  oneTarget k (c.addrOf .decodeMode) (c.decodeOf mode)

/-- SETDEC performed (rule R154). -/
def execSetdec (k : Byte) (mode : DecodeMode) (s : State) : Host.Outcome State Fault Refusal :=
  .next (perform (workSetdec k mode s.cfg) s)

/-- SETINT (rule R155): a level of 16 or more is ILLEGAL_CMD. -/
def workSetint (k : Byte) (level : Nat) (c : Cfg) : Work :=
  if h : level < 16 then oneTarget k (c.addrOf .intensity) (c.intensityOf ⟨level, h⟩) else .illegal

/-- SETINT performed (rule R155). -/
def execSetint (k : Byte) (level : Nat) (s : State) : Host.Outcome State Fault Refusal :=
  .next (perform (workSetint k level s.cfg) s)

/-- SETINTA (rule R156). -/
def workSetinta (level : Nat) (c : Cfg) : Work :=
  if h : level < 16 then oneBroadcast (c.addrOf .intensity) (c.intensityOf ⟨level, h⟩) else .illegal

/-- SETINTA performed (rule R156). -/
def execSetinta (level : Nat) (s : State) : Host.Outcome State Fault Refusal :=
  .next (perform (workSetinta level s.cfg) s)

/-- SETSCAN (rule R157): a limit of 8 or more is ILLEGAL_CMD. -/
def workSetscan (k : Byte) (limit : Nat) (c : Cfg) : Work :=
  if h : limit < 8 then oneTarget k (c.addrOf .scanLimit) (c.scanOf ⟨limit, h⟩) else .illegal

/-- SETSCAN performed (rule R157). -/
def execSetscan (k : Byte) (limit : Nat) (s : State) : Host.Outcome State Fault Refusal :=
  .next (perform (workSetscan k limit s.cfg) s)

/-- SETTEST (rule R158). -/
def workSettest (k : Byte) (mode : DisplayTest) (c : Cfg) : Work :=
  oneTarget k (c.addrOf .displayTest) (c.testOf mode)

/-- SETTEST performed (rule R158). -/
def execSettest (k : Byte) (mode : DisplayTest) (s : State) : Host.Outcome State Fault Refusal :=
  .next (perform (workSettest k mode s.cfg) s)

/-- SETTESTA (rule R159). -/
def workSettesta (mode : DisplayTest) (c : Cfg) : Work := oneBroadcast (c.addrOf .displayTest) (c.testOf mode)

/-- SETTESTA performed (rule R159). -/
def execSettesta (mode : DisplayTest) (s : State) : Host.Outcome State Fault Refusal :=
  .next (perform (workSettesta mode s.cfg) s)

/-! ### Clearing -/

/-- CLR (rule R160): registers 1 to 8 upward, one frame each (rule R168 (c)). -/
def workClr (k : Byte) (c : Cfg) : Work :=
  .frames (some k) ((List.finRange 8).map (fun i => .target k.toNat (c.addrOf (.digit i)) 0x00))

/-- CLR performed (rule R160). -/
def execClr (k : Byte) (s : State) : Host.Outcome State Fault Refusal :=
  .next (perform (workClr k s.cfg) s)

/-- CLRA (rule R161): eight broadcast frames. -/
def workClra (c : Cfg) : Work :=
  .frames none ((List.finRange 8).map (fun i => .all (c.addrOf (.digit i)) 0x00))

/-- CLRA performed (rule R161). -/
def execClra (s : State) : Host.Outcome State Fault Refusal :=
  .next (perform (workClra s.cfg) s)

/-! ### Writing eight digits -/

/-- WRDIG8 (rule R162): `buf[i]` goes to register `i + 1`. -/
def workWrdig8 (k : Byte) (buf : Payload) (c : Cfg) : Work :=
  .frames (some k) ((List.finRange 8).map (fun i => .target k.toNat (c.addrOf (.digit i)) (buf.get i)))

/-- WRDIG8 performed (rule R162). -/
def execWrdig8 (k : Byte) (buf : Payload) (s : State) : Host.Outcome State Fault Refusal :=
  .next (perform (workWrdig8 k buf s.cfg) s)

/-- The frame that sets a device's decode mode and the eight digit frames of a string, register 8 first (rules R163,
R164). -/
def stringFrames (cfg : Cfg) (k : Byte) (mode : DecodeMode) (code : Fin 8 → Byte) : List FrameReq :=
  .target k.toNat (cfg.addrOf .decodeMode) (cfg.decodeOf mode)
    :: (List.finRange 8).map (fun j => .target k.toNat (cfg.addrOf (stringDigit j)) (code j))

/-- WRSTR (rules R163, R168 (d)). -/
def workWrstr (k : Byte) (dots : Byte) (buf : Payload) (c : Cfg) : Work :=
  .frames (some k) (stringFrames c k .noDecode (fun j => segmentEncode c (buf.get j) (dotOf dots j)))

/-- WRSTR performed (rule R163). -/
def execWrstr (k : Byte) (dots : Byte) (buf : Payload) (s : State) : Host.Outcome State Fault Refusal :=
  .next (perform (workWrstr k dots buf s.cfg) s)

/-- WRBCD (rule R164). -/
def workWrbcd (k : Byte) (buf : Payload) (c : Cfg) : Work :=
  .frames (some k) (stringFrames c k .codeBDigits7_0 (fun j => bcdEncode c (buf.get j)))

/-- WRBCD performed (rule R164). -/
def execWrbcd (k : Byte) (buf : Payload) (s : State) : Host.Outcome State Fault Refusal :=
  .next (perform (workWrbcd k buf s.cfg) s)

end Sys2Proof.Machine
end

