-- ==== Sys2Proof/Machine/Encoders.lean ====
section
/-! DEFINITION. The meanings of SEGENC and BCDENC (`spec/40_encoders.md`). They touch no primitive and are performed
in every life-cycle state in which a command is accepted (rule R205). -/

namespace Sys2Proof.Machine

/-- SEGENC (rule R105). -/
def workSegenc (ch : Byte) (dot : Bool) (c : Cfg) : Work := .result (segmentEncode c ch dot)

/-- SEGENC performed (rule R105). -/
def execSegenc (ch : Byte) (dot : Bool) (s : State) : Host.Outcome State Fault Refusal :=
  .next (perform (workSegenc ch dot s.cfg) s)

/-- BCDENC (rule R110). -/
def workBcdenc (ch : Byte) (c : Cfg) : Work := .result (bcdEncode c ch)

/-- BCDENC performed (rule R110). -/
def execBcdenc (ch : Byte) (s : State) : Host.Outcome State Fault Refusal :=
  .next (perform (workBcdenc ch s.cfg) s)

end Sys2Proof.Machine
end

