-- ==== Sys2Proof/Machine/FrameSequencer.lean ====
section
/-! DEFINITION. The meanings of WRRAW, WRREG, BCRAW and DRAW (`spec/41_frame_sequencer.md`). -/

namespace Sys2Proof.Machine

/-- WRRAW (rule R132): register and data byte go to the wire as given. -/
def workWrraw (k reg data : Byte) (_ : Cfg) : Work := oneTarget k reg data

/-- WRRAW performed (rule R132). -/
def execWrraw (k reg data : Byte) (s : State) : Host.Outcome State Fault Refusal :=
  .next (perform (workWrraw k reg data s.cfg) s)

/-- WRREG (rule R133): the register is typed, the data byte is not. -/
def workWrreg (k : Byte) (name : RegName) (data : Byte) (c : Cfg) : Work := oneTarget k (c.addrOf name) data

/-- WRREG performed (rule R133). -/
def execWrreg (k : Byte) (name : RegName) (data : Byte) (s : State) : Host.Outcome State Fault Refusal :=
  .next (perform (workWrreg k name data s.cfg) s)

/-- BCRAW (rule R134): one broadcast frame, no device index. -/
def workBcraw (reg data : Byte) (_ : Cfg) : Work := oneBroadcast reg data

/-- BCRAW performed (rule R134). -/
def execBcraw (reg data : Byte) (s : State) : Host.Outcome State Fault Refusal :=
  .next (perform (workBcraw reg data s.cfg) s)

/-- DRAW (rule R135): legal only when `N = 1` and the digit index is 0 to 7; it has no device index field. -/
def workDraw (digit : Nat) (data : Byte) (c : Cfg) : Work :=
  if h : digit < 8 then
    if c.n = 1 then .frames none [.target 0 (c.addrOf (.digit ⟨digit, h⟩)) data] else .illegal
  else .illegal

/-- DRAW performed (rule R135). -/
def execDraw (digit : Nat) (data : Byte) (s : State) : Host.Outcome State Fault Refusal :=
  .next (perform (workDraw digit data s.cfg) s)

end Sys2Proof.Machine
end

