-- ==== Sys2Proof/Machine/Dispatch.lean ====
section
/-! DEFINITION. One arm for each command. -/

namespace Sys2Proof.Machine

def exec (i : Instr) (s : State) : Host.Outcome State Fault Refusal :=
  match i with
  | .segenc ch dot => Sys2Proof.Machine.execSegenc ch dot s
  | .bcdenc ch => Sys2Proof.Machine.execBcdenc ch s
  | .wrraw k reg data => Sys2Proof.Machine.execWrraw k reg data s
  | .wrreg k name data => Sys2Proof.Machine.execWrreg k name data s
  | .bcraw reg data => Sys2Proof.Machine.execBcraw reg data s
  | .draw digit data => Sys2Proof.Machine.execDraw digit data s
  | .pwron => Sys2Proof.Machine.execPwron s
  | .pwroff => Sys2Proof.Machine.execPwroff s
  | .setshdn mode => Sys2Proof.Machine.execSetshdn mode s
  | .setdec k mode => Sys2Proof.Machine.execSetdec k mode s
  | .setint k level => Sys2Proof.Machine.execSetint k level s
  | .setinta level => Sys2Proof.Machine.execSetinta level s
  | .setscan k limit => Sys2Proof.Machine.execSetscan k limit s
  | .settest k mode => Sys2Proof.Machine.execSettest k mode s
  | .settesta mode => Sys2Proof.Machine.execSettesta mode s
  | .clr k => Sys2Proof.Machine.execClr k s
  | .clra => Sys2Proof.Machine.execClra s
  | .wrdig8 k buf => Sys2Proof.Machine.execWrdig8 k buf s
  | .wrstr k dots buf => Sys2Proof.Machine.execWrstr k dots buf s
  | .wrbcd k buf => Sys2Proof.Machine.execWrbcd k buf s

end Sys2Proof.Machine
end

