-- ==== Sys2Proof/Machine/Port.lean ====
section
/-! DEFINITION. What happens at the command port: accepting and decoding a word (rules R28, R70, R73, R81), reset
(rule R230), and the initialization sequence the block runs by itself (rules R232, R233). -/

namespace Sys2Proof.Machine

/-! ### The initialization sequence -/

/-- The eleven frames of one device, in order (rule R232). -/
def initDevice (cfg : Cfg) (k : Nat) : List FrameReq :=
  [.target k (cfg.addrOf .displayTest) (cfg.testOf .normal),
   .target k (cfg.addrOf .decodeMode) (cfg.decodeOf .noDecode),
   .target k (cfg.addrOf .scanLimit) (cfg.scanOf 7)]
    ++ (List.finRange 8).map (fun i => .target k (cfg.addrOf (.digit i)) 0x00)

/-- `Init()` (rule R232): device by device, then one broadcast frame that shuts every device down. -/
def initFrames (cfg : Cfg) : List FrameReq :=
  (List.range cfg.n).flatMap (initDevice cfg) ++ [.all (cfg.addrOf .shutdown) (cfg.powerOf .shutdownMode)]

/-- The end of the sequence (rule R233): the only write of `LC`. -/
def finishInit (st : Status) (s : State) : State :=
  { complete st s with lc := if st = .ok then .ready else .failed }

/-- `Init()` run to its end, as its pseudocode is written (rules R232, R233). -/
def boot (s : State) : State :=
  finishInit (sendFrames (initFrames s.cfg) s).1 (sendFrames (initFrames s.cfg) s).2

/-- Whether the platform keeps rule R237 at reset release: in the `SW` variant the select line is high before the first
call of the sequence. -/
def selectReady (s : State) : Bool :=
  match s.cfg.sel with
  | .hw => true
  | .sw => !s.atRelease || s.cs == .high

/-! ### Reset -/

/-- Reset asserted and released (rules R38, R230, R246; logs 9, 11 and 12): every element takes its reset value; `CFG`
and the inputs still to come stay. No primitive is called (rule R231). -/
def resetRelease (s : State) : State :=
  { State.resetOf s.cfg with port := s.port, answers := s.answers, calls := s.calls }

/-! ### Accepting a word -/

/-- The command latch takes the accepted word (rules R26, R73). -/
def latchCmd (c : CmdWord) (s : State) : State := { s with cmd := c }

/-- SEGENC and BCDENC skip the life-cycle test, told by the opcode byte alone (rules R205, R207). -/
def isEncoderOp (op : Byte) : Bool := op == 0x01 || op == 0x02

/-- The end of a word that is no legal command (rules R203, R207): ILLEGAL_CMD where the block is READY or the
opcode is an encoder's, NOT_READY otherwise. -/
def rejectWord (op : Byte) (s : State) : State :=
  if isEncoderOp op then complete .illegalCmd s else refuseIllegal s

/-- The block has accepted a word: it is in the latch, it is decoded, and the command is refused or handed to `run`
(rules R73, R81, R131). -/
def acceptWord (run : Instr → State → Host.Outcome State Fault Refusal) (c : CmdWord) (s : State) :
    Host.Outcome State Fault Refusal :=
  match decodeFields c with
  | .ok i => run i (latchCmd c s)
  | .error _ => .next (rejectWord c.op (latchCmd c s))

/-- The host presents bytes at the port. While `BUSY = 1` they are not accepted and not queued (rule R28); bytes that
end before the word does are no word and have no effect (log 5). -/
def present (run : Instr → State → Host.Outcome State Fault Refusal) (bytes : List Byte) (s : State) :
    Host.Outcome State Fault Refusal :=
  if s.busy then .next s
  else
    match takeWord bytes with
    | none => .next s
    | some (c, _) => acceptWord run c s

/-- The host's next act, if it has one; with none the block stays idle (log 4). -/
def hostAct (run : Instr → State → Host.Outcome State Fault Refusal) (s : State) : Host.Outcome State Fault Refusal :=
  match s.port with
  | [] => .next s
  | .word bytes :: rest => present run bytes { s with port := rest }
  | .reset :: rest => .next (resetRelease { s with port := rest })

/-! ### The reference host -/

/-- A step from this state ends with the completion of a command the host presented: one that is running, or the next
whole word at the port. The initialization sequence is no such command. -/
def completesWord (s : State) : Bool :=
  if s.busy then s.lc != .init
  else
    match s.port with
    | .word bytes :: _ => (takeWord bytes).isSome
    | .reset :: _ => false
    | [] => false

/-- The reference host stops after a step from `s` to `t`: a presented command completed with a status that is not OK
(rule R210). -/
def referenceHostStops (s t : State) : Bool := completesWord s && t.status != .ok

end Sys2Proof.Machine
end

