-- ==== Sys2Proof/Machine/Calls.lean ====
section
/-! DEFINITION. The block at the spec's own grain (rule R9): one step is one call of a primitive or one completion. A
state between two calls is a State: `BUSY` is 1, select is where the last call left it, the devices hold what has been
latched so far. -/

namespace Sys2Proof.Machine

/-! ### One call or one completion -/

/-- Where a frame's status leads: on to the next frame, or to the end of the command (rules R127, R165). -/
def progressAfter (st : Status) (todo : List FrameReq) : Progress := if st = .ok then .frames todo else .ending st

/-- The end of what is running: of the initialization sequence (rule R233) or of a command (rule R206). -/
def finish (st : Status) (s : State) : State :=
  (if s.lc = .init then finishInit st s else complete st s).setProgress .idle

/-- The first call of the next frame, which is built for it, or the completion when no frame is left (rules R120, R124,
R125). -/
def nextFrame (todo : List FrameReq) (s : State) : State :=
  match todo with
  | [] => finish .ok s
  | f :: rest =>
    match s.cfg.sel with
    | .hw => (sendFrame f s).2.setProgress (progressAfter (sendFrame f s).1 rest)
    | .sw =>
      (pinLow (build f s)).setProgress
        (match s.upcoming 0 with
        | .ok => .selected rest
        | .err => .lowFailed)

/-- The write of a `SW` frame (rule R125). -/
def writeFrame (todo : List FrameReq) (s : State) : State :=
  (serWrite s.frame s).setProgress (.written (s.upcoming 0) todo)

/-- The drive to high that ends a `SW` frame, with what the devices then hold (rules R51, R52, R125); `r1` and `r2` are
the answers to the drive to low and to the write. -/
def releaseSelect (r1 : Answer) (r2 : Option Answer) (todo : List FrameReq) (s : State) : State :=
  (settle s.frame (swStatus r1 r2 (s.upcoming 0) == .ok) (pinHigh s)).setProgress
    (progressAfter (swStatus r1 r2 (s.upcoming 0)) todo)

/-- One step of the block: its next primitive call, or the completion (rule R9). A block that is idle stays as it is. -/
def advance (s : State) : State :=
  match s.progress with
  | .idle => if s.lc = .init then nextFrame (initFrames s.cfg) s else s
  | .frames todo => nextFrame todo s
  | .selected todo => writeFrame todo s
  | .written r todo => releaseSelect .ok (some r) todo s
  | .lowFailed => releaseSelect .err none [] s
  | .ending st => finish st s

/-! ### Starting a command -/

/-- The work of every command. -/
def workOf (c : Cfg) : Instr → Work
  | .segenc ch dot => workSegenc ch dot c
  | .bcdenc ch => workBcdenc ch c
  | .wrraw k reg data => workWrraw k reg data c
  | .wrreg k name data => workWrreg k name data c
  | .bcraw reg data => workBcraw reg data c
  | .draw digit data => workDraw digit data c
  | .pwron => workPwron c
  | .pwroff => workPwroff c
  | .setshdn mode => workSetshdn mode c
  | .setdec k mode => workSetdec k mode c
  | .setint k level => workSetint k level c
  | .setinta level => workSetinta level c
  | .setscan k limit => workSetscan k limit c
  | .settest k mode => workSettest k mode c
  | .settesta mode => workSettesta mode c
  | .clr k => workClr k c
  | .clra => workClra c
  | .wrdig8 k buf => workWrdig8 k buf c
  | .wrstr k dots buf => workWrstr k dots buf c
  | .wrbcd k buf => workWrbcd k buf c

/-- The first call of an accepted command, or its completion where it makes none. -/
def startWork (w : Work) (s : State) : State := enter nextFrame w s

/-- The same of a command. -/
def start (i : Instr) (s : State) : Host.Outcome State Fault Refusal := .next (startWork (workOf s.cfg i) s)

/-! ### Running on -/

/-- Steps until what is running has completed, at most `k` of them. -/
def runOn : Nat → State → State
  | 0, s => s
  | k + 1, s => if s.busy then runOn k (advance s) else s

/-- As many steps as what is running can still take: three calls for a frame and one for the completion. -/
def stepsLeft (s : State) : Nat :=
  match s.progress with
  | .idle => 3 * (initFrames s.cfg).length + 1
  | .frames todo => 3 * todo.length + 1
  | .selected todo => 3 * todo.length + 3
  | .written _ todo => 3 * todo.length + 2
  | .lowFailed => 2
  | .ending _ => 1

/-- What is running, run to its completion. -/
def runOut (s : State) : State := runOn (stepsLeft s) s

/-! ### The machine that steps call by call -/

/-- What stops a step: an illegal `CFG` (rule R21), and a sequence that would start with select not high (rule R237,
U9). -/
def guarded (s : State) (o : Host.Outcome State Fault Refusal) : Host.Outcome State Fault Refusal :=
  if s.cfg.legal then
    if selectReady s then o else .refused .selectNotHighAtRelease
  else .refused .illegalConfig

/-- One step of the spec (rule R9): of a block that is busy one call or one completion; of an idle block the host's next
act, with the first call or the completion of the command it presents. -/
def callStep (s : State) : Host.Outcome State Fault Refusal :=
  guarded s (if s.busy then .next (advance s) else hostAct start s)

/-- Call-grain steps, one after another. -/
def callRun : Nat → State → Host.Outcome State Fault Refusal
  | 0, s => .next s
  | k + 1, s =>
    match callStep s with
    | .next t => callRun k t
    | .fault r => .fault r
    | .refused r => .refused r

end Sys2Proof.Machine
end

