-- ==== Sys2Proof/Machine/Step.lean ====
section
/-! DEFINITION. One step of the machine at the grain of commands: the whole initialization sequence, a whole command, or
another act of the host (log 3). -/

namespace Sys2Proof.Machine

/-- One step. A block that is busy runs what is running to its completion: after reset that is the initialization sequence
(rule R230). For an idle block the host's next act happens, a command from its acceptance to its completion. -/
def step (s : State) : Host.Outcome State Fault Refusal :=
  guarded s (if s.busy then .next (runOut s) else hostAct exec s)

/-- The state in which the host's next act is to present the table word `w` of `nbits` bits, and the block is idle and no
longer in the initialization sequence, so that the very next step runs that command (log 14). -/
def State.withFetchWord (s : State) (nbits w : Nat) : State :=
  { s with
    lc := if s.lc = .init then .ready else s.lc
    progress := .idle
    port := .word (tableBytes nbits w) :: s.port }

/-- The reference host of rule R210 over at most `k` steps. It waits while the block is busy, presents its words in order,
one after each completion, and stops when one completes with a status that is not OK. -/
def referenceRun : Nat → State → Host.Outcome State Fault Refusal
  | 0, s => .next s
  | k + 1, s =>
    match step s with
    | .next t => if referenceHostStops s t then .next t else referenceRun k t
    | .fault r => .fault r
    | .refused r => .refused r

end Sys2Proof.Machine
end

