-- ==== Sys2Proof/Safety.lean ====
section
/-! DEFINITION. The terms in which statements speak: frames as the spec writes them (rules R46, R121, R122), what a run
of good transfers leaves behind, the rows of one failed transfer (rule R126), the frames of every command (rule R150)
and of the initialization sequence (rule R232), the registers and data bytes frames name (rule R168), predicates on the
devices (rule R59), the account `TRACE` gives of the devices (rules R36, R51, R52), and the invariants. No meaning uses
anything of this file. -/

namespace Sys2Proof.Machine

/-! ### Frames -/

/-- A targeted frame: pair `k` is `(r, d)`, every other pair `(0x00, 0x00)`, index 0 first (rules R46, R121). -/
def pairFrame (n k : Nat) (r d : Byte) : List Byte :=
  (List.range n).flatMap (fun i => if i = k then [r, d] else [0x00, 0x00])

/-- A broadcast frame: every pair is `(r, d)` (rule R122). -/
def everyFrame (n : Nat) (r d : Byte) : List Byte := (List.range n).flatMap (fun _ => [r, d])

/-- The primitive calls of one frame: one in the `HW` variant, three in the `SW` variant. -/
def callsPerFrame : Sel → Nat
  | .hw => 1
  | .sw => 3

/-- What `TRACE` gains from one good transfer (rule R126, first rows). -/
def goodEvents (sel : Sel) (f : List Byte) : List Event :=
  match sel with
  | .hw => [.tx f .ok]
  | .sw => [.pl .ok, .tx f .ok, .ph .ok]

/-- The other rows of rule R126: what `TRACE` gains from a transfer that fails, and its status. -/
def failRows (sel : Sel) (f : List Byte) : List (List Event × Status) :=
  match sel with
  | .hw => [([.tx f .err], .transportErr)]
  | .sw =>
    [([.pl .ok, .tx f .ok, .ph .err], .pinErr),
     ([.pl .ok, .tx f .err, .ph .ok], .transportErr),
     ([.pl .ok, .tx f .err, .ph .err], .pinErr),
     ([.pl .err, .ph .ok], .pinErr),
     ([.pl .err, .ph .err], .pinErr)]

/-- The answer an event carries. -/
def Event.answer : Event → Answer
  | .tx _ r => r
  | .pl r => r
  | .ph r => r

/-- The environment answers `ok` to the next `m` calls. -/
abbrev AnswersOk (s : State) (m : Nat) : Prop := ∀ j, j < m → s.upcoming j = .ok

/-- From the call after the next `m` on, the environment answers as these events carry. -/
abbrev AnswersFrom (s : State) (m : Nat) (es : List Event) : Prop :=
  ∀ j, j < es.length → (es[j]?).map Event.answer = some (s.upcoming (m + j))

/-- The devices after these frames, each transferred whole (rules R51, R54). -/
def latchAll (cfg : Cfg) (frames : List (List Byte)) (m : Memory) : Memory :=
  frames.foldl (fun m f => latchBelow cfg f m cfg.n) m

/-- The state after a command whose frames, of which there is at least one, were all transferred: `FB` holds the last
of them, `TRACE` has gained every transfer, the devices have latched every frame, select is high again, and the
status is OK. Every other element is unchanged. -/
def afterFrames (s : State) (frames : List (List Byte)) : State :=
  { s with
    status := .ok
    fb := frames.getLastD [] ++ s.fb.drop (2 * s.cfg.n)
    trace := s.trace ++ frames.flatMap (goodEvents s.cfg.sel)
    cs := .high
    dev := latchAll s.cfg frames s.dev
    answers := s.answers.drop (frames.length * callsPerFrame s.cfg.sel)
    calls := s.calls + frames.length * callsPerFrame s.cfg.sel }

/-- A command refused before its first frame: only `STATUS` and `FAULT` change (rules R206, R207). -/
def refusedWith (st : Status) (s : State) : State := { s with status := st, fault := true }

/-! ### The frames of the commands -/

/-- The eight targeted frames that write `data i` to register `i + 1`, upward (rules R160, R162). -/
def upwardFrames (n k : Nat) (data : Fin 8 → Byte) : List (List Byte) :=
  (List.finRange 8).map (fun i => pairFrame n k (BitVec.ofNat 8 (i.val + 1)) (data i))

/-- The eight targeted frames that write `data j` to register `8 - j`, in array order (rules R163, R164). -/
def downwardFrames (n k : Nat) (data : Fin 8 → Byte) : List (List Byte) :=
  (List.finRange 8).map (fun j => pairFrame n k (BitVec.ofNat 8 (8 - j.val)) (data j))

/-- The frames of every command in time order, when no error occurs (rules R132 to R135, R150). An operand that no
command word can carry has no frames. -/
def commandFrames (c : Cfg) : Instr → List (List Byte)
  | .segenc _ _ => []
  | .bcdenc _ => []
  | .wrraw k reg data => [pairFrame c.n k.toNat reg data]
  | .wrreg k name data => [pairFrame c.n k.toNat (c.addrOf name) data]
  | .bcraw reg data => [everyFrame c.n reg data]
  | .draw digit data => if digit < 8 then [pairFrame c.n 0 (BitVec.ofNat 8 (digit + 1)) data] else []
  | .pwron => [everyFrame c.n (c.addrOf .shutdown) (c.powerOf .normalOperation)]
  | .pwroff => [everyFrame c.n (c.addrOf .shutdown) (c.powerOf .shutdownMode)]
  | .setshdn mode => [everyFrame c.n (c.addrOf .shutdown) (c.powerOf mode)]
  | .setdec k mode => [pairFrame c.n k.toNat (c.addrOf .decodeMode) (c.decodeOf mode)]
  | .setint k level =>
    if h : level < 16 then [pairFrame c.n k.toNat (c.addrOf .intensity) (c.intensityOf ⟨level, h⟩)] else []
  | .setinta level =>
    if h : level < 16 then [everyFrame c.n (c.addrOf .intensity) (c.intensityOf ⟨level, h⟩)] else []
  | .setscan k limit =>
    if h : limit < 8 then [pairFrame c.n k.toNat (c.addrOf .scanLimit) (c.scanOf ⟨limit, h⟩)] else []
  | .settest k mode => [pairFrame c.n k.toNat (c.addrOf .displayTest) (c.testOf mode)]
  | .settesta mode => [everyFrame c.n (c.addrOf .displayTest) (c.testOf mode)]
  | .clr k => upwardFrames c.n k.toNat (fun _ => 0x00)
  | .clra => (List.finRange 8).map (fun i => everyFrame c.n (BitVec.ofNat 8 (i.val + 1)) 0x00)
  | .wrdig8 k buf => upwardFrames c.n k.toNat buf.get
  | .wrstr k dots buf =>
    pairFrame c.n k.toNat (c.addrOf .decodeMode) (c.decodeOf .noDecode)
      :: downwardFrames c.n k.toNat (fun j => segmentEncode c (buf.get j) (dotOf dots j))
  | .wrbcd k buf =>
    pairFrame c.n k.toNat (c.addrOf .decodeMode) (c.decodeOf .codeBDigits7_0)
      :: downwardFrames c.n k.toNat (fun j => bcdEncode c (buf.get j))

/-- The device index a command's word carries, if its format has one (rule R204). -/
def deviceOf : Instr → Option Byte
  | .segenc _ _ => none
  | .bcdenc _ => none
  | .wrraw k _ _ => some k
  | .wrreg k _ _ => some k
  | .bcraw _ _ => none
  | .draw _ _ => none
  | .pwron => none
  | .pwroff => none
  | .setshdn _ => none
  | .setdec k _ => some k
  | .setint k _ => some k
  | .setinta _ => none
  | .setscan k _ => some k
  | .settest k _ => some k
  | .settesta _ => none
  | .clr k => some k
  | .clra => none
  | .wrdig8 k _ => some k
  | .wrstr k _ _ => some k
  | .wrbcd k _ => some k

/-- SEGENC and BCDENC, which need no working chain (rule R205). -/
def isEncoder (i : Instr) : Bool := i.mnemonic == .SEGENC || i.mnemonic == .BCDENC

/-- A command this instance takes as legal: its typed operands are in range and, for DRAW, `N = 1` (rules R78, R79). -/
def legalFor (n : Nat) (i : Instr) : Bool := i.wellFormed && (i.mnemonic != .DRAW || n == 1)

/-- A command that passes every test before its first frame (rules R131, R207). -/
structure Performed (i : Instr) (s : State) : Prop where
  ready : s.lc = .ready
  legal : legalFor s.cfg.n i = true
  inRange : ∀ k, deviceOf i = some k → k.toNat < s.cfg.n

/-- The frames of the initialization sequence (rule R232): per device in index order DisplayTest, DecodeMode, ScanLimit
and registers 1 to 8, then one broadcast Shutdown. -/
def initSequence (c : Cfg) : List (List Byte) :=
  (List.range c.n).flatMap (fun k =>
    pairFrame c.n k (c.addrOf .displayTest) (c.testOf .normal)
      :: pairFrame c.n k (c.addrOf .decodeMode) (c.decodeOf .noDecode)
      :: pairFrame c.n k (c.addrOf .scanLimit) (c.scanOf 7)
      :: upwardFrames c.n k (fun _ => 0x00))
    ++ [everyFrame c.n (c.addrOf .shutdown) (c.powerOf .shutdownMode)]

/-! ### What frames name (rule R168) -/

/-- The frames handed to the serial writer in these events, in order. -/
def framesSent (es : List Event) : List (List Byte) :=
  es.filterMap (fun e =>
    match e with
    | .tx f _ => some f
    | .pl _ => none
    | .ph _ => none)

/-- The register byte each frame holds for device `k`. -/
def registersAt (k : Nat) (frames : List (List Byte)) : List Byte := frames.map (fun f => f.getD (2 * k) 0x00)

/-- The data byte each frame holds for device `k`. -/
def dataAt (k : Nat) (frames : List (List Byte)) : List Byte := frames.map (fun f => f.getD (2 * k + 1) 0x00)

/-! ### The opcode table as numbers -/

/-- The first four bytes of a command word as one number (rules R71, R74, R75). -/
def headerOf (c : CmdWord) : BitVec 32 := c.op ++ c.dev ++ c.a ++ c.b

/-- The column "match" of rule R77; of a format L row its first 32 bits, the others being zero. -/
def matchOf : Mnemonic → BitVec 32
  | .SEGENC => 0x01000000
  | .BCDENC => 0x02000000
  | .WRRAW => 0x10000000
  | .WRREG => 0x11000000
  | .BCRAW => 0x12000000
  | .DRAW => 0x13000000
  | .PWRON => 0x20000000
  | .PWROFF => 0x21000000
  | .SETSHDN => 0x22000000
  | .SETDEC => 0x23000000
  | .SETINT => 0x24000000
  | .SETINTA => 0x25000000
  | .SETSCAN => 0x26000000
  | .SETTEST => 0x27000000
  | .SETTESTA => 0x28000000
  | .CLR => 0x29000000
  | .CLRA => 0x2A000000
  | .WRDIG8 => 0x80000000
  | .WRSTR => 0x81000000
  | .WRBCD => 0x82000000

/-- The column "mask" of rule R77; of a format L row its first 32 bits, the others being zero. -/
def maskOf : Mnemonic → BitVec 32
  | .SEGENC => 0xFFFF00FE
  | .BCDENC => 0xFFFF00FF
  | .WRRAW => 0xFF000000
  | .WRREG => 0xFF00F000
  | .BCRAW => 0xFFFF0000
  | .DRAW => 0xFFFFF800
  | .PWRON => 0xFFFFFFFF
  | .PWROFF => 0xFFFFFFFF
  | .SETSHDN => 0xFFFFFEFF
  | .SETDEC => 0xFF00FCFF
  | .SETINT => 0xFF00F0FF
  | .SETINTA => 0xFFFFF0FF
  | .SETSCAN => 0xFF00F8FF
  | .SETTEST => 0xFF00FEFF
  | .SETTESTA => 0xFFFFFEFF
  | .CLR => 0xFF00FFFF
  | .CLRA => 0xFFFFFFFF
  | .WRDIG8 => 0xFF00FFFF
  | .WRSTR => 0xFF0000FF
  | .WRBCD => 0xFF00FFFF

/-! ### Predicates on a device (rule R59) -/

def Blank (s : State) (k : Nat) : Prop := ∀ i : Fin 8, s.devRead k (s.cfg.addrOf (.digit i)) = some 0x00
def PoweredOff (s : State) (k : Nat) : Prop :=
  s.devRead k (s.cfg.addrOf .shutdown) = some (s.cfg.powerOf .shutdownMode)
def DecodeOff (s : State) (k : Nat) : Prop :=
  s.devRead k (s.cfg.addrOf .decodeMode) = some (s.cfg.decodeOf .noDecode)
def ScanFull (s : State) (k : Nat) : Prop := s.devRead k (s.cfg.addrOf .scanLimit) = some (s.cfg.scanOf 7)
def TestOff (s : State) (k : Nat) : Prop :=
  s.devRead k (s.cfg.addrOf .displayTest) = some (s.cfg.testOf .normal)

/-- What a device that latches the pair `(p, v)` holds in register `r` afterwards, `old` being what it held (rule R51). -/
def afterPair (c : Cfg) (p v : Byte) (r : Byte) (old : Option Byte) : Option Byte :=
  if p = 0x00 then old
  else if c.isAddress p then (if r = p then some v else old)
  else none

/-! ### What TRACE says of the devices and of select -/

/-- The chain as an observer of the primitive calls sees it: the devices' registers, and the frame that has been
sent whole since select went low and is not latched yet (`SW` variant only). -/
structure ChainView where
  dev : Memory
  sent : Option (List Byte)
deriving DecidableEq, Repr

/-- One event: in the `HW` variant a good write latches and a bad one leaves everything unknown (rule R124). In the `SW`
variant the rising edge of select latches what was sent whole since it fell, and anything less than that leaves
everything unknown (rules R51, R52, R125). -/
def observe (c : Cfg) (v : ChainView) (e : Event) : ChainView :=
  match c.sel, e with
  | .hw, .tx f .ok => { dev := latchBelow c f v.dev c.n, sent := none }
  | .hw, .tx _ .err => { dev := [], sent := none }
  | .hw, .pl _ => v
  | .hw, .ph _ => v
  | .sw, .pl _ => { dev := v.dev, sent := none }
  | .sw, .tx f .ok => { dev := v.dev, sent := some f }
  | .sw, .tx _ .err => { dev := v.dev, sent := none }
  | .sw, .ph .ok =>
    match v.sent with
    | some f => { dev := latchBelow c f v.dev c.n, sent := none }
    | none => { dev := [], sent := none }
  | .sw, .ph .err => { dev := [], sent := none }

/-- The chain after these events, from devices of which nothing is known. A prefix of `TRACE` gives the chain in the
middle of a command (rules R50, R241). -/
def replay (c : Cfg) (es : List Event) : ChainView := es.foldl (observe c) { dev := [], sent := none }

/-- The select line after one event. -/
def observeSelect (sel : Sel) (l : Level) : Event → Level
  | .tx _ r => levelAfterWrite sel r l
  | .pl r => levelAfterDrive .low r
  | .ph r => levelAfterDrive .high r

/-- The select line after these events, high before the first. -/
def replaySelect (sel : Sel) (es : List Event) : Level := es.foldl (observeSelect sel) .high

/-- Where a `SW` transfer stands (rules R125, R129). -/
inductive Phase
  | between
  | selected
  | written
  | lowFailed
deriving DecidableEq, Repr

/-- The order of events rule R129 asks for; `none` after an event out of order. -/
def phaseAfter (sel : Sel) (p : Option Phase) (e : Event) : Option Phase :=
  match sel, p, e with
  | .hw, some .between, .tx _ _ => some .between
  | .sw, some .between, .pl .ok => some .selected
  | .sw, some .between, .pl .err => some .lowFailed
  | .sw, some .selected, .tx _ _ => some .written
  | .sw, some .written, .ph _ => some .between
  | .sw, some .lowFailed, .ph _ => some .between
  | _, _, _ => none

/-- Where the running frame stands. -/
def Progress.phase : Progress → Phase
  | .idle => .between
  | .frames _ => .between
  | .selected _ => .selected
  | .written _ _ => .written
  | .lowFailed => .lowFailed
  | .ending _ => .between

/-- The frame that has been sent whole and is not latched yet. -/
def State.sentFrame (s : State) : Option (List Byte) :=
  match s.progress with
  | .written .ok _ => some s.frame
  | _ => none

/-- The frames still to be built. -/
def Progress.todo : Progress → List FrameReq
  | .idle => []
  | .frames todo => todo
  | .selected todo => todo
  | .written _ todo => todo
  | .lowFailed => []
  | .ending _ => []

/-- A frame whose device is in the chain (rule R49). -/
def FrameReq.inChain (n : Nat) : FrameReq → Prop
  | .target k _ _ => k < n
  | .all _ _ => True

/-- A call of the running command has failed, so that its completion will set `FAULT`. -/
def Progress.spoiled : Progress → Bool
  | .idle => false
  | .frames _ => false
  | .selected _ => false
  | .written r _ => r == .err
  | .lowFailed => true
  | .ending st => st != .ok

/-! ### Invariants, of every state: between commands and between two calls of one -/

/-- The shape of the state: `CFG` is legal (rule R21), `FB` has its length and is zero above the frame (rule R25), `DEV` is
in canonical form and lists only registers of the closed set of devices of the chain (rules R40, R51), the frames still to
be built name devices of the chain (rule R49), and before the initialization sequence every element has its reset
value (rule R38). -/
structure ShapeInv (s : State) : Prop where
  legal : s.cfg.legal = true
  fbLength : s.fb.length = 2 * s.cfg.nmax
  fbTail : s.fb.drop (2 * s.cfg.n) = List.replicate (2 * s.cfg.nmax - 2 * s.cfg.n) 0
  devCanonical : Memory.wf s.dev
  devInSpace : ∀ a v, (a, v) ∈ s.dev →
    ∃ k r, a = devKey k r ∧ k < s.cfg.n ∧ s.cfg.isAddress r = true ∧ r ≠ 0x00
  todoInChain : ∀ f ∈ s.progress.todo, f.inChain s.cfg.n
  releaseIsReset : s.atRelease = true →
    s = { State.resetOf s.cfg with port := s.port, answers := s.answers, calls := s.calls }

/-- `TRACE` accounts for the rest: its events come in the order of rule R129 and end where the running frame stands, every
frame has `2 * N` bytes (rule R46), and `DEV`, the frame sent and not yet latched, and `CS` are what the events say. -/
structure TraceInv (s : State) : Prop where
  order : s.trace.foldl (phaseAfter s.cfg.sel) (some .between) = some s.progress.phase
  frames : ∀ f r, Event.tx f r ∈ s.trace → f.length = 2 * s.cfg.n
  devices : replay s.cfg s.trace = { dev := s.dev, sent := s.sentFrame }
  select : s.cs = replaySelect s.cfg.sel s.trace

/-- What `FAULT = 0` promises (rule R211): the last status was OK and every primitive call since reset answered `ok`, but for
a failed call of a command that has not completed yet; and a failed initialization is never forgotten (rule R233). -/
structure FaultInv (s : State) : Prop where
  statusOk : s.fault = false → s.status = .ok
  answersOk : s.fault = false → s.progress.spoiled = false → ∀ e ∈ s.trace, e.answer = .ok
  failedFault : s.lc = .failed → s.fault = true

end Sys2Proof.Machine
end

