-- ==== Sys2Proof/Certificates/Slice0/Obligations.lean ====
section
/-! DEFINITION. The statements about the machine, for the provers. Each docstring names the rule it formalises. -/

open Sys2Proof Sys2Proof.Machine

/-! ### Encoding -/

/-- Rules R77, R81: decoding the bytes of a well-formed command gives it back, whatever bytes follow. Every operand at
every value its field can hold. -/
def Obligations.EncodeThenDecodeGivesTheCommand : Prop :=
  ∀ (i : Instr) (rest : List Byte), i.wellFormed = true → decode (encode i ++ rest) = .ok (i, rest)

/-- Rules R77 to R81, the other direction: bytes that decode are the bytes of the command they decode to, so each word has
one meaning, and a decoded command is well-formed. -/
def Obligations.DecodedBytesAreTheEncoding : Prop :=
  ∀ (bytes rest : List Byte) (i : Instr), decode bytes = .ok (i, rest) → i.wellFormed = true ∧ bytes = encode i ++ rest

/-- Rules R29 to R33 and R82: the twenty words of the table of rule R82, one for each command; and every ordinal of the five
enumerations, in words written from the formats of their commands: which names it stands for and which entry of its table of
`CFG` it picks. -/
def Obligations.SpecWordsDecode : Prop :=
  (decodeTableWord 32 0x01004101 = some (.segenc 0x41 true)
    ∧ decodeTableWord 32 0x02004500 = some (.bcdenc 0x45)
    ∧ decodeTableWord 32 0x100103AA = some (.wrraw 1 0x03 0xAA)
    ∧ decodeTableWord 32 0x11000D01 = some (.wrreg 0 .displayTest 0x01)
    ∧ decodeTableWord 32 0x12000A0F = some (.bcraw 0x0A 0x0F)
    ∧ decodeTableWord 32 0x1300027E = some (.draw 2 0x7E)
    ∧ decodeTableWord 32 0x20000000 = some .pwron
    ∧ decodeTableWord 32 0x21000000 = some .pwroff
    ∧ decodeTableWord 32 0x22000100 = some (.setshdn .normalOperation)
    ∧ decodeTableWord 32 0x23010300 = some (.setdec 1 .codeBDigits7_0)
    ∧ decodeTableWord 32 0x24000800 = some (.setint 0 8)
    ∧ decodeTableWord 32 0x25000F00 = some (.setinta 15)
    ∧ decodeTableWord 32 0x26020300 = some (.setscan 2 3)
    ∧ decodeTableWord 32 0x27000100 = some (.settest 0 .testMode)
    ∧ decodeTableWord 32 0x28000000 = some (.settesta .normal)
    ∧ decodeTableWord 32 0x29020000 = some (.clr 2)
    ∧ decodeTableWord 32 0x2A000000 = some .clra
    ∧ decodeTableWord 96 0x800000000102040810204080
        = some (.wrdig8 0 #v[0x01, 0x02, 0x04, 0x08, 0x10, 0x20, 0x40, 0x80])
    ∧ decodeTableWord 96 0x810000003132333435363738
        = some (.wrstr 0 0x00 #v[0x31, 0x32, 0x33, 0x34, 0x35, 0x36, 0x37, 0x38])
    ∧ decodeTableWord 96 0x820100002D31322045356850
        = some (.wrbcd 1 #v[0x2D, 0x31, 0x32, 0x20, 0x45, 0x35, 0x68, 0x50]))
  ∧ (∀ p ∈ [(0x11000000, RegName.noOp), (0x11000100, .digit 0), (0x11000200, .digit 1), (0x11000300, .digit 2),
        (0x11000400, .digit 3), (0x11000500, .digit 4), (0x11000600, .digit 5), (0x11000700, .digit 6),
        (0x11000800, .digit 7), (0x11000900, .decodeMode), (0x11000A00, .intensity), (0x11000B00, .scanLimit),
        (0x11000C00, .shutdown), (0x11000D00, .displayTest)],
      decodeTableWord 32 p.1 = some (.wrreg 0 p.2 0x00))
  ∧ (∀ p ∈ [(0x22000000, Power.shutdownMode), (0x22000100, .normalOperation)],
      decodeTableWord 32 p.1 = some (.setshdn p.2))
  ∧ (∀ p ∈ [(0x23000000, DecodeMode.noDecode), (0x23000100, .codeBDigit0), (0x23000200, .codeBDigits3_0),
        (0x23000300, .codeBDigits7_0)], decodeTableWord 32 p.1 = some (.setdec 0 p.2))
  ∧ (∀ level : Fin 16, decodeTableWord 32 (0x24000000 + 0x100 * level.val) = some (.setint 0 level.val)
      ∧ decodeTableWord 32 (0x25000000 + 0x100 * level.val) = some (.setinta level.val))
  ∧ (∀ limit : Fin 8, decodeTableWord 32 (0x26000000 + 0x100 * limit.val) = some (.setscan 0 limit.val))
  ∧ (∀ p ∈ [(0x27000000, DisplayTest.normal), (0x27000100, .testMode)],
      decodeTableWord 32 p.1 = some (.settest 0 p.2) ∧ decodeTableWord 32 (p.1 + 0x01000000) = some (.settesta p.2))
  ∧ (∀ c : Cfg,
      [c.addrOf .noOp, c.addrOf (.digit 0), c.addrOf (.digit 1), c.addrOf (.digit 2), c.addrOf (.digit 3),
        c.addrOf (.digit 4), c.addrOf (.digit 5), c.addrOf (.digit 6), c.addrOf (.digit 7), c.addrOf .decodeMode,
        c.addrOf .intensity, c.addrOf .scanLimit, c.addrOf .shutdown, c.addrOf .displayTest]
        = (List.finRange 14).map c.regaddr.get
      ∧ c.powerOf .shutdownMode = c.wirePower[0] ∧ c.powerOf .normalOperation = c.wirePower[1]
      ∧ c.decodeOf .noDecode = c.wireDecode[0] ∧ c.decodeOf .codeBDigit0 = c.wireDecode[1]
      ∧ c.decodeOf .codeBDigits3_0 = c.wireDecode[2] ∧ c.decodeOf .codeBDigits7_0 = c.wireDecode[3]
      ∧ (∀ level : Fin 16, c.intensityOf level = c.wireIntensity[level.val])
      ∧ (∀ limit : Fin 8, c.scanOf limit = c.wireScan[limit.val])
      ∧ c.testOf .normal = c.wireTest[0] ∧ c.testOf .testMode = c.wireTest[1])

/-- Rules R77, R81: a word decodes to a command of a row exactly when the word and the row's mask give the row's match, and
for WRREG `a <= 13`. The mask and match columns are the table's numbers. (The extra condition of DRAW is on the instance
and is stated with DRAW.) -/
def Obligations.DecodingIsTheMaskAndMatchTable : Prop :=
  ∀ (c : CmdWord) (m : Mnemonic),
    (∃ i, decodeFields c = .ok i ∧ i.mnemonic = m)
      ↔ headerOf c &&& maskOf m = matchOf m ∧ (m = .WRREG → c.a.toNat ≤ 13)

/-- Rule R79 (a): the opcodes that are not in the table. -/
def Obligations.UnassignedOpcodesAreRejected : Prop :=
  ∀ c : CmdWord,
    (c.op.toNat = 0x00 ∨ (0x03 ≤ c.op.toNat ∧ c.op.toNat ≤ 0x0F) ∨ (0x14 ≤ c.op.toNat ∧ c.op.toNat ≤ 0x1F)
      ∨ (0x2B ≤ c.op.toNat ∧ c.op.toNat ≤ 0x7F) ∨ 0x83 ≤ c.op.toNat)
    → decodeFields c = .error .reservedOpcode

/-! ### Steps -/

/-- Rules R28, R73, R81: when the block is idle and the host's next act is a word that decodes to `i`, the step is `i`
performed with the word's fields in the command latch and the act taken from the port; and the first step of the spec (rule
R9) is the first call or the completion of `i` in the same state. -/
def Obligations.StepRunsTheDecodedCommand : Prop :=
  ∀ (s : State) (bytes rest : List Byte) (acts : List HostAct) (c : CmdWord) (i : Instr),
    s.cfg.legal = true → s.busy = false → s.port = .word bytes :: acts
    → takeWord bytes = some (c, rest) → decodeFields c = .ok i
    → step s = exec i { s with port := acts, cmd := c } ∧ callStep s = start i { s with port := acts, cmd := c }

/-- Rule R203: in a block that is READY a word that decoding finds no legal command, whatever makes it illegal, ends in
ILLEGAL_CMD; nothing is sent, and `FB`, `RES`, `TRACE` and `DEV` are unchanged. So does DRAW where `N` is not 1. -/
def Obligations.IllegalCommandsAreRefused : Prop :=
  (∀ (s : State) (bytes rest : List Byte) (acts : List HostAct) (c : CmdWord) (e : Reject),
    s.cfg.legal = true → s.busy = false → s.lc = .ready → s.port = .word bytes :: acts
    → takeWord bytes = some (c, rest) → decodeFields c = .error e
    → step s = .next { s with port := acts, cmd := c, status := .illegalCmd, fault := true })
  ∧ (∀ (s : State) (digit : Nat) (data : Byte), s.lc = .ready → s.cfg.n ≠ 1
      → exec (.draw digit data) s = .next { s with status := .illegalCmd, fault := true })

/-- Rule R207, the order of the tests: NOT_READY before ILLEGAL_CMD but for an encoder's opcode, ILLEGAL_CMD before
RANGE_ERR. That a command term with an operand no word can carry is answered ILLEGAL_CMD too is the model's (log 16). -/
def Obligations.TestsComeInOrder : Prop :=
  (∀ (s : State) (bytes rest : List Byte) (acts : List HostAct) (c : CmdWord) (e : Reject),
    s.cfg.legal = true → s.busy = false → s.lc = .failed → s.port = .word bytes :: acts
    → takeWord bytes = some (c, rest) → decodeFields c = .error e
    → step s = .next { s with
        port := acts, cmd := c, fault := true
        status := if c.op = 0x01 ∨ c.op = 0x02 then .illegalCmd else .notReady })
  ∧ (∀ (s : State) (i : Instr), isEncoder i = false → s.lc = .failed
      → exec i s = .next { s with status := .notReady, fault := true })
  ∧ (∀ (s : State) (i : Instr), isEncoder i = false → s.lc = .ready → legalFor s.cfg.n i = false
      → exec i s = .next { s with status := .illegalCmd, fault := true })
  ∧ (∀ (s : State) (i : Instr) (k : Byte), s.lc = .ready → legalFor s.cfg.n i = true
      → deviceOf i = some k → s.cfg.n ≤ k.toNat
      → exec i s = .next { s with status := .rangeErr, fault := true })

/-- Rules R230, R231, R38: a reset gives every element of the block its reset value and calls no primitive, wherever it cuts
what was running (rule R246); the next step is the initialization sequence, nothing else starts that sequence, and nothing
but reset clears `FAULT` or leaves FAILED. That the device registers read as unknown and select as high after a reset is the
model's reading of the table of rule R38 (log 11, log 9). -/
def Obligations.ResetAndOnlyResetRestarts : Prop :=
  (∀ s : State, resetRelease s = {
        cfg := s.cfg, lc := .init, status := .ok, fault := false, fb := List.replicate (2 * s.cfg.nmax) 0x00,
        cmd := { op := 0, dev := 0, a := 0, b := 0, buf := Vector.replicate 8 0 }, res := 0x00, trace := [],
        cs := .high, dev := [], progress := .idle, port := s.port, answers := s.answers, calls := s.calls })
  ∧ (∀ (s : State) (acts : List HostAct), s.cfg.legal = true → s.busy = false → s.port = .reset :: acts
    → step s = .next (resetRelease { s with port := acts }) ∧ callStep s = step s)
  ∧ (∀ s : State, s.cfg.legal = true → s.lc = .init → s.progress = .idle → (s.cfg.sel = .sw → s.cs = .high)
    → step s = .next (boot s))
  ∧ (∀ s t : State, step s = .next t → t.lc = .init → s.busy = false ∧ ∃ acts, s.port = .reset :: acts)
  ∧ (∀ s t : State, callStep s = .next t → t.lc = .init → s.lc ≠ .init → s.busy = false ∧ ∃ acts, s.port = .reset :: acts)
  ∧ (∀ s t : State, step s = .next t ∨ callStep s = .next t → s.busy = true ∨ (∀ acts, s.port ≠ .reset :: acts) →
      (s.fault = true → t.fault = true) ∧ (s.lc = .failed → t.lc = .failed))

/-- Rule R28: `BUSY` is 1 while `LC = INIT` and while a command is running, and a word presented then is not accepted and is
not queued, at either grain of step. -/
def Obligations.WordWhileBusyHasNoEffect : Prop :=
  (∀ s : State, s.busy = true ↔ s.lc = .init ∨ s.progress ≠ .idle)
  ∧ (∀ (s : State) (bytes : List Byte), s.busy = true → present exec bytes s = .next s ∧ present start bytes s = .next s)
  ∧ (∀ s t : State, step s = .next t ∨ callStep s = .next t → s.busy = true → t.port = s.port)

/-- Rule R21: the step refuses exactly the configurations that break one of its parts. -/
def Obligations.IllegalConfigurationIsRefused : Prop :=
  ∀ s : State, (step s = .refused .illegalConfig ↔ callStep s = .refused .illegalConfig)
    ∧ (step s = .refused .illegalConfig ↔
    ¬ (1 ≤ s.cfg.n ∧ s.cfg.n ≤ s.cfg.nmax ∧ s.cfg.nmax ≤ 255
      ∧ s.cfg.addrOf .noOp = 0x00 ∧ (∀ i : Fin 8, s.cfg.addrOf (.digit i) = BitVec.ofNat 8 (i.val + 1))
      ∧ (∀ r : RegName, (s.cfg.addrOf r).toNat ≤ 0x0F)
      ∧ (∀ r r' : RegName, s.cfg.addrOf r = s.cfg.addrOf r' → r = r')
      ∧ (∀ k : GlyphKey, (s.cfg.segOf k).getLsbD 7 = false)
      ∧ (∀ k : BcdKey, (s.cfg.bcdOf k).getLsbD 7 = false)))

/-- The block never hangs (rule R210, "complete cannot fail"): with a legal configuration every step, at either grain, gives
a next state, but for one case: an `SW` instance whose select line is not high at reset release gets no step (rule R237, U9;
log 8). And the level of description of rule R9: a step of a busy block is one primitive call, which `TRACE` gains while
`BUSY` stays 1 and nothing the host reads changes, or the completion, which calls nothing; the first step of a command is
its first call, or its completion where it calls nothing; and the step of the machine is a run of such steps, the block busy
at every state between two of them (rule R54). -/
def Obligations.LegalConfigurationsStep : Prop :=
  (∀ s : State, s.cfg.legal = true →
    ((s.lc = .init → s.progress = .idle → s.cfg.sel = .sw → s.cs = .high) →
      (∃ t, step s = .next t) ∧ ∃ t, callStep s = .next t)
    ∧ (s.lc = .init → s.progress = .idle → s.cfg.sel = .sw → s.cs ≠ .high →
      step s = .refused .selectNotHighAtRelease ∧ callStep s = .refused .selectNotHighAtRelease))
  ∧ (∀ s t : State, callStep s = .next t → s.busy = true →
      (∃ e, t.trace = s.trace ++ [e] ∧ t.busy = true ∧ t.hostView = s.hostView ∧ t.cmd = s.cmd ∧ t.cfg = s.cfg)
      ∨ (t.busy = false ∧ t = { s with
          lc := t.lc, status := t.status, fault := s.fault || t.status != .ok, progress := .idle }))
  ∧ (∀ (i : Instr) (s t : State), s.busy = false → start i s = .next t →
      (exec i s = .next t ∧ t.busy = false ∧ t = { s with
          res := t.res, status := t.status, fault := s.fault || t.status != .ok })
      ∨ (∃ e, t.trace = s.trace ++ [e] ∧ t.busy = true ∧ t.status = s.status ∧ t.fault = s.fault ∧ t.res = s.res
          ∧ t.lc = s.lc))
  ∧ (∀ s : State, ∃ n, callRun (n + 1) s = step s
      ∧ ∀ m, m < n → ∃ u, callRun (m + 1) s = .next u ∧ u.busy = true)

/-- Rule R210: the reference host presents the words of its list in order, one after each completion: a word is performed by
a step, the run goes on with the rest of the list when it completes with OK and ends right there when it does not, leaving
the rest unpresented. It waits for the end of the initialization sequence and presents its first word whatever the sequence
ended in. -/
def Obligations.ReferenceHostStopsAtTheFirstError : Prop :=
  (∀ (s : State) (k : Nat), s.cfg.legal = true → s.busy = false → s.port = [] → referenceRun k s = .next s)
  ∧ (∀ (s : State) (k : Nat) (bytes : List Byte) (acts : List HostAct), s.cfg.legal = true → s.busy = false
      → s.port = .word bytes :: acts → (takeWord bytes).isSome = true →
      ∃ u, step s = .next u ∧ u.port = acts ∧ u.busy = false
        ∧ (u.status = .ok → referenceRun (k + 1) s = referenceRun k u)
        ∧ (u.status ≠ .ok → referenceRun (k + 1) s = .next u))
  ∧ (∀ (s u : State) (k : Nat), s.lc = .init → step s = .next u →
      u.port = s.port ∧ referenceRun (k + 1) s = referenceRun k u)
  ∧ (∀ (s u : State) (k : Nat), s.busy = true → s.lc ≠ .init → step s = .next u →
      u.port = s.port ∧ referenceRun (k + 1) s = if u.status = .ok then referenceRun k u else .next u)
  ∧ (∀ (s : State) (k : Nat), s.cfg.legal = true → s.busy = false → (∀ a ∈ s.port, ∃ bytes, a = .word bytes)
      → s.port.length ≤ k →
      ∃ t, referenceRun k s = .next t ∧ (t.status = .ok → t.port = []) ∧ ∃ presented, s.port = presented ++ t.port)

/-! ### The encoders -/

/-- Rule R105: SEGENC in every state. -/
def Obligations.SegencWritesTheSegmentCode : Prop :=
  ∀ (s : State) (ch : Byte) (dot : Bool),
    exec (.segenc ch dot) s = .next { s with
      status := .ok
      res := (match glyphKey ch with
              | none => 0xE5
              | some key => s.cfg.segOf key) ||| (if dot = true then 0x80 else 0x00) }

/-- Rule R110: BCDENC in every state. -/
def Obligations.BcdencWritesTheBcdCode : Prop :=
  ∀ (s : State) (ch : Byte),
    exec (.bcdenc ch) s = .next { s with
      status := .ok
      res :=
        if ch = 0x20 then s.cfg.bcdOf .blank
        else if ch = 0x2D then s.cfg.bcdOf .dash
        else if ch = 0x65 then s.cfg.bcdOf .e else if ch = 0x45 then s.cfg.bcdOf .e ||| 0x80
        else if ch = 0x68 then s.cfg.bcdOf .h else if ch = 0x48 then s.cfg.bcdOf .h ||| 0x80
        else if ch = 0x6C then s.cfg.bcdOf .l else if ch = 0x4C then s.cfg.bcdOf .l ||| 0x80
        else if ch = 0x70 then s.cfg.bcdOf .p else if ch = 0x50 then s.cfg.bcdOf .p ||| 0x80
        else ch }

/-- Rule R101: the glyph key of every byte: space, dash, underscore, the ten digits, each letter in both cases, and of no
other byte. -/
def Obligations.GlyphKeysOfTheAlphabet : Prop :=
  glyphKey 0x20 = some .space ∧ glyphKey 0x2D = some .dash ∧ glyphKey 0x5F = some .underscore
  ∧ (∀ d : Fin 10, glyphKey (BitVec.ofNat 8 (0x30 + d.val)) = some (.digit d))
  ∧ (∀ p ∈ [(0x41#8, Letter.a), (0x42, .b), (0x43, .c), (0x44, .d), (0x45, .e), (0x46, .f), (0x47, .g), (0x48, .h),
        (0x49, .i), (0x4A, .j), (0x4C, .l), (0x4E, .n), (0x4F, .o), (0x50, .p), (0x51, .q), (0x53, .s), (0x55, .u)],
      glyphKey p.1 = some (.letter p.2) ∧ glyphKey (p.1 + 0x20) = some (.letter p.2))
  ∧ (∀ ch : Byte, (glyphKey ch).isSome = true →
      ch = 0x20 ∨ ch = 0x2D ∨ ch = 0x5F ∨ (0x30#8 ≤ ch ∧ ch ≤ 0x39#8)
        ∨ ∃ code ∈ [0x41#8, 0x42, 0x43, 0x44, 0x45, 0x46, 0x47, 0x48, 0x49, 0x4A, 0x4C, 0x4E, 0x4F, 0x50, 0x51, 0x53, 0x55],
            ch = code ∨ ch = code + 0x20)

/-- Rule R106, all five laws of the segment encoder. -/
def Obligations.SegmentEncoderLaws : Prop :=
  (∀ (c c' : Cfg) (ch : Byte) (dot : Bool), c.seg = c'.seg → segmentEncode c ch dot = segmentEncode c' ch dot)
  ∧ (∀ (c : Cfg) (ch : Byte) (dot : Bool), glyphKey ch = none → segmentEncode c ch dot = 0b11100101)
  ∧ (∀ (c : Cfg) (ch : Byte), segmentEncode c ch true = segmentEncode c ch false ||| 0b10000000)
  ∧ (∀ (c : Cfg) (ch : Byte), c.legal = true → (glyphKey ch).isSome = true →
      (segmentEncode c ch false).getLsbD 7 = false ∧ (segmentEncode c ch true).getLsbD 7 = true)
  ∧ (∀ (c : Cfg) (ch : Byte) (dot : Bool), glyphKey ch = none → (segmentEncode c ch dot).getLsbD 7 = true)
  ∧ (∀ (c : Cfg) (ch : Byte) (dot : Bool), 0x41#8 ≤ ch → ch ≤ 0x5A#8 →
      segmentEncode c ch dot = segmentEncode c (ch + 0x20) dot)

/-- Rules R108, R111: case carries the point for the four letters, and any byte but the ten passes through unchanged. -/
def Obligations.BcdCaseAndPassThrough : Prop :=
  (∀ (c : Cfg) (ch : Byte), ch ∈ [0x65#8, 0x68#8, 0x6C#8, 0x70#8] →
    bcdEncode c (ch - 0x20) = bcdEncode c ch ||| 0x80
      ∧ (c.legal = true → (bcdEncode c ch).getLsbD 7 = false))
  ∧ (∀ (c : Cfg) (ch : Byte),
      ch ∉ [0x20#8, 0x2D#8, 0x65#8, 0x45#8, 0x68#8, 0x48#8, 0x6C#8, 0x4C#8, 0x70#8, 0x50#8] → bcdEncode c ch = ch)

/-! ### Frames and transfers -/

/-- Rule R123: what building leaves in `FB`, for every device of the chain and whatever `FB` held before. -/
def Obligations.BuildingAFrame : Prop :=
  (∀ (n k : Nat) (r d : Byte) (fb : List Byte), k < n →
    ((buildTarget n k r d fb).take (2 * n)).length = 2 * n
    ∧ (∀ i, i < n →
        (buildTarget n k r d fb)[2 * i]? = some (if i = k then r else 0x00)
        ∧ (buildTarget n k r d fb)[2 * i + 1]? = some (if i = k then d else 0x00))
    ∧ (buildTarget n k r d fb).drop (2 * n) = fb.drop (2 * n))
  ∧ (∀ (n : Nat) (r d : Byte) (fb : List Byte),
    ((buildAll n r d fb).take (2 * n)).length = 2 * n
    ∧ (∀ i, i < n → (buildAll n r d fb)[2 * i]? = some r ∧ (buildAll n r d fb)[2 * i + 1]? = some d)
    ∧ (buildAll n r d fb).drop (2 * n) = fb.drop (2 * n))
  ∧ (∀ (r d : Byte) (fb : List Byte), buildTarget 1 0 r d fb = buildAll 1 r d fb)

/-- Rule R47: the bit stream of a frame: byte after byte, most significant bit first. -/
def Obligations.WireBitsAreMsbFirst : Prop :=
  ∀ f : List Byte, (wireBits f).length = 8 * f.length
    ∧ ∀ i j, i < f.length → j < 8 → (wireBits f)[8 * i + j]? = some ((f.getD i 0).getLsbD (7 - j))

/-- Rule R124: one transfer of a hardware-select instance, for both answers. That select is high after `ok` and not known
after `err` is the model's (log 10). -/
def Obligations.HardwareSelectTransfer : Prop :=
  ∀ s : State, s.cfg.sel = .hw →
    (s.upcoming 0 = .ok → transfer s = (.ok, { s with
      trace := s.trace ++ [.tx (s.fb.take (2 * s.cfg.n)) .ok], cs := .high
      dev := latchBelow s.cfg (s.fb.take (2 * s.cfg.n)) s.dev s.cfg.n
      answers := s.answers.drop 1, calls := s.calls + 1 }))
    ∧ (s.upcoming 0 = .err → transfer s = (.transportErr, { s with
      trace := s.trace ++ [.tx (s.fb.take (2 * s.cfg.n)) .err], cs := .unknown, dev := []
      answers := s.answers.drop 1, calls := s.calls + 1 }))

/-- Rules R125, R126, R208: one transfer of a software-select instance, for all six combinations of answers. -/
def Obligations.SoftwareSelectTransfer : Prop :=
  ∀ s : State, s.cfg.sel = .sw →
    (s.upcoming 0 = .ok → transfer s =
      (if s.upcoming 2 = .err then .pinErr else if s.upcoming 1 = .err then .transportErr else .ok, { s with
      trace := s.trace ++ [.pl .ok, .tx (s.fb.take (2 * s.cfg.n)) (s.upcoming 1), .ph (s.upcoming 2)]
      cs := if s.upcoming 2 = .ok then .high else .unknown
      dev := if s.upcoming 1 = .ok ∧ s.upcoming 2 = .ok then latchBelow s.cfg (s.fb.take (2 * s.cfg.n)) s.dev s.cfg.n else []
      answers := s.answers.drop 3, calls := s.calls + 3 }))
    ∧ (s.upcoming 0 = .err → transfer s = (.pinErr, { s with
      trace := s.trace ++ [.pl .err, .ph (s.upcoming 1)]
      cs := if s.upcoming 1 = .ok then .high else .unknown
      dev := []
      answers := s.answers.drop 2, calls := s.calls + 2 }))

/-- Rule R51: a latched frame. Every device of the chain has latched its own pair: (a) NoOp changes nothing, (b) a register
of the closed set is stored, (c) any other register byte leaves the device unknown; and nothing else changes. -/
def Obligations.LatchStoresEveryPair : Prop :=
  ∀ (f : List Byte) (s : State) (k : Nat) (r : Byte),
    (latch f s).devRead k r =
      (if k < s.cfg.n then
        (if f.getD (2 * k) 0 = 0x00 then s.devRead k r
        else if s.cfg.isAddress (f.getD (2 * k) 0) = true then
          (if r = f.getD (2 * k) 0 then some (f.getD (2 * k + 1) 0) else s.devRead k r)
        else none)
      else s.devRead k r)
    ∧ latch f s = { s with dev := (latch f s).dev }

/-- Rule R52: after a frame whose transfer did not succeed in every part, every register of every device is unknown. -/
def Obligations.FailedTransferLeavesDevicesUnknown : Prop :=
  ∀ (s : State) (k : Nat) (r : Byte), (transfer s).1 ≠ .ok → (transfer s).2.devRead k r = none

/-! ### The commands that send one frame -/

/-- Rule R136 (and R132): WRRAW with every answer `ok`, for every device of the chain and every register and data byte.
Nothing but what `afterFrames` names changes. -/
def Obligations.WrrawSendsItsPair : Prop :=
  ∀ (s : State) (k reg data : Byte), s.lc = .ready → k.toNat < s.cfg.n → AnswersOk s (callsPerFrame s.cfg.sel) →
    exec (.wrraw k reg data) s = .next (afterFrames s [pairFrame s.cfg.n k.toNat reg data])
    ∧ (pairFrame s.cfg.n k.toNat reg data).length = 2 * s.cfg.n
    ∧ ∀ j, j < 2 * s.cfg.n → (pairFrame s.cfg.n k.toNat reg data).getD j 0xFF
        = if j = 2 * k.toNat then reg else if j = 2 * k.toNat + 1 then data else 0x00

/-- Rule R133: WRREG sends the address of the named register and the data byte as given. -/
def Obligations.WrregSendsTheNamedRegister : Prop :=
  ∀ (s : State) (k : Byte) (name : RegName) (data : Byte),
    s.lc = .ready → k.toNat < s.cfg.n → AnswersOk s (callsPerFrame s.cfg.sel) →
    exec (.wrreg k name data) s = .next (afterFrames s [pairFrame s.cfg.n k.toNat (s.cfg.addrOf name) data])

/-- Rule R134: BCRAW sends one frame whose every pair is the given one. -/
def Obligations.BcrawSendsThePairToEveryDevice : Prop :=
  ∀ (s : State) (reg data : Byte), s.lc = .ready → AnswersOk s (callsPerFrame s.cfg.sel) →
    exec (.bcraw reg data) s = .next (afterFrames s [everyFrame s.cfg.n reg data])

/-- Rule R135: DRAW in a chain of one device sends the two bytes (register `digit + 1`, data). -/
def Obligations.DrawWritesOneDigit : Prop :=
  ∀ (s : State) (digit : Nat) (data : Byte),
    s.cfg.legal = true → s.lc = .ready → s.cfg.n = 1 → digit < 8 → AnswersOk s (callsPerFrame s.cfg.sel) →
    exec (.draw digit data) s = .next (afterFrames s [[BitVec.ofNat 8 (digit + 1), data]])

/-- Rules R151, R152, R153: the three power commands are one broadcast frame to Shutdown, and SETSHDN with NormalOperation or
ShutdownMode is PWRON or PWROFF. -/
def Obligations.PowerCommandsBroadcastToShutdown : Prop :=
  ∀ s : State, s.lc = .ready → AnswersOk s (callsPerFrame s.cfg.sel) →
    exec .pwron s = .next (afterFrames s [everyFrame s.cfg.n (s.cfg.addrOf .shutdown) (s.cfg.powerOf .normalOperation)])
    ∧ exec .pwroff s = .next (afterFrames s [everyFrame s.cfg.n (s.cfg.addrOf .shutdown) (s.cfg.powerOf .shutdownMode)])
    ∧ (∀ mode, exec (.setshdn mode) s
        = .next (afterFrames s [everyFrame s.cfg.n (s.cfg.addrOf .shutdown) (s.cfg.powerOf mode)]))

/-- Rules R154, R155, R157, R158: the typed writes to one device, for every member of each enumeration. -/
def Obligations.TypedWritesToOneDevice : Prop :=
  ∀ (s : State) (k : Byte), s.lc = .ready → k.toNat < s.cfg.n → AnswersOk s (callsPerFrame s.cfg.sel) →
    (∀ mode, exec (.setdec k mode) s
      = .next (afterFrames s [pairFrame s.cfg.n k.toNat (s.cfg.addrOf .decodeMode) (s.cfg.decodeOf mode)]))
    ∧ (∀ level : Fin 16, exec (.setint k level.val) s
      = .next (afterFrames s [pairFrame s.cfg.n k.toNat (s.cfg.addrOf .intensity) (s.cfg.intensityOf level)]))
    ∧ (∀ limit : Fin 8, exec (.setscan k limit.val) s
      = .next (afterFrames s [pairFrame s.cfg.n k.toNat (s.cfg.addrOf .scanLimit) (s.cfg.scanOf limit)]))
    ∧ (∀ mode, exec (.settest k mode) s
      = .next (afterFrames s [pairFrame s.cfg.n k.toNat (s.cfg.addrOf .displayTest) (s.cfg.testOf mode)]))

/-- Rules R156, R159: the typed writes to every device are one broadcast frame. -/
def Obligations.TypedWritesToEveryDevice : Prop :=
  ∀ s : State, s.lc = .ready → AnswersOk s (callsPerFrame s.cfg.sel) →
    (∀ level : Fin 16, exec (.setinta level.val) s
      = .next (afterFrames s [everyFrame s.cfg.n (s.cfg.addrOf .intensity) (s.cfg.intensityOf level)]))
    ∧ (∀ mode, exec (.settesta mode) s
      = .next (afterFrames s [everyFrame s.cfg.n (s.cfg.addrOf .displayTest) (s.cfg.testOf mode)]))

/-! ### The commands that send several frames -/

/-- Rules R160, R161: CLR and CLRA send eight frames with data 0x00, registers 1 to 8 upward, targeted or broadcast. -/
def Obligations.ClearingSendsEightFrames : Prop :=
  ∀ s : State, s.cfg.legal = true → s.lc = .ready → AnswersOk s (8 * callsPerFrame s.cfg.sel) →
    (∀ k : Byte, k.toNat < s.cfg.n → exec (.clr k) s
      = .next (afterFrames s ([1, 2, 3, 4, 5, 6, 7, 8].map (fun r => pairFrame s.cfg.n k.toNat r 0x00))))
    ∧ exec .clra s = .next (afterFrames s ([1, 2, 3, 4, 5, 6, 7, 8].map (fun r => everyFrame s.cfg.n r 0x00)))

/-- Rule R162: WRDIG8 writes `buf[i]` to register `i + 1`, upward. -/
def Obligations.Wrdig8WritesUpward : Prop :=
  ∀ (s : State) (k : Byte) (buf : Payload),
    s.cfg.legal = true → s.lc = .ready → k.toNat < s.cfg.n → AnswersOk s (8 * callsPerFrame s.cfg.sel) →
    exec (.wrdig8 k buf) s
      = .next (afterFrames s
          [pairFrame s.cfg.n k.toNat 1 buf[0], pairFrame s.cfg.n k.toNat 2 buf[1], pairFrame s.cfg.n k.toNat 3 buf[2],
           pairFrame s.cfg.n k.toNat 4 buf[3], pairFrame s.cfg.n k.toNat 5 buf[4], pairFrame s.cfg.n k.toNat 6 buf[5],
           pairFrame s.cfg.n k.toNat 7 buf[6], pairFrame s.cfg.n k.toNat 8 buf[7]])

/-- Rule R163: WRSTR sends NoDecode to the same device, then `buf[j]` through the segment encoder, with bit `7 - j` of
`dots`, to register `8 - j`, in array order. -/
def Obligations.WrstrWritesTheString : Prop :=
  ∀ (s : State) (k dots : Byte) (buf : Payload),
    s.cfg.legal = true → s.lc = .ready → k.toNat < s.cfg.n → AnswersOk s (9 * callsPerFrame s.cfg.sel) →
    exec (.wrstr k dots buf) s
      = .next (afterFrames s
          (pairFrame s.cfg.n k.toNat (s.cfg.addrOf .decodeMode) (s.cfg.decodeOf .noDecode)
            :: (List.finRange 8).map (fun j => pairFrame s.cfg.n k.toNat (BitVec.ofNat 8 (8 - j.val))
                (segmentEncode s.cfg buf[j.val] (dots.getLsbD (7 - j.val))))))

/-- Rule R164: WRBCD sends CodeBDigits7_0 to the same device, then `buf[j]` through the BCD encoder to register `8 - j`, in
array order. -/
def Obligations.WrbcdWritesTheString : Prop :=
  ∀ (s : State) (k : Byte) (buf : Payload),
    s.cfg.legal = true → s.lc = .ready → k.toNat < s.cfg.n → AnswersOk s (9 * callsPerFrame s.cfg.sel) →
    exec (.wrbcd k buf) s
      = .next (afterFrames s
          (pairFrame s.cfg.n k.toNat (s.cfg.addrOf .decodeMode) (s.cfg.decodeOf .codeBDigits7_0)
            :: (List.finRange 8).map (fun j => pairFrame s.cfg.n k.toNat (BitVec.ofNat 8 (8 - j.val))
                (bcdEncode s.cfg buf[j.val]))))

/-- Rules R165, R127, R209: a command stops at its first failing frame. The frames before it were transferred whole; of the
failing frame the trace has the events of one failed transfer; nothing after it is built or sent; the devices are unknown;
the status is that of the failing frame. For every command that sends frames, at every frame, for every way a transfer
fails. -/
def Obligations.CommandStopsAtItsFirstFailingFrame : Prop :=
  ∀ (i : Instr) (s : State) (m : Nat) (f : List Byte) (es : List Event) (st : Status),
    s.cfg.legal = true → Performed i s → (commandFrames s.cfg i)[m]? = some f
    → AnswersOk s (m * callsPerFrame s.cfg.sel) → (es, st) ∈ failRows s.cfg.sel f
    → AnswersFrom s (m * callsPerFrame s.cfg.sel) es
    → ∃ t, exec i s = .next t
      ∧ t.trace = s.trace ++ ((commandFrames s.cfg i).take m).flatMap (goodEvents s.cfg.sel) ++ es
      ∧ t.status = st ∧ t.fault = true ∧ t.dev = [] ∧ t.fb.take (2 * s.cfg.n) = f
      ∧ t.res = s.res ∧ t.lc = s.lc ∧ t.cmd = s.cmd ∧ t.port = s.port ∧ t.progress = s.progress ∧ t.cfg = s.cfg

/-! ### What the devices hold afterwards -/

/-- The frame of a store, and rules R51, R132 to R135, R154, R155, R157, R158: after a command that sends one targeted frame
and ends in OK, with a register of the closed set that is not NoOp, the location `DEV[k][register]` holds the data byte and
every other location reads as before. -/
def Obligations.TargetedWriteChangesOneLocation : Prop :=
  ∀ (s t : State) (i : Instr) (k : Nat) (reg data : Byte),
    s.lc = .ready → exec i s = .next t → t.status = .ok
    → reg ≠ 0x00 → s.cfg.isAddress reg = true
    → ((∃ kb : Byte, k = kb.toNat ∧
        (i = .wrraw kb reg data
          ∨ (∃ name, i = .wrreg kb name data ∧ reg = s.cfg.addrOf name)
          ∨ (∃ mode, i = .setdec kb mode ∧ reg = s.cfg.addrOf .decodeMode ∧ data = s.cfg.decodeOf mode)
          ∨ (∃ level : Fin 16, i = .setint kb level.val ∧ reg = s.cfg.addrOf .intensity ∧ data = s.cfg.intensityOf level)
          ∨ (∃ limit : Fin 8, i = .setscan kb limit.val ∧ reg = s.cfg.addrOf .scanLimit ∧ data = s.cfg.scanOf limit)
          ∨ (∃ mode, i = .settest kb mode ∧ reg = s.cfg.addrOf .displayTest ∧ data = s.cfg.testOf mode)))
        ∨ (k = 0 ∧ ∃ digit : Fin 8, i = .draw digit.val data ∧ reg = s.cfg.addrOf (.digit digit)))
    → Memory.read t.dev (devKey k reg) = some data
      ∧ ∀ a, a ≠ devKey k reg → Memory.read t.dev a = Memory.read s.dev a

/-- Rules R51, R132, R134: a raw write that ends in OK, register byte unchecked. WRRAW touches device `k` alone, BCRAW every
device of the chain: NoOp changes nothing, a register of the closed set is stored, any other register byte leaves the device
unknown. -/
def Obligations.RawWritesReachTheirDevices : Prop :=
  ∀ (s t : State) (reg data : Byte), s.lc = .ready →
    (∀ k : Byte, exec (.wrraw k reg data) s = .next t → t.status = .ok → ∀ d r,
      t.devRead d r = if d = k.toNat then afterPair s.cfg reg data r (s.devRead d r) else s.devRead d r)
    ∧ (exec (.bcraw reg data) s = .next t → t.status = .ok → ∀ d r,
      t.devRead d r = if d < s.cfg.n then afterPair s.cfg reg data r (s.devRead d r) else s.devRead d r)

/-- The frame of the broadcasts, rules R151 to R153, R156, R159: the named register of every device of the chain holds the
data byte, and every other location reads as before. -/
def Obligations.TypedBroadcastsReachEveryDevice : Prop :=
  ∀ (s t : State) (i : Instr) (name : RegName) (data : Byte),
    s.cfg.legal = true → s.lc = .ready → exec i s = .next t → t.status = .ok
    → (i = .pwron ∧ name = .shutdown ∧ data = s.cfg.powerOf .normalOperation
        ∨ i = .pwroff ∧ name = .shutdown ∧ data = s.cfg.powerOf .shutdownMode
        ∨ (∃ mode, i = .setshdn mode ∧ name = .shutdown ∧ data = s.cfg.powerOf mode)
        ∨ (∃ level : Fin 16, i = .setinta level.val ∧ name = .intensity ∧ data = s.cfg.intensityOf level)
        ∨ (∃ mode, i = .settesta mode ∧ name = .displayTest ∧ data = s.cfg.testOf mode))
    → (∀ k, k < s.cfg.n → t.devRead k (s.cfg.addrOf name) = some data)
      ∧ ∀ a, (∀ k, k < s.cfg.n → a ≠ devKey k (s.cfg.addrOf name)) → Memory.read t.dev a = Memory.read s.dev a

/-- Rules R160, R161: after CLR ends in OK device `k` is blank and no other location has changed; after CLRA every device
is. -/
def Obligations.ClearingBlanks : Prop :=
  ∀ s t : State, s.cfg.legal = true → s.lc = .ready → t.status = .ok →
    (∀ k : Byte, exec (.clr k) s = .next t →
      Blank t k.toNat
      ∧ ∀ a, (∀ i : Fin 8, a ≠ devKey k.toNat (s.cfg.addrOf (.digit i))) → Memory.read t.dev a = Memory.read s.dev a)
    ∧ (exec .clra s = .next t →
      (∀ k, k < s.cfg.n → Blank t k)
      ∧ ∀ a, (∀ k, k < s.cfg.n → ∀ i : Fin 8, a ≠ devKey k (s.cfg.addrOf (.digit i)))
        → Memory.read t.dev a = Memory.read s.dev a)

/-- Rules R162 to R164, R166, R167: what the three commands with a payload leave in device `k` when they end in OK, and that
no other location changes. WRSTR leaves NoDecode and WRBCD CodeBDigits7_0; neither puts the old mode back. -/
def Obligations.PayloadCommandsFillTheirDevice : Prop :=
  ∀ (s t : State) (k : Byte) (buf : Payload), s.cfg.legal = true → s.lc = .ready → t.status = .ok →
    (exec (.wrdig8 k buf) s = .next t →
      (∀ i : Fin 8, t.devRead k.toNat (s.cfg.addrOf (.digit i)) = some (buf.get i))
      ∧ ∀ a, (∀ i : Fin 8, a ≠ devKey k.toNat (s.cfg.addrOf (.digit i))) → Memory.read t.dev a = Memory.read s.dev a)
    ∧ (∀ dots, exec (.wrstr k dots buf) s = .next t →
      DecodeOff t k.toNat
      ∧ (∀ j : Fin 8, t.devRead k.toNat (BitVec.ofNat 8 (8 - j.val))
          = some (segmentEncode s.cfg (buf.get j) (dots.getLsbD (7 - j.val))))
      ∧ ∀ a, a ≠ devKey k.toNat (s.cfg.addrOf .decodeMode) → (∀ i : Fin 8, a ≠ devKey k.toNat (s.cfg.addrOf (.digit i)))
        → Memory.read t.dev a = Memory.read s.dev a)
    ∧ (exec (.wrbcd k buf) s = .next t →
      t.devRead k.toNat (s.cfg.addrOf .decodeMode) = some (s.cfg.decodeOf .codeBDigits7_0)
      ∧ (∀ j : Fin 8, t.devRead k.toNat (BitVec.ofNat 8 (8 - j.val)) = some (bcdEncode s.cfg (buf.get j)))
      ∧ ∀ a, a ≠ devKey k.toNat (s.cfg.addrOf .decodeMode) → (∀ i : Fin 8, a ≠ devKey k.toNat (s.cfg.addrOf (.digit i)))
        → Memory.read t.dev a = Memory.read s.dev a)

/-- Rule R168, all four parts, for every legal configuration, device and answer `ok`: (a), (b) the document's two string
examples, whatever `SEG` holds: after WRSTR "12345678" without dots the registers 1 to 8 hold the patterns of 8 down to 1,
none with bit 7 set; after WRSTR "ABCDEFGH" with dots 0b1000_0000 register 8 alone, which holds A, has bit 7 set; (c) the
frames CLR and CLRA send name the registers 1 to 8, each exactly once, with data 0x00; (d) of the frames WRSTR sends, for
every string and dots, exactly one names register `8 - j`, and its data byte is the segment code of `buf[j]` with dot
`dots[7 - j]`. -/
def Obligations.StringExamplesOfTheDocument : Prop :=
  ∀ (s : State) (k : Byte), s.cfg.legal = true → s.lc = .ready → k.toNat < s.cfg.n
    → AnswersOk s (9 * callsPerFrame s.cfg.sel) →
    (∃ t, exec (.wrstr k 0b0000_0000 #v[0x31, 0x32, 0x33, 0x34, 0x35, 0x36, 0x37, 0x38]) s = .next t ∧
      ∀ i : Fin 8, t.devRead k.toNat (BitVec.ofNat 8 (i.val + 1)) = some (s.cfg.segOf (.digit (Fin.ofNat 10 (8 - i.val))))
        ∧ (s.cfg.segOf (.digit (Fin.ofNat 10 (8 - i.val)))).getLsbD 7 = false)
    ∧ (∃ t, exec (.wrstr k 0b1000_0000 #v[0x41, 0x42, 0x43, 0x44, 0x45, 0x46, 0x47, 0x48]) s = .next t ∧
      t.devRead k.toNat 0x08 = some (s.cfg.segOf (.letter .a) ||| 0x80)
      ∧ ∀ i : Fin 8, ∃ v, t.devRead k.toNat (BitVec.ofNat 8 (i.val + 1)) = some v ∧ (v.getLsbD 7 = true ↔ i = 7))
    ∧ (∃ t es, exec (.clr k) s = .next t ∧ t.trace = s.trace ++ es
      ∧ registersAt k.toNat (framesSent es) = [1, 2, 3, 4, 5, 6, 7, 8]
      ∧ dataAt k.toNat (framesSent es) = List.replicate 8 0x00
      ∧ ∀ d, d < s.cfg.n → d ≠ k.toNat → registersAt d (framesSent es) = List.replicate 8 0x00)
    ∧ (∃ t es, exec .clra s = .next t ∧ t.trace = s.trace ++ es
      ∧ ∀ d, d < s.cfg.n → registersAt d (framesSent es) = [1, 2, 3, 4, 5, 6, 7, 8]
        ∧ dataAt d (framesSent es) = List.replicate 8 0x00)
    ∧ ∀ (dots : Byte) (buf : Payload), ∃ t es, exec (.wrstr k dots buf) s = .next t ∧ t.trace = s.trace ++ es
      ∧ registersAt k.toNat (framesSent es) = [s.cfg.addrOf .decodeMode, 8, 7, 6, 5, 4, 3, 2, 1]
      ∧ dataAt k.toNat (framesSent es)
          = s.cfg.decodeOf .noDecode
            :: (List.finRange 8).map (fun j => segmentEncode s.cfg (buf.get j) (dots.getLsbD (7 - j.val)))
      ∧ ∀ d, d < s.cfg.n → d ≠ k.toNat → registersAt d (framesSent es) = List.replicate 9 0x00

/-- Rule R51 (a), "devices not being addressed do not change state when they latch the frame": a command with a device index
that ends in OK leaves every register of every other device as it was. For all ten such commands and every register byte,
raw ones too. -/
def Obligations.OtherDevicesDoNotChange : Prop :=
  ∀ (s t : State) (i : Instr) (k : Byte), exec i s = .next t → t.status = .ok → deviceOf i = some k →
    ∀ d r, d ≠ k.toNat → t.devRead d r = s.devRead d r

/-! ### What commands leave alone -/

/-- Rules R26, R27, R206 and the frame of every command: configuration, life-cycle state, latch and port are unchanged;
`TRACE` only grows; `FB` above the frame is unchanged; `RES` is unchanged but by the encoders, which touch neither `FB`,
`TRACE`, `CS` nor `DEV`. -/
def Obligations.CommandFrame : Prop :=
  ∀ (i : Instr) (s t : State), exec i s = .next t →
    t.cfg = s.cfg ∧ t.lc = s.lc ∧ t.cmd = s.cmd ∧ t.port = s.port ∧ t.progress = s.progress
    ∧ (∃ es, t.trace = s.trace ++ es)
    ∧ t.fb.drop (2 * s.cfg.n) = s.fb.drop (2 * s.cfg.n)
    ∧ (isEncoder i = false → t.res = s.res)
    ∧ (isEncoder i = true → t = { s with res := t.res, status := .ok })

/-- Rules R203, R204, R205, R207: a command that ends in NOT_READY, ILLEGAL_CMD or RANGE_ERR has no effect but on `STATUS`
and `FAULT`. -/
def Obligations.RefusedCommandsChangeNothing : Prop :=
  ∀ (i : Instr) (s t : State), exec i s = .next t →
    (t.status = .notReady ∨ t.status = .illegalCmd ∨ t.status = .rangeErr) →
    t = { s with status := t.status, fault := true }

/-- Rule R27: `RES` is written by SEGENC and BCDENC with their byte; no other command, no refused word and not the
initialization sequence changes it; the host reads it; its reset value is 0x00. -/
def Obligations.ResIsWrittenByTheEncodersOnly : Prop :=
  (∀ (i : Instr) (s t : State), exec i s = .next t →
    t.res = match i with
      | .segenc ch dot => segmentEncode s.cfg ch dot
      | .bcdenc ch => bcdEncode s.cfg ch
      | _ => s.res)
  ∧ (∀ (s t : State) (bytes rest : List Byte) (acts : List HostAct) (c : CmdWord) (e : Reject),
      step s = .next t → s.busy = false → s.port = .word bytes :: acts → takeWord bytes = some (c, rest)
      → decodeFields c = .error e → t.res = s.res)
  ∧ (∀ s t : State, step s = .next t ∨ callStep s = .next t → s.busy = true → t.res = s.res)
  ∧ (∀ s : State, s.hostView.res = s.res)
  ∧ State.reset.res = 0x00

/-- Rule R24: `FAULT` is set by every completion whose status is not OK (a performed command's, a refused word's and the
initialization sequence's), kept by every other, cleared by reset and by nothing else, and 0 at reset. -/
def Obligations.FaultIsSticky : Prop :=
  (∀ (i : Instr) (s t : State), exec i s = .next t → t.fault = (s.fault || t.status != .ok))
  ∧ (∀ (s t : State) (bytes : List Byte) (acts : List HostAct), step s = .next t → s.busy = false
      → s.port = .word bytes :: acts → (takeWord bytes).isSome = true → t.fault = (s.fault || t.status != .ok))
  ∧ (∀ s t : State, step s = .next t → s.busy = true → t.fault = (s.fault || t.status != .ok))
  ∧ (∀ s t : State, callStep s = .next t → t.busy = true → t.fault = s.fault ∨ (s.busy = false ∧ ∃ acts, s.port = .reset :: acts))
  ∧ (∀ s t : State, step s = .next t ∨ callStep s = .next t → s.fault = true → t.fault = false →
      s.busy = false ∧ ∃ acts, s.port = .reset :: acts)
  ∧ (∀ (s t : State) (acts : List HostAct), step s = .next t → s.busy = false → s.port = .reset :: acts → t.fault = false)
  ∧ State.reset.fault = false

/-- Rule R204: the ten commands with a device index, for every index outside the chain. Nothing is sent. -/
def Obligations.IndexOutsideTheChainIsRangeErr : Prop :=
  ∀ (s : State) (k : Byte), s.lc = .ready → s.cfg.n ≤ k.toNat →
    (∀ reg data, exec (.wrraw k reg data) s = .next (refusedWith .rangeErr s))
    ∧ (∀ name data, exec (.wrreg k name data) s = .next (refusedWith .rangeErr s))
    ∧ (∀ mode, exec (.setdec k mode) s = .next (refusedWith .rangeErr s))
    ∧ (∀ level : Fin 16, exec (.setint k level.val) s = .next (refusedWith .rangeErr s))
    ∧ (∀ limit : Fin 8, exec (.setscan k limit.val) s = .next (refusedWith .rangeErr s))
    ∧ (∀ mode, exec (.settest k mode) s = .next (refusedWith .rangeErr s))
    ∧ exec (.clr k) s = .next (refusedWith .rangeErr s)
    ∧ (∀ buf, exec (.wrdig8 k buf) s = .next (refusedWith .rangeErr s))
    ∧ (∀ dots buf, exec (.wrstr k dots buf) s = .next (refusedWith .rangeErr s))
    ∧ (∀ buf, exec (.wrbcd k buf) s = .next (refusedWith .rangeErr s))

/-- Rule R205: in FAILED every command but the encoders is refused with NOT_READY and nothing is sent; the encoders are
performed as in READY; only a reset leaves FAILED; while INIT no command is accepted. -/
def Obligations.FailedBlockServesTheEncodersOnly : Prop :=
  (∀ (i : Instr) (s : State), s.lc = .failed → isEncoder i = false → exec i s = .next (refusedWith .notReady s))
  ∧ (∀ (i : Instr) (s t : State), isEncoder i = true → exec i s = .next t →
      t.status = .ok ∧ ∀ l, exec i { s with lc := l } = .next { t with lc := l })
  ∧ (∀ s t : State, step s = .next t → s.lc = .failed → t.lc ≠ .failed → ∃ acts, s.port = .reset :: acts)
  ∧ (∀ (s : State) (bytes : List Byte), s.lc = .init → present exec bytes s = .next s ∧ present start bytes s = .next s)

/-- Rule R212: the statuses each command can end in, in every state; PIN_ERR in the `SW` variant only. -/
def Obligations.StatusesOfEachCommand : Prop :=
  ∀ (i : Instr) (s t : State), exec i s = .next t →
    (isEncoder i = true → t.status = .ok)
    ∧ (t.status = .rangeErr → (deviceOf i).isSome = true)
    ∧ (t.status = .illegalCmd → legalFor s.cfg.n i = false)
    ∧ (t.status = .notReady → s.lc ≠ .ready)
    ∧ (t.status = .pinErr → s.cfg.sel = .sw)

/-! ### The initialization sequence -/

/-- Rules R232, R234, R235: with every answer `ok` the sequence sends its `11 * N + 1` frames in order and ends READY and
OK, its last frame in `FB` and nothing else changed. -/
def Obligations.InitSendsItsFrames : Prop :=
  ∀ s : State, s.cfg.legal = true → s.lc = .init → s.progress = .idle → (s.cfg.sel = .sw → s.cs = .high)
    → AnswersOk s ((11 * s.cfg.n + 1) * callsPerFrame s.cfg.sel)
    → step s = .next { afterFrames s (initSequence s.cfg) with lc := .ready }
      ∧ (initSequence s.cfg).length = 11 * s.cfg.n + 1
      ∧ ∀ f ∈ initSequence s.cfg, f.length = 2 * s.cfg.n

/-- Rule R233: the end of the sequence, whatever the answers: its status is that of its frames, one of OK, TRANSPORT_ERR and
PIN_ERR; `LC` is READY after OK and FAILED otherwise; `FAULT` is set unless OK; `BUSY` drops. No other step, at either
grain, writes `LC` but a reset. -/
def Obligations.InitEndsReadyOrFailed : Prop :=
  (∀ s t : State, step s = .next t → s.lc = .init →
    (s.progress = .idle → t.status = (sendFrames (initFrames s.cfg) s).1
      ∧ (t.status = .ok ∨ t.status = .transportErr ∨ t.status = .pinErr))
    ∧ (t.status = .ok → t.lc = .ready ∧ t.fault = s.fault)
    ∧ (t.status ≠ .ok → t.lc = .failed ∧ t.fault = true)
    ∧ t.busy = false)
  ∧ (∀ s t : State, step s = .next t → s.lc ≠ .init → t.lc ≠ s.lc → s.busy = false ∧ ∃ acts, s.port = .reset :: acts)
  ∧ (∀ s t : State, callStep s = .next t → t.lc ≠ s.lc →
      (s.lc = .init ∧ t.busy = false) ∨ (s.busy = false ∧ ∃ acts, s.port = .reset :: acts))

/-- Rules R165, R232: the sequence stops at its first failing frame, at every frame and for every way a transfer fails. -/
def Obligations.InitStopsAtItsFirstFailingFrame : Prop :=
  ∀ (s : State) (m : Nat) (f : List Byte) (es : List Event) (st : Status),
    s.cfg.legal = true → (initSequence s.cfg)[m]? = some f
    → AnswersOk s (m * callsPerFrame s.cfg.sel) → (es, st) ∈ failRows s.cfg.sel f
    → AnswersFrom s (m * callsPerFrame s.cfg.sel) es
    → (boot s).trace = s.trace ++ ((initSequence s.cfg).take m).flatMap (goodEvents s.cfg.sel) ++ es
      ∧ (boot s).status = st ∧ (boot s).lc = .failed ∧ (boot s).fault = true ∧ (boot s).dev = []
      ∧ (boot s).fb.take (2 * s.cfg.n) = f

/-- Rule R235: after a sequence that ends in OK every device has test off, decode off, full scan, blank digits and is
powered off, and the Intensity register holds what it held. -/
def Obligations.InitLeavesEveryDeviceKnown : Prop :=
  ∀ s t : State, step s = .next t → s.lc = .init → s.progress = .idle → t.status = .ok →
    ∀ k, k < s.cfg.n → TestOff t k ∧ DecodeOff t k ∧ ScanFull t k ∧ Blank t k ∧ PoweredOff t k
      ∧ t.devRead k (s.cfg.addrOf .intensity) = s.devRead k (s.cfg.addrOf .intensity)

/-! ### Invariants -/

/-- The state at reset meets the three invariants, and so does the state at reset of every legal configuration. -/
def Obligations.ResetMeetsTheInvariants : Prop :=
  (ShapeInv State.reset ∧ TraceInv State.reset ∧ FaultInv State.reset)
  ∧ ∀ c : Cfg, c.legal = true → ShapeInv (State.resetOf c) ∧ TraceInv (State.resetOf c) ∧ FaultInv (State.resetOf c)

/-- Rules R21, R25, R38, R40: every step, at either grain and from every state, between two calls of a command too, keeps
the shape of the state: the configuration legal, `FB` of its length and zero above the frame, `DEV` in canonical form and
inside the register space, and reset values before the initialization sequence. -/
def Obligations.StepKeepsTheShape : Prop :=
  ∀ s t : State, ShapeInv s → step s = .next t ∨ callStep s = .next t → ShapeInv t

/-- Rules R46, R51, R52, R54, R126, R129: every step, at either grain and from every state, between two calls of a command
too, keeps `TRACE` accounting for the devices and for select: its events come in the order of a transfer and end where the
running frame stands, every frame has `2 * N` bytes, and replaying it gives `DEV`, `CS` and the frame sent and not yet
latched. The part about `CS` in the `HW` variant rests on log 10, and the start of the replay after a reset on log 11. -/
def Obligations.StepKeepsTraceAccountingForTheChain : Prop :=
  ∀ s t : State, ShapeInv s → TraceInv s → step s = .next t ∨ callStep s = .next t → TraceInv t

/-- Rule R211: every step, at either grain, keeps the promise of `FAULT = 0`: every completion was OK and every call since
reset answered `ok`, but for a call of a command that has not completed yet. -/
def Obligations.StepKeepsTheFaultPremise : Prop :=
  ∀ s t : State, FaultInv s → step s = .next t ∨ callStep s = .next t → FaultInv t

/-! ### What cannot be told apart -/

/-- Rules R36, R37, R123 (c): the block reads neither `TRACE`, `CS`, `DEV` nor what an earlier frame left in `FB`: two
states that differ only there complete every command with the same status, result, life-cycle state and inputs left, and add
the same events to `TRACE`. -/
def Obligations.StaleFramesAndDevicesDoNotShow : Prop :=
  ∀ (i : Instr) (s t : State) (fb : List Byte) (tr : List Event) (cs : Level) (dev : Memory),
    exec i s = .next t →
    ∃ t' es, exec i { s with fb := fb, trace := tr, cs := cs, dev := dev } = .next t'
      ∧ t.trace = s.trace ++ es ∧ t'.trace = tr ++ es
      ∧ t'.status = t.status ∧ t'.fault = t.fault ∧ t'.res = t.res ∧ t'.lc = t.lc
      ∧ t'.answers = t.answers ∧ t'.calls = t.calls ∧ t'.hostView = t.hostView

/-- Rules R22, R23, R200: the codes the host reads. -/
def Obligations.HostReadsTheCodes : Prop :=
  LifeCycle.init.code = 0 ∧ LifeCycle.ready.code = 1 ∧ LifeCycle.failed.code = 2
  ∧ Status.ok.code = 0 ∧ Status.transportErr.code = 1 ∧ Status.pinErr.code = 2 ∧ Status.rangeErr.code = 3
  ∧ Status.illegalCmd.code = 4 ∧ Status.notReady.code = 5
  ∧ State.reset.hostView = { busy := true, lc := 0, status := 0, fault := false, res := 0x00 }
end

