-- ==== Sys2Proof/Laws/Config.lean ====
section
/-! SUPPORT. What a legal `CFG` gives (rule R21). -/

namespace Sys2Proof.Machine

/-- The parts of legality, one by one. -/
theorem legal_iff (c : Cfg) : c.legal = true ↔
    1 ≤ c.n ∧ c.n ≤ c.nmax ∧ c.nmax ≤ 255 ∧ c.fixedAddresses = true
      ∧ (∀ r ∈ c.regaddr.toList, r ≤ 0x0F#8) ∧ c.regaddr.toList.Nodup
      ∧ (∀ v ∈ c.seg.toList, v.getLsbD 7 = false) ∧ (∀ v ∈ c.bcdc.toList, v.getLsbD 7 = false) := by
  simp only [Cfg.legal, Bool.and_eq_true, decide_eq_true_eq, List.all_eq_true, Bool.not_eq_true', and_assoc]

theorem legal_n_pos {c : Cfg} (h : c.legal = true) : 1 ≤ c.n := ((legal_iff c).1 h).1
theorem legal_n_le {c : Cfg} (h : c.legal = true) : c.n ≤ c.nmax := ((legal_iff c).1 h).2.1

/-- Table entries are entries of the list. -/
theorem get_mem_toList {n : Nat} (v : Vector Byte n) (i : Fin n) : v.get i ∈ v.toList := by
  rw [Vector.get_eq_getElem, Vector.mem_toList_iff]
  exact Vector.getElem_mem i.isLt

/-- `REGADDR(NoOp) = 0x00` (rule R21 (c)). -/
theorem legal_noOp {c : Cfg} (h : c.legal = true) : c.addrOf .noOp = 0x00 := by
  have := ((legal_iff c).1 h).2.2.2.1
  simp only [Cfg.fixedAddresses, Bool.and_eq_true, beq_iff_eq] at this
  exact this.1

/-- `REGADDR(Digit_i) = i + 1` (rule R21 (c)). -/
theorem legal_digit {c : Cfg} (h : c.legal = true) (i : Fin 8) : c.addrOf (.digit i) = BitVec.ofNat 8 (i.val + 1) := by
  have := ((legal_iff c).1 h).2.2.2.1
  simp only [Cfg.fixedAddresses, Bool.and_eq_true, List.all_eq_true, beq_iff_eq] at this
  exact this.2 i (List.mem_finRange i)

/-- The ordinals name the registers (rule R29). -/
theorem regName_ofOrdinal_ordinal (r : RegName) : RegName.ofOrdinal r.ordinal.val = some r := by
  cases r with
  | digit i => revert i; decide
  | _ => rfl

/-- Different names have different addresses (rule R21 (d)). -/
theorem legal_addr_inj {c : Cfg} (h : c.legal = true) {r r' : RegName} (e : c.addrOf r = c.addrOf r') : r = r' := by
  have hnd := ((legal_iff c).1 h).2.2.2.2.2.1
  have : r.ordinal = r'.ordinal := by
    unfold Cfg.addrOf at e
    rw [Vector.get_eq_getElem, Vector.get_eq_getElem] at e
    apply Fin.ext
    exact (List.getElem_inj (h₀ := by simp) (h₁ := by simp) hnd).1 (by simpa using e)
  have h1 := regName_ofOrdinal_ordinal r
  rw [this, regName_ofOrdinal_ordinal] at h1
  exact (Option.some.inj h1).symm

theorem isAddress_addrOf (c : Cfg) (r : RegName) : c.isAddress (c.addrOf r) = true := by
  unfold Cfg.isAddress Cfg.addrOf
  rw [List.contains_iff_mem]
  exact get_mem_toList _ _

theorem legal_addr_ne_zero {c : Cfg} (h : c.legal = true) {r : RegName} (hr : r ≠ .noOp) : c.addrOf r ≠ 0x00 := by
  intro e
  exact hr (legal_addr_inj h (e.trans (legal_noOp h).symm))

/-- `SEG(key)` has bit 7 clear (rule R21 (e)). -/
theorem legal_seg {c : Cfg} (h : c.legal = true) (k : GlyphKey) : (c.segOf k).getLsbD 7 = false :=
  ((legal_iff c).1 h).2.2.2.2.2.2.1 _ (get_mem_toList _ _)

/-- `BCDC(key)` has bit 7 clear (rule R21 (f)). -/
theorem legal_bcd {c : Cfg} (h : c.legal = true) (k : BcdKey) : (c.bcdOf k).getLsbD 7 = false :=
  ((legal_iff c).1 h).2.2.2.2.2.2.2 _ (get_mem_toList _ _)

/-- Every value of `REGADDR` is the address of a name. -/
theorem isAddress_iff (c : Cfg) (r : Byte) : c.isAddress r = true ↔ ∃ name, r = c.addrOf name := by
  constructor
  · intro h
    unfold Cfg.isAddress at h
    rw [List.contains_iff_mem, Vector.mem_toList_iff] at h
    obtain ⟨i, hi, e⟩ := Vector.getElem_of_mem h
    have hname : ∃ name : RegName, name.ordinal = ⟨i, hi⟩ := by
      rcases i with _ | i
      · exact ⟨.noOp, rfl⟩
      · by_cases h8 : i < 8
        · exact ⟨.digit ⟨i, h8⟩, rfl⟩
        · obtain rfl | rfl | rfl | rfl | rfl : i = 8 ∨ i = 9 ∨ i = 10 ∨ i = 11 ∨ i = 12 := by omega
          · exact ⟨.decodeMode, rfl⟩
          · exact ⟨.intensity, rfl⟩
          · exact ⟨.scanLimit, rfl⟩
          · exact ⟨.shutdown, rfl⟩
          · exact ⟨.displayTest, rfl⟩
    obtain ⟨name, hn⟩ := hname
    refine ⟨name, ?_⟩
    rw [Cfg.addrOf, hn, Vector.get_eq_getElem, ← e]
  · rintro ⟨name, rfl⟩; exact isAddress_addrOf c name

/-- The configuration at reset is legal. -/
theorem reset_cfg_legal : State.reset.cfg.legal = true := by decide

end Sys2Proof.Machine
end

