-- ==== Sys2Proof/Laws/State.lean ====
section
/-! SUPPORT. Every field of the state after every named update: each true by unfolding the update once. -/

namespace Sys2Proof.Machine

@[simp] theorem complete_cfg (st : Status) (s : State) : (complete st s).cfg = s.cfg := rfl
@[simp] theorem complete_lc (st : Status) (s : State) : (complete st s).lc = s.lc := rfl
@[simp] theorem complete_status (st : Status) (s : State) : (complete st s).status = st := rfl
@[simp] theorem complete_fault (st : Status) (s : State) : (complete st s).fault = faultAfter s.fault st := rfl
@[simp] theorem complete_fb (st : Status) (s : State) : (complete st s).fb = s.fb := rfl
@[simp] theorem complete_cmd (st : Status) (s : State) : (complete st s).cmd = s.cmd := rfl
@[simp] theorem complete_res (st : Status) (s : State) : (complete st s).res = s.res := rfl
@[simp] theorem complete_trace (st : Status) (s : State) : (complete st s).trace = s.trace := rfl
@[simp] theorem complete_cs (st : Status) (s : State) : (complete st s).cs = s.cs := rfl
@[simp] theorem complete_dev (st : Status) (s : State) : (complete st s).dev = s.dev := rfl
@[simp] theorem complete_progress (st : Status) (s : State) : (complete st s).progress = s.progress := rfl
@[simp] theorem complete_port (st : Status) (s : State) : (complete st s).port = s.port := rfl
@[simp] theorem complete_answers (st : Status) (s : State) : (complete st s).answers = s.answers := rfl
@[simp] theorem complete_calls (st : Status) (s : State) : (complete st s).calls = s.calls := rfl

@[simp] theorem setProgress_cfg (p : Progress) (s : State) : (s.setProgress p).cfg = s.cfg := rfl
@[simp] theorem setProgress_lc (p : Progress) (s : State) : (s.setProgress p).lc = s.lc := rfl
@[simp] theorem setProgress_status (p : Progress) (s : State) : (s.setProgress p).status = s.status := rfl
@[simp] theorem setProgress_fault (p : Progress) (s : State) : (s.setProgress p).fault = s.fault := rfl
@[simp] theorem setProgress_fb (p : Progress) (s : State) : (s.setProgress p).fb = s.fb := rfl
@[simp] theorem setProgress_cmd (p : Progress) (s : State) : (s.setProgress p).cmd = s.cmd := rfl
@[simp] theorem setProgress_res (p : Progress) (s : State) : (s.setProgress p).res = s.res := rfl
@[simp] theorem setProgress_trace (p : Progress) (s : State) : (s.setProgress p).trace = s.trace := rfl
@[simp] theorem setProgress_cs (p : Progress) (s : State) : (s.setProgress p).cs = s.cs := rfl
@[simp] theorem setProgress_dev (p : Progress) (s : State) : (s.setProgress p).dev = s.dev := rfl
@[simp] theorem setProgress_progress (p : Progress) (s : State) : (s.setProgress p).progress = p := rfl
@[simp] theorem setProgress_port (p : Progress) (s : State) : (s.setProgress p).port = s.port := rfl
@[simp] theorem setProgress_answers (p : Progress) (s : State) : (s.setProgress p).answers = s.answers := rfl
@[simp] theorem setProgress_calls (p : Progress) (s : State) : (s.setProgress p).calls = s.calls := rfl

@[simp] theorem latch_cfg (f : List Byte) (s : State) : (latch f s).cfg = s.cfg := rfl
@[simp] theorem latch_lc (f : List Byte) (s : State) : (latch f s).lc = s.lc := rfl
@[simp] theorem latch_status (f : List Byte) (s : State) : (latch f s).status = s.status := rfl
@[simp] theorem latch_fault (f : List Byte) (s : State) : (latch f s).fault = s.fault := rfl
@[simp] theorem latch_fb (f : List Byte) (s : State) : (latch f s).fb = s.fb := rfl
@[simp] theorem latch_cmd (f : List Byte) (s : State) : (latch f s).cmd = s.cmd := rfl
@[simp] theorem latch_res (f : List Byte) (s : State) : (latch f s).res = s.res := rfl
@[simp] theorem latch_trace (f : List Byte) (s : State) : (latch f s).trace = s.trace := rfl
@[simp] theorem latch_cs (f : List Byte) (s : State) : (latch f s).cs = s.cs := rfl
@[simp] theorem latch_dev (f : List Byte) (s : State) : (latch f s).dev = latchBelow s.cfg f s.dev s.cfg.n := rfl
@[simp] theorem latch_progress (f : List Byte) (s : State) : (latch f s).progress = s.progress := rfl
@[simp] theorem latch_port (f : List Byte) (s : State) : (latch f s).port = s.port := rfl
@[simp] theorem latch_answers (f : List Byte) (s : State) : (latch f s).answers = s.answers := rfl
@[simp] theorem latch_calls (f : List Byte) (s : State) : (latch f s).calls = s.calls := rfl

@[simp] theorem devUnknown_cfg (s : State) : (devUnknown s).cfg = s.cfg := rfl
@[simp] theorem devUnknown_lc (s : State) : (devUnknown s).lc = s.lc := rfl
@[simp] theorem devUnknown_status (s : State) : (devUnknown s).status = s.status := rfl
@[simp] theorem devUnknown_fault (s : State) : (devUnknown s).fault = s.fault := rfl
@[simp] theorem devUnknown_fb (s : State) : (devUnknown s).fb = s.fb := rfl
@[simp] theorem devUnknown_cmd (s : State) : (devUnknown s).cmd = s.cmd := rfl
@[simp] theorem devUnknown_res (s : State) : (devUnknown s).res = s.res := rfl
@[simp] theorem devUnknown_trace (s : State) : (devUnknown s).trace = s.trace := rfl
@[simp] theorem devUnknown_cs (s : State) : (devUnknown s).cs = s.cs := rfl
@[simp] theorem devUnknown_dev (s : State) : (devUnknown s).dev = [] := rfl
@[simp] theorem devUnknown_progress (s : State) : (devUnknown s).progress = s.progress := rfl
@[simp] theorem devUnknown_port (s : State) : (devUnknown s).port = s.port := rfl
@[simp] theorem devUnknown_answers (s : State) : (devUnknown s).answers = s.answers := rfl
@[simp] theorem devUnknown_calls (s : State) : (devUnknown s).calls = s.calls := rfl

@[simp] theorem takeAnswer_cfg (s : State) : s.takeAnswer.cfg = s.cfg := rfl
@[simp] theorem takeAnswer_lc (s : State) : s.takeAnswer.lc = s.lc := rfl
@[simp] theorem takeAnswer_status (s : State) : s.takeAnswer.status = s.status := rfl
@[simp] theorem takeAnswer_fault (s : State) : s.takeAnswer.fault = s.fault := rfl
@[simp] theorem takeAnswer_fb (s : State) : s.takeAnswer.fb = s.fb := rfl
@[simp] theorem takeAnswer_cmd (s : State) : s.takeAnswer.cmd = s.cmd := rfl
@[simp] theorem takeAnswer_res (s : State) : s.takeAnswer.res = s.res := rfl
@[simp] theorem takeAnswer_trace (s : State) : s.takeAnswer.trace = s.trace := rfl
@[simp] theorem takeAnswer_cs (s : State) : s.takeAnswer.cs = s.cs := rfl
@[simp] theorem takeAnswer_dev (s : State) : s.takeAnswer.dev = s.dev := rfl
@[simp] theorem takeAnswer_progress (s : State) : s.takeAnswer.progress = s.progress := rfl
@[simp] theorem takeAnswer_port (s : State) : s.takeAnswer.port = s.port := rfl
@[simp] theorem takeAnswer_answers (s : State) : s.takeAnswer.answers = s.answers.tail := rfl
@[simp] theorem takeAnswer_calls (s : State) : s.takeAnswer.calls = s.calls + 1 := rfl

@[simp] theorem serWrite_cfg (f : List Byte) (s : State) : (serWrite f s).cfg = s.cfg := rfl
@[simp] theorem serWrite_lc (f : List Byte) (s : State) : (serWrite f s).lc = s.lc := rfl
@[simp] theorem serWrite_status (f : List Byte) (s : State) : (serWrite f s).status = s.status := rfl
@[simp] theorem serWrite_fault (f : List Byte) (s : State) : (serWrite f s).fault = s.fault := rfl
@[simp] theorem serWrite_fb (f : List Byte) (s : State) : (serWrite f s).fb = s.fb := rfl
@[simp] theorem serWrite_cmd (f : List Byte) (s : State) : (serWrite f s).cmd = s.cmd := rfl
@[simp] theorem serWrite_res (f : List Byte) (s : State) : (serWrite f s).res = s.res := rfl
@[simp] theorem serWrite_trace (f : List Byte) (s : State) :
    (serWrite f s).trace = s.trace ++ [.tx f (s.upcoming 0)] := rfl
@[simp] theorem serWrite_cs (f : List Byte) (s : State) :
    (serWrite f s).cs = levelAfterWrite s.cfg.sel (s.upcoming 0) s.cs := rfl
@[simp] theorem serWrite_dev (f : List Byte) (s : State) : (serWrite f s).dev = s.dev := rfl
@[simp] theorem serWrite_progress (f : List Byte) (s : State) : (serWrite f s).progress = s.progress := rfl
@[simp] theorem serWrite_port (f : List Byte) (s : State) : (serWrite f s).port = s.port := rfl
@[simp] theorem serWrite_answers (f : List Byte) (s : State) : (serWrite f s).answers = s.answers.tail := rfl
@[simp] theorem serWrite_calls (f : List Byte) (s : State) : (serWrite f s).calls = s.calls + 1 := rfl

@[simp] theorem pinLow_cfg (s : State) : (pinLow s).cfg = s.cfg := rfl
@[simp] theorem pinLow_lc (s : State) : (pinLow s).lc = s.lc := rfl
@[simp] theorem pinLow_status (s : State) : (pinLow s).status = s.status := rfl
@[simp] theorem pinLow_fault (s : State) : (pinLow s).fault = s.fault := rfl
@[simp] theorem pinLow_fb (s : State) : (pinLow s).fb = s.fb := rfl
@[simp] theorem pinLow_cmd (s : State) : (pinLow s).cmd = s.cmd := rfl
@[simp] theorem pinLow_res (s : State) : (pinLow s).res = s.res := rfl
@[simp] theorem pinLow_trace (s : State) : (pinLow s).trace = s.trace ++ [.pl (s.upcoming 0)] := rfl
@[simp] theorem pinLow_cs (s : State) : (pinLow s).cs = levelAfterDrive .low (s.upcoming 0) := rfl
@[simp] theorem pinLow_dev (s : State) : (pinLow s).dev = s.dev := rfl
@[simp] theorem pinLow_progress (s : State) : (pinLow s).progress = s.progress := rfl
@[simp] theorem pinLow_port (s : State) : (pinLow s).port = s.port := rfl
@[simp] theorem pinLow_answers (s : State) : (pinLow s).answers = s.answers.tail := rfl
@[simp] theorem pinLow_calls (s : State) : (pinLow s).calls = s.calls + 1 := rfl

@[simp] theorem pinHigh_cfg (s : State) : (pinHigh s).cfg = s.cfg := rfl
@[simp] theorem pinHigh_lc (s : State) : (pinHigh s).lc = s.lc := rfl
@[simp] theorem pinHigh_status (s : State) : (pinHigh s).status = s.status := rfl
@[simp] theorem pinHigh_fault (s : State) : (pinHigh s).fault = s.fault := rfl
@[simp] theorem pinHigh_fb (s : State) : (pinHigh s).fb = s.fb := rfl
@[simp] theorem pinHigh_cmd (s : State) : (pinHigh s).cmd = s.cmd := rfl
@[simp] theorem pinHigh_res (s : State) : (pinHigh s).res = s.res := rfl
@[simp] theorem pinHigh_trace (s : State) : (pinHigh s).trace = s.trace ++ [.ph (s.upcoming 0)] := rfl
@[simp] theorem pinHigh_cs (s : State) : (pinHigh s).cs = levelAfterDrive .high (s.upcoming 0) := rfl
@[simp] theorem pinHigh_dev (s : State) : (pinHigh s).dev = s.dev := rfl
@[simp] theorem pinHigh_progress (s : State) : (pinHigh s).progress = s.progress := rfl
@[simp] theorem pinHigh_port (s : State) : (pinHigh s).port = s.port := rfl
@[simp] theorem pinHigh_answers (s : State) : (pinHigh s).answers = s.answers.tail := rfl
@[simp] theorem pinHigh_calls (s : State) : (pinHigh s).calls = s.calls + 1 := rfl

@[simp] theorem settle_cfg (f : List Byte) (b : Bool) (s : State) : (settle f b s).cfg = s.cfg := by cases b <;> rfl
@[simp] theorem settle_lc (f : List Byte) (b : Bool) (s : State) : (settle f b s).lc = s.lc := by cases b <;> rfl
@[simp] theorem settle_status (f : List Byte) (b : Bool) (s : State) :
    (settle f b s).status = s.status := by cases b <;> rfl
@[simp] theorem settle_fault (f : List Byte) (b : Bool) (s : State) :
    (settle f b s).fault = s.fault := by cases b <;> rfl
@[simp] theorem settle_fb (f : List Byte) (b : Bool) (s : State) : (settle f b s).fb = s.fb := by cases b <;> rfl
@[simp] theorem settle_cmd (f : List Byte) (b : Bool) (s : State) : (settle f b s).cmd = s.cmd := by cases b <;> rfl
@[simp] theorem settle_res (f : List Byte) (b : Bool) (s : State) : (settle f b s).res = s.res := by cases b <;> rfl
@[simp] theorem settle_trace (f : List Byte) (b : Bool) (s : State) :
    (settle f b s).trace = s.trace := by cases b <;> rfl
@[simp] theorem settle_cs (f : List Byte) (b : Bool) (s : State) : (settle f b s).cs = s.cs := by cases b <;> rfl
@[simp] theorem settle_dev (f : List Byte) (b : Bool) (s : State) :
    (settle f b s).dev = if b then latchBelow s.cfg f s.dev s.cfg.n else [] := by cases b <;> rfl
@[simp] theorem settle_progress (f : List Byte) (b : Bool) (s : State) :
    (settle f b s).progress = s.progress := by cases b <;> rfl
@[simp] theorem settle_port (f : List Byte) (b : Bool) (s : State) :
    (settle f b s).port = s.port := by cases b <;> rfl
@[simp] theorem settle_answers (f : List Byte) (b : Bool) (s : State) :
    (settle f b s).answers = s.answers := by cases b <;> rfl
@[simp] theorem settle_calls (f : List Byte) (b : Bool) (s : State) :
    (settle f b s).calls = s.calls := by cases b <;> rfl

@[simp] theorem build_cfg (f : FrameReq) (s : State) : (build f s).cfg = s.cfg := by cases f <;> rfl
@[simp] theorem build_lc (f : FrameReq) (s : State) : (build f s).lc = s.lc := by cases f <;> rfl
@[simp] theorem build_status (f : FrameReq) (s : State) : (build f s).status = s.status := by cases f <;> rfl
@[simp] theorem build_fault (f : FrameReq) (s : State) : (build f s).fault = s.fault := by cases f <;> rfl
@[simp] theorem build_cmd (f : FrameReq) (s : State) : (build f s).cmd = s.cmd := by cases f <;> rfl
@[simp] theorem build_res (f : FrameReq) (s : State) : (build f s).res = s.res := by cases f <;> rfl
@[simp] theorem build_trace (f : FrameReq) (s : State) : (build f s).trace = s.trace := by cases f <;> rfl
@[simp] theorem build_cs (f : FrameReq) (s : State) : (build f s).cs = s.cs := by cases f <;> rfl
@[simp] theorem build_dev (f : FrameReq) (s : State) : (build f s).dev = s.dev := by cases f <;> rfl
@[simp] theorem build_progress (f : FrameReq) (s : State) : (build f s).progress = s.progress := by cases f <;> rfl
@[simp] theorem build_port (f : FrameReq) (s : State) : (build f s).port = s.port := by cases f <;> rfl
@[simp] theorem build_answers (f : FrameReq) (s : State) : (build f s).answers = s.answers := by cases f <;> rfl
@[simp] theorem build_calls (f : FrameReq) (s : State) : (build f s).calls = s.calls := by cases f <;> rfl

@[simp] theorem latchCmd_cfg (c : CmdWord) (s : State) : (latchCmd c s).cfg = s.cfg := rfl
@[simp] theorem latchCmd_lc (c : CmdWord) (s : State) : (latchCmd c s).lc = s.lc := rfl
@[simp] theorem latchCmd_status (c : CmdWord) (s : State) : (latchCmd c s).status = s.status := rfl
@[simp] theorem latchCmd_fault (c : CmdWord) (s : State) : (latchCmd c s).fault = s.fault := rfl
@[simp] theorem latchCmd_fb (c : CmdWord) (s : State) : (latchCmd c s).fb = s.fb := rfl
@[simp] theorem latchCmd_cmd (c : CmdWord) (s : State) : (latchCmd c s).cmd = c := rfl
@[simp] theorem latchCmd_res (c : CmdWord) (s : State) : (latchCmd c s).res = s.res := rfl
@[simp] theorem latchCmd_trace (c : CmdWord) (s : State) : (latchCmd c s).trace = s.trace := rfl
@[simp] theorem latchCmd_cs (c : CmdWord) (s : State) : (latchCmd c s).cs = s.cs := rfl
@[simp] theorem latchCmd_dev (c : CmdWord) (s : State) : (latchCmd c s).dev = s.dev := rfl
@[simp] theorem latchCmd_progress (c : CmdWord) (s : State) : (latchCmd c s).progress = s.progress := rfl
@[simp] theorem latchCmd_port (c : CmdWord) (s : State) : (latchCmd c s).port = s.port := rfl
@[simp] theorem latchCmd_answers (c : CmdWord) (s : State) : (latchCmd c s).answers = s.answers := rfl
@[simp] theorem latchCmd_calls (c : CmdWord) (s : State) : (latchCmd c s).calls = s.calls := rfl

@[simp] theorem finishInit_cfg (st : Status) (s : State) : (finishInit st s).cfg = s.cfg := rfl
@[simp] theorem finishInit_lc (st : Status) (s : State) :
    (finishInit st s).lc = if st = .ok then .ready else .failed := rfl
@[simp] theorem finishInit_status (st : Status) (s : State) : (finishInit st s).status = st := rfl
@[simp] theorem finishInit_fault (st : Status) (s : State) : (finishInit st s).fault = faultAfter s.fault st := rfl
@[simp] theorem finishInit_fb (st : Status) (s : State) : (finishInit st s).fb = s.fb := rfl
@[simp] theorem finishInit_cmd (st : Status) (s : State) : (finishInit st s).cmd = s.cmd := rfl
@[simp] theorem finishInit_res (st : Status) (s : State) : (finishInit st s).res = s.res := rfl
@[simp] theorem finishInit_trace (st : Status) (s : State) : (finishInit st s).trace = s.trace := rfl
@[simp] theorem finishInit_cs (st : Status) (s : State) : (finishInit st s).cs = s.cs := rfl
@[simp] theorem finishInit_dev (st : Status) (s : State) : (finishInit st s).dev = s.dev := rfl
@[simp] theorem finishInit_progress (st : Status) (s : State) : (finishInit st s).progress = s.progress := rfl
@[simp] theorem finishInit_port (st : Status) (s : State) : (finishInit st s).port = s.port := rfl
@[simp] theorem finishInit_answers (st : Status) (s : State) : (finishInit st s).answers = s.answers := rfl
@[simp] theorem finishInit_calls (st : Status) (s : State) : (finishInit st s).calls = s.calls := rfl

@[simp] theorem resetRelease_cfg (s : State) : (resetRelease s).cfg = s.cfg := rfl
@[simp] theorem resetRelease_lc (s : State) : (resetRelease s).lc = .init := rfl
@[simp] theorem resetRelease_status (s : State) : (resetRelease s).status = .ok := rfl
@[simp] theorem resetRelease_fault (s : State) : (resetRelease s).fault = false := rfl
@[simp] theorem resetRelease_fb (s : State) : (resetRelease s).fb = List.replicate (2 * s.cfg.nmax) 0 := rfl
@[simp] theorem resetRelease_cmd (s : State) : (resetRelease s).cmd = CmdWord.zero := rfl
@[simp] theorem resetRelease_res (s : State) : (resetRelease s).res = 0x00 := rfl
@[simp] theorem resetRelease_trace (s : State) : (resetRelease s).trace = [] := rfl
@[simp] theorem resetRelease_cs (s : State) : (resetRelease s).cs = .high := rfl
@[simp] theorem resetRelease_dev (s : State) : (resetRelease s).dev = [] := rfl
@[simp] theorem resetRelease_progress (s : State) : (resetRelease s).progress = .idle := rfl
@[simp] theorem resetRelease_port (s : State) : (resetRelease s).port = s.port := rfl
@[simp] theorem resetRelease_answers (s : State) : (resetRelease s).answers = s.answers := rfl
@[simp] theorem resetRelease_calls (s : State) : (resetRelease s).calls = s.calls := rfl

@[simp] theorem afterFrames_cfg (s : State) (fs : List (List Byte)) : (afterFrames s fs).cfg = s.cfg := rfl
@[simp] theorem afterFrames_lc (s : State) (fs : List (List Byte)) : (afterFrames s fs).lc = s.lc := rfl
@[simp] theorem afterFrames_status (s : State) (fs : List (List Byte)) : (afterFrames s fs).status = .ok := rfl
@[simp] theorem afterFrames_fault (s : State) (fs : List (List Byte)) : (afterFrames s fs).fault = s.fault := rfl
@[simp] theorem afterFrames_fb (s : State) (fs : List (List Byte)) :
    (afterFrames s fs).fb = fs.getLastD [] ++ s.fb.drop (2 * s.cfg.n) := rfl
@[simp] theorem afterFrames_cmd (s : State) (fs : List (List Byte)) : (afterFrames s fs).cmd = s.cmd := rfl
@[simp] theorem afterFrames_res (s : State) (fs : List (List Byte)) : (afterFrames s fs).res = s.res := rfl
@[simp] theorem afterFrames_trace (s : State) (fs : List (List Byte)) :
    (afterFrames s fs).trace = s.trace ++ fs.flatMap (goodEvents s.cfg.sel) := rfl
@[simp] theorem afterFrames_cs (s : State) (fs : List (List Byte)) : (afterFrames s fs).cs = .high := rfl
@[simp] theorem afterFrames_dev (s : State) (fs : List (List Byte)) :
    (afterFrames s fs).dev = latchAll s.cfg fs s.dev := rfl
@[simp] theorem afterFrames_progress (s : State) (fs : List (List Byte)) : (afterFrames s fs).progress = s.progress := rfl
@[simp] theorem afterFrames_port (s : State) (fs : List (List Byte)) : (afterFrames s fs).port = s.port := rfl
@[simp] theorem afterFrames_answers (s : State) (fs : List (List Byte)) :
    (afterFrames s fs).answers = s.answers.drop (fs.length * callsPerFrame s.cfg.sel) := rfl
@[simp] theorem afterFrames_calls (s : State) (fs : List (List Byte)) :
    (afterFrames s fs).calls = s.calls + fs.length * callsPerFrame s.cfg.sel := rfl

@[simp] theorem refusedWith_cfg (st : Status) (s : State) : (refusedWith st s).cfg = s.cfg := rfl
@[simp] theorem refusedWith_lc (st : Status) (s : State) : (refusedWith st s).lc = s.lc := rfl
@[simp] theorem refusedWith_status (st : Status) (s : State) : (refusedWith st s).status = st := rfl
@[simp] theorem refusedWith_fault (st : Status) (s : State) : (refusedWith st s).fault = true := rfl
@[simp] theorem refusedWith_fb (st : Status) (s : State) : (refusedWith st s).fb = s.fb := rfl
@[simp] theorem refusedWith_cmd (st : Status) (s : State) : (refusedWith st s).cmd = s.cmd := rfl
@[simp] theorem refusedWith_res (st : Status) (s : State) : (refusedWith st s).res = s.res := rfl
@[simp] theorem refusedWith_trace (st : Status) (s : State) : (refusedWith st s).trace = s.trace := rfl
@[simp] theorem refusedWith_cs (st : Status) (s : State) : (refusedWith st s).cs = s.cs := rfl
@[simp] theorem refusedWith_dev (st : Status) (s : State) : (refusedWith st s).dev = s.dev := rfl
@[simp] theorem refusedWith_progress (st : Status) (s : State) : (refusedWith st s).progress = s.progress := rfl
@[simp] theorem refusedWith_port (st : Status) (s : State) : (refusedWith st s).port = s.port := rfl
@[simp] theorem refusedWith_answers (st : Status) (s : State) : (refusedWith st s).answers = s.answers := rfl
@[simp] theorem refusedWith_calls (st : Status) (s : State) : (refusedWith st s).calls = s.calls := rfl

@[simp] theorem setProgress_setProgress (p q : Progress) (s : State) :
    (s.setProgress p).setProgress q = s.setProgress q := rfl
@[simp] theorem setProgress_frame (p : Progress) (s : State) : (s.setProgress p).frame = s.frame := rfl
@[simp] theorem setProgress_upcoming (p : Progress) (s : State) (j : Nat) :
    (s.setProgress p).upcoming j = s.upcoming j := rfl
@[simp] theorem serWrite_frame (f : List Byte) (s : State) : (serWrite f s).frame = s.frame := rfl
@[simp] theorem pinLow_frame (s : State) : (pinLow s).frame = s.frame := rfl
@[simp] theorem pinHigh_frame (s : State) : (pinHigh s).frame = s.frame := rfl

end Sys2Proof.Machine
end

