-- ==== Sys2Proof/Laws/Frames.lean ====
section
/-! SUPPORT. Frames: the frame that building leaves in `FB` is the frame the spec writes, and `FB` above it is kept
(rules R121 to R123). -/

namespace Sys2Proof.Machine

/-! ### The spec's frames, byte by byte -/

theorem pairFrame_succ (n k : Nat) (r d : Byte) :
    pairFrame (n + 1) k r d = pairFrame n k r d ++ (if n = k then [r, d] else [0x00, 0x00]) := by
  simp [pairFrame, List.range_succ]

theorem everyFrame_succ (n : Nat) (r d : Byte) : everyFrame (n + 1) r d = everyFrame n r d ++ [r, d] := by
  simp [everyFrame, List.range_succ]

@[simp] theorem pairFrame_length (n k : Nat) (r d : Byte) : (pairFrame n k r d).length = 2 * n := by
  induction n with
  | zero => rfl
  | succ n ih => rw [pairFrame_succ, List.length_append, ih]; split <;> simp <;> omega

@[simp] theorem everyFrame_length (n : Nat) (r d : Byte) : (everyFrame n r d).length = 2 * n := by
  induction n with
  | zero => rfl
  | succ n ih => rw [everyFrame_succ, List.length_append, ih]; simp; omega

theorem pair_getElem? (a b : Byte) {j m : Nat} (h1 : m ≤ j) (h2 : j < m + 2) :
    [a, b][j - m]? = some (if j = m then a else b) := by
  obtain h | h : j = m ∨ j = m + 1 := by omega
  · subst h; simp
  · subst h; simp

/-- Byte `j` of a targeted frame (rule R136). -/
theorem pairFrame_getElem? (n k : Nat) (r d : Byte) (j : Nat) (hj : j < 2 * n) :
    (pairFrame n k r d)[j]? = some (if j = 2 * k then r else if j = 2 * k + 1 then d else 0x00) := by
  induction n with
  | zero => omega
  | succ n ih =>
    rw [pairFrame_succ]
    by_cases h : j < 2 * n
    · rw [List.getElem?_append_left (by simpa using h), ih h]
    · rw [List.getElem?_append_right (by simpa using h), pairFrame_length]
      have h1 : 2 * n ≤ j := by omega
      have h2 : j < 2 * n + 2 := by omega
      by_cases hk : n = k
      · subst hk
        rw [if_pos rfl, pair_getElem? _ _ h1 h2]
        by_cases hj' : j = 2 * n
        · simp [hj']
        · rw [if_neg hj', if_neg hj', if_pos (by omega)]
      · rw [if_neg hk, pair_getElem? _ _ h1 h2, if_neg (by omega : ¬ j = 2 * k), if_neg (by omega : ¬ j = 2 * k + 1)]
        simp

/-- Byte `j` of a broadcast frame. -/
theorem everyFrame_getElem? (n : Nat) (r d : Byte) (j : Nat) (hj : j < 2 * n) :
    (everyFrame n r d)[j]? = some (if j % 2 = 0 then r else d) := by
  induction n with
  | zero => omega
  | succ n ih =>
    rw [everyFrame_succ]
    by_cases h : j < 2 * n
    · rw [List.getElem?_append_left (by simpa using h), ih h]
    · rw [List.getElem?_append_right (by simpa using h), everyFrame_length,
        pair_getElem? _ _ (by omega) (by omega)]
      congr 1
      by_cases hj' : j = 2 * n
      · rw [if_pos hj', if_pos (by omega)]
      · rw [if_neg hj', if_neg (by omega)]

/-- The pair a device finds in a targeted frame. -/
theorem pairFrame_pair (n k : Nat) (r d : Byte) (i : Nat) (hi : i < n) :
    (pairFrame n k r d).getD (2 * i) 0 = (if i = k then r else 0x00)
      ∧ (pairFrame n k r d).getD (2 * i + 1) 0 = (if i = k then d else 0x00) := by
  rw [List.getD_eq_getElem?_getD, List.getD_eq_getElem?_getD, pairFrame_getElem? _ _ _ _ _ (by omega),
    pairFrame_getElem? _ _ _ _ _ (by omega)]
  by_cases h : i = k
  · subst h; simp
  · rw [if_neg (by omega), if_neg (by omega), if_neg (by omega), if_neg (by omega)]; simp [h]

/-- The pair a device finds in a broadcast frame. -/
theorem everyFrame_pair (n : Nat) (r d : Byte) (i : Nat) (hi : i < n) :
    (everyFrame n r d).getD (2 * i) 0 = r ∧ (everyFrame n r d).getD (2 * i + 1) 0 = d := by
  rw [List.getD_eq_getElem?_getD, List.getD_eq_getElem?_getD, everyFrame_getElem? _ _ _ _ (by omega),
    everyFrame_getElem? _ _ _ _ (by omega)]
  rw [if_pos (by omega), if_neg (by omega)]; simp

/-! ### Building -/

theorem putPair_append {k : Nat} {r d : Byte} {xs ys : List Byte} (h : 2 * k + 1 < xs.length) :
    putPair k r d (xs ++ ys) = putPair k r d xs ++ ys := by
  unfold putPair
  rw [List.set_append_left _ _ (by omega), List.set_append_left _ _ (by simpa using h)]

theorem putPair_length (k : Nat) (r d : Byte) (xs : List Byte) : (putPair k r d xs).length = xs.length := by
  simp [putPair]

/-- `BuildTarget` leaves the targeted frame and keeps `FB` above it (rule R123 (a), (c), (d)). -/
theorem buildTarget_eq {n k : Nat} (hk : k < n) (r d : Byte) (fb : List Byte) :
    buildTarget n k r d fb = pairFrame n k r d ++ fb.drop (2 * n) := by
  unfold buildTarget zeroFill
  rw [putPair_append (by simp; omega)]
  congr 1
  apply List.ext_getElem?
  intro j
  by_cases hj : j < 2 * n
  · rw [pairFrame_getElem? _ _ _ _ _ hj]
    unfold putPair
    simp only [List.getElem?_set, List.length_set, List.length_replicate, List.getElem?_replicate]
    by_cases h1 : j = 2 * k
    · subst h1; simp; omega
    · by_cases h2 : j = 2 * k + 1
      · subst h2; simp; omega
      · simp [h1, h2, hj, Ne.symm h1, Ne.symm h2]
  · rw [List.getElem?_eq_none (by rw [putPair_length]; simp; omega), List.getElem?_eq_none (by simp; omega)]

theorem putAllBelow_append {i : Nat} {r d : Byte} {xs ys : List Byte} (h : 2 * i ≤ xs.length) :
    putAllBelow r d (xs ++ ys) i = putAllBelow r d xs i ++ ys
      ∧ (putAllBelow r d xs i).length = xs.length := by
  induction i with
  | zero => exact ⟨rfl, rfl⟩
  | succ i ih =>
    have ⟨h1, h2⟩ := ih (by omega)
    simp only [putAllBelow]
    rw [h1, putPair_append (by omega), putPair_length]
    exact ⟨rfl, h2⟩

theorem putAllBelow_replicate (r d : Byte) (n i : Nat) (h : i ≤ n) :
    putAllBelow r d (List.replicate (2 * n) 0) i = everyFrame i r d ++ List.replicate (2 * (n - i)) 0 := by
  induction i with
  | zero => simp [putAllBelow, everyFrame]
  | succ i ih =>
    simp only [putAllBelow, ih (by omega), everyFrame_succ]
    obtain ⟨m, hm⟩ : ∃ m, n - i = m + 1 := ⟨n - i - 1, by omega⟩
    have hm' : n - (i + 1) = m := by omega
    rw [hm, hm', show 2 * (m + 1) = 2 * m + 1 + 1 by omega, List.replicate_succ, List.replicate_succ]
    unfold putPair
    rw [List.set_append_right _ _ (by simp), List.set_append_right _ _ (by simp)]
    simp

/-- `BuildAll` leaves the broadcast frame and keeps `FB` above it (rule R123 (b), (c), (d)). -/
theorem buildAll_eq (n : Nat) (r d : Byte) (fb : List Byte) :
    buildAll n r d fb = everyFrame n r d ++ fb.drop (2 * n) := by
  unfold buildAll zeroFill
  rw [(putAllBelow_append (by simp)).1, putAllBelow_replicate _ _ _ _ le_rfl]
  simp

/-- The bytes of the frame a request asks for. -/
def frameBytes (n : Nat) : FrameReq → List Byte
  | .target k r d => pairFrame n k r d
  | .all r d => everyFrame n r d

@[simp] theorem frameBytes_length (n : Nat) (f : FrameReq) : (frameBytes n f).length = 2 * n := by
  cases f <;> simp [frameBytes]

/-- The whole effect of building, for either kind of frame. -/
theorem build_eq {f : FrameReq} {s : State} (h : f.inChain s.cfg.n) :
    build f s = { s with fb := frameBytes s.cfg.n f ++ s.fb.drop (2 * s.cfg.n) } := by
  cases f with
  | target k r d => simp only [build, frameBytes, buildTarget_eq h]
  | all r d => simp only [build, frameBytes, buildAll_eq]

theorem build_frame {f : FrameReq} {s : State} (h : f.inChain s.cfg.n) :
    (build f s).frame = frameBytes s.cfg.n f := by
  rw [build_eq h]
  exact List.take_left' (by simp)

theorem build_fb_drop {f : FrameReq} {s : State} (h : f.inChain s.cfg.n) :
    (build f s).fb.drop (2 * s.cfg.n) = s.fb.drop (2 * s.cfg.n) := by
  rw [build_eq h]
  exact List.drop_left' (by simp)

end Sys2Proof.Machine
end

