-- ==== Sys2Proof/Laws/Memory.lean ====
section
/-! SUPPORT. The device register space: read after write, writes elsewhere, the canonical form, and what one latched
pair and one latched frame do (rules R40 to R53). -/

namespace Sys2Proof.Machine

/-! ### Addresses -/

theorem devKey_div (k : Nat) (r : Byte) : devKey k r / 256 = k := by
  have := r.isLt; unfold devKey; omega

theorem devKey_inj {k k' : Nat} {r r' : Byte} : devKey k r = devKey k' r' ↔ k = k' ∧ r = r' := by
  constructor
  · intro h
    have hk : k = k' := by rw [← devKey_div k r, h, devKey_div]
    subst hk
    exact ⟨rfl, BitVec.eq_of_toNat_eq (by unfold devKey at h; omega)⟩
  · rintro ⟨rfl, rfl⟩; rfl

/-! ### Reading -/

@[simp] theorem Memory.read_nil (a : Nat) : Memory.read [] a = none := rfl

theorem Memory.read_write (m : Memory) (a : Nat) (v : Byte) (b : Nat) :
    (m.write a v).read b = if b = a then some v else m.read b := by
  induction m with
  | nil => rfl
  | cons c m ih =>
    obtain ⟨c, w⟩ := c
    simp only [Memory.write]
    split
    · simp only [Memory.read]
    · split
      · subst c; simp only [Memory.read]; split <;> rfl
      · simp only [Memory.read, ih]
        split
        · next h => subst h; rw [if_neg (by omega)]
        · rfl

theorem Memory.read_write_same (m : Memory) (a : Nat) (v : Byte) : (m.write a v).read a = some v := by
  simp [Memory.read_write]

theorem Memory.read_write_other (m : Memory) {a b : Nat} (v : Byte) (h : b ≠ a) :
    (m.write a v).read b = m.read b := by
  simp [Memory.read_write, h]

theorem Memory.read_forgetDevice (m : Memory) (k a : Nat) :
    (m.forgetDevice k).read a = if a / 256 = k then none else m.read a := by
  induction m with
  | nil => simp [Memory.forgetDevice, Memory.read]
  | cons c m ih =>
    obtain ⟨c, w⟩ := c
    unfold Memory.forgetDevice at ih ⊢
    by_cases hc : c / 256 = k
    · rw [List.filter_cons_of_neg (by simpa using hc), ih]
      simp only [Memory.read]
      split
      · rfl
      · rw [if_neg (by rintro rfl; contradiction)]
    · rw [List.filter_cons_of_pos (by simpa using hc)]
      simp only [Memory.read, ih]
      by_cases ha : a = c
      · subst ha; rw [if_pos rfl, if_pos rfl, if_neg hc]
      · simp [ha]

/-! ### Entries -/

theorem Memory.mem_write {m : Memory} {a : Nat} {v : Byte} {c : Host.Cell} (h : c ∈ m.write a v) :
    c = (a, v) ∨ c ∈ m := by
  induction m with
  | nil => simpa [Memory.write] using h
  | cons d m ih =>
    obtain ⟨d, w⟩ := d
    simp only [Memory.write] at h
    split at h
    · rcases List.mem_cons.1 h with h | h
      · exact .inl h
      · exact .inr h
    · split at h
      · rcases List.mem_cons.1 h with h | h
        · exact .inl h
        · exact .inr (List.mem_cons_of_mem _ h)
      · rcases List.mem_cons.1 h with h | h
        · exact .inr (h ▸ List.mem_cons_self)
        · rcases ih h with h | h
          · exact .inl h
          · exact .inr (List.mem_cons_of_mem _ h)

/-! ### The canonical form -/

theorem Memory.wf_nil : Memory.wf [] := List.Pairwise.nil

theorem Memory.wf_write {m : Memory} (a : Nat) (v : Byte) (h : m.wf) : (m.write a v).wf := by
  induction m with
  | nil => simp [Memory.write, Memory.wf]
  | cons c m ih =>
    obtain ⟨c, w⟩ := c
    have ⟨hc, hm⟩ := List.pairwise_cons.1 h
    simp only [Memory.write]
    split
    · next hlt =>
      refine List.pairwise_cons.2 ⟨fun d hd => ?_, h⟩
      rcases List.mem_cons.1 hd with rfl | hd
      · exact hlt
      · exact Nat.lt_trans hlt (hc d hd)
    · split
      · subst c; exact List.pairwise_cons.2 ⟨hc, hm⟩
      · refine List.pairwise_cons.2 ⟨fun d hd => ?_, ih hm⟩
        rcases Memory.mem_write hd with rfl | hd
        · show c < a; omega
        · exact hc d hd

theorem Memory.wf_forgetDevice {m : Memory} (k : Nat) (h : m.wf) : (m.forgetDevice k).wf :=
  List.Pairwise.filter _ h

theorem memWrite_wf (c : Cfg) (k : Nat) (r v : Byte) {m : Memory} (h : m.wf) : (memWrite c k r v m).wf := by
  unfold memWrite
  split
  · exact h
  · split
    · exact Memory.wf_write _ _ h
    · exact Memory.wf_forgetDevice _ h

theorem latchBelow_wf (c : Cfg) (f : List Byte) {m : Memory} (n : Nat) (h : m.wf) : (latchBelow c f m n).wf := by
  induction n with
  | zero => exact h
  | succ i ih => exact memWrite_wf _ _ _ _ ih

/-! ### What a latched pair and a latched frame leave -/

/-- One pair: register `r` of device `d` afterwards (rule R51). -/
theorem memWrite_read (c : Cfg) (k : Nat) (p v : Byte) (m : Memory) (d : Nat) (r : Byte) :
    (memWrite c k p v m).read (devKey d r)
      = if d = k then afterPair c p v r (m.read (devKey d r)) else m.read (devKey d r) := by
  unfold memWrite afterPair
  split
  · simp
  · split
    · rw [Memory.read_write]
      by_cases hd : d = k
      · subst hd; simp [devKey_inj]
      · simp [devKey_inj, hd]
    · rw [Memory.read_forgetDevice, devKey_div]

/-- One frame: every device of the chain has latched its own pair, and nothing else is touched (rule R51). -/
theorem latchBelow_read (c : Cfg) (f : List Byte) (m : Memory) (n d : Nat) (r : Byte) :
    (latchBelow c f m n).read (devKey d r)
      = if d < n then afterPair c (f.getD (2 * d) 0) (f.getD (2 * d + 1) 0) r (m.read (devKey d r))
        else m.read (devKey d r) := by
  induction n with
  | zero => simp [latchBelow]
  | succ i ih =>
    simp only [latchBelow, memWrite_read, ih]
    by_cases hd : d = i
    · subst hd; simp
    · by_cases hlt : d < i
      · simp [hd, hlt, Nat.lt_succ_of_lt hlt]
      · simp [hd, hlt, show ¬ d < i + 1 by omega]

/-- Entries stay inside the register space. -/
theorem memWrite_inSpace (c : Cfg) (k : Nat) (p v : Byte) (m : Memory) (n : Nat) (hk : k < n)
    (h : ∀ a w, (a, w) ∈ m → ∃ d r, a = devKey d r ∧ d < n ∧ c.isAddress r = true ∧ r ≠ 0x00) :
    ∀ a w, (a, w) ∈ memWrite c k p v m → ∃ d r, a = devKey d r ∧ d < n ∧ c.isAddress r = true ∧ r ≠ 0x00 := by
  intro a w hm
  unfold memWrite at hm
  split at hm
  · exact h a w hm
  · next h0 =>
    split at hm
    · next ha =>
      rcases Memory.mem_write hm with hc | hc
      · obtain ⟨rfl, rfl⟩ := Prod.mk.inj hc
        exact ⟨k, p, rfl, hk, ha, h0⟩
      · exact h a w hc
    · exact h a w (List.mem_filter.1 hm).1

theorem latchBelow_inSpace (c : Cfg) (f : List Byte) (m : Memory) (i n : Nat) (hi : i ≤ n)
    (h : ∀ a w, (a, w) ∈ m → ∃ d r, a = devKey d r ∧ d < n ∧ c.isAddress r = true ∧ r ≠ 0x00) :
    ∀ a w, (a, w) ∈ latchBelow c f m i → ∃ d r, a = devKey d r ∧ d < n ∧ c.isAddress r = true ∧ r ≠ 0x00 := by
  induction i with
  | zero => exact h
  | succ i ih => exact memWrite_inSpace c i _ _ _ n (by omega) (ih (by omega))

end Sys2Proof.Machine
end

