-- ==== Sys2Proof/Laws/Transfer.lean ====
section
/-! SUPPORT. One transfer is one row of rule R126, whichever answers come; a sequence of frames is good to its end or
good up to one failed frame (rules R124 to R128, R165). -/

namespace Sys2Proof.Machine

/-! ### Answers -/

theorem upcoming_of_drop {s t : State} {m : Nat} (ha : t.answers = s.answers.drop m) (hc : t.calls = s.calls + m)
    (j : Nat) : t.upcoming j = s.upcoming (m + j) := by
  unfold State.upcoming
  rw [ha, hc, List.getElem?_drop]
  cases s.answers[m + j]? <;> simp [Nat.add_assoc]

@[simp] theorem upcoming_takeAnswer (s : State) (j : Nat) : s.takeAnswer.upcoming j = s.upcoming (j + 1) := by
  rw [upcoming_of_drop (s := s) (m := 1) (by simp) (by simp), Nat.add_comm]

@[simp] theorem upcoming_serWrite (f : List Byte) (s : State) (j : Nat) :
    (serWrite f s).upcoming j = s.upcoming (j + 1) := upcoming_takeAnswer s j

@[simp] theorem upcoming_pinLow (s : State) (j : Nat) : (pinLow s).upcoming j = s.upcoming (j + 1) :=
  upcoming_takeAnswer s j

@[simp] theorem upcoming_pinHigh (s : State) (j : Nat) : (pinHigh s).upcoming j = s.upcoming (j + 1) :=
  upcoming_takeAnswer s j

@[simp] theorem upcoming_build (f : FrameReq) (s : State) (j : Nat) : (build f s).upcoming j = s.upcoming j := by
  unfold State.upcoming; simp

/-! ### One transfer -/

/-- The state after a transfer with these events and this status: everything a transfer can change. -/
def afterTransfer (s : State) (es : List Event) (st : Status) : State :=
  { s with
    trace := s.trace ++ es
    cs := es.foldl (observeSelect s.cfg.sel) s.cs
    dev := if st = .ok then latchBelow s.cfg s.frame s.dev s.cfg.n else []
    answers := s.answers.drop es.length
    calls := s.calls + es.length }

/-- A row of rule R126. -/
def TransferRow (sel : Sel) (f : List Byte) (es : List Event) (st : Status) : Prop :=
  (es = goodEvents sel f ∧ st = .ok) ∨ (es, st) ∈ failRows sel f

theorem transfer_hw {s : State} (h : s.cfg.sel = .hw) : transfer s = transferHW s := by simp [transfer, h]
theorem transfer_sw {s : State} (h : s.cfg.sel = .sw) : transfer s = transferSW s := by simp [transfer, h]

theorem tail_tail {α : Type} (l : List α) : l.tail.tail = l.drop 2 := by
  rcases l with _ | ⟨_, _ | ⟨_, _⟩⟩ <;> rfl

theorem tail_tail_tail {α : Type} (l : List α) : l.tail.tail.tail = l.drop 3 := by
  rcases l with _ | ⟨_, _ | ⟨_, _ | ⟨_, _⟩⟩⟩ <;> rfl

/-- The three calls of a `SW` transfer whose drive low succeeded. -/
theorem three_calls (f : List Byte) (s : State) (h : s.upcoming 0 = .ok) :
    pinHigh (serWrite f (pinLow s))
      = { s with
          trace := s.trace ++ [.pl .ok, .tx f (s.upcoming 1), .ph (s.upcoming 2)]
          cs := levelAfterDrive .high (s.upcoming 2)
          answers := s.answers.drop 3
          calls := s.calls + 3 } := by
  apply State.ext <;> simp [h, tail_tail_tail]

/-- The two calls of a `SW` transfer whose drive low failed. -/
theorem two_calls (s : State) (h : s.upcoming 0 = .err) :
    pinHigh (pinLow s)
      = { s with
          trace := s.trace ++ [.pl .err, .ph (s.upcoming 1)]
          cs := levelAfterDrive .high (s.upcoming 1)
          answers := s.answers.drop 2
          calls := s.calls + 2 } := by
  apply State.ext <;> simp [h, tail_tail]

/-- The events of a transfer, as the environment answers (rule R126). -/
def transferEvents (s : State) : List Event :=
  match s.cfg.sel, s.upcoming 0 with
  | .hw, r => [.tx s.frame r]
  | .sw, .ok => [.pl .ok, .tx s.frame (s.upcoming 1), .ph (s.upcoming 2)]
  | .sw, .err => [.pl .err, .ph (s.upcoming 1)]

theorem transferEvents_answers (s : State) : AnswersFrom s 0 (transferEvents s) := by
  intro j hj
  unfold transferEvents at hj ⊢
  rcases hs : s.cfg.sel with _ | _
  · rw [hs] at hj
    obtain rfl : j = 0 := by simpa using hj
    rfl
  · rw [hs] at hj
    rcases h0 : s.upcoming 0 with _ | _ <;> rw [h0] at hj
    · obtain rfl | rfl | rfl : j = 0 ∨ j = 1 ∨ j = 2 := by simp at hj; omega
      all_goals simp [Event.answer, h0]
    · obtain rfl | rfl : j = 0 ∨ j = 1 := by simp at hj; omega
      all_goals simp [Event.answer, h0]

/-- Whatever the answers, a transfer is exactly one row, with the answers the environment gave. -/
theorem transfer_row (s : State) :
    ∃ es st, TransferRow s.cfg.sel s.frame es st ∧ AnswersFrom s 0 es ∧ transfer s = (st, afterTransfer s es st) := by
  refine ⟨transferEvents s, (transfer s).1, ?_, transferEvents_answers s, ?_⟩
  · rcases hs : s.cfg.sel with _ | _ <;> rcases h0 : s.upcoming 0 with _ | _
    · exact .inl ⟨by simp [transferEvents, hs, h0, goodEvents], by simp [transfer_hw hs, transferHW, h0, hwStatus]⟩
    · exact .inr (by simp [transferEvents, transfer_hw hs, transferHW, hs, h0, hwStatus, failRows])
    · rcases h1 : s.upcoming 1 with _ | _ <;> rcases h2 : s.upcoming 2 with _ | _
      · exact .inl ⟨by simp [transferEvents, hs, h0, h1, h2, goodEvents],
          by simp [transfer_sw hs, transferSW, h0, h1, h2, swStatus]⟩
      all_goals
        exact .inr (by simp [transferEvents, transfer_sw hs, transferSW, hs, h0, h1, h2, swStatus, failRows])
    · rcases h1 : s.upcoming 1 with _ | _ <;>
        exact .inr (by simp [transferEvents, transfer_sw hs, transferSW, hs, h0, h1, swStatus, failRows])
  · refine Prod.ext rfl ?_
    rcases hs : s.cfg.sel with _ | _ <;> rcases h0 : s.upcoming 0 with _ | _
    all_goals simp only [transfer_hw, transfer_sw, hs]
    · apply State.ext <;> simp [transferHW, afterTransfer, transferEvents, hs, h0, observeSelect, hwStatus]
    · apply State.ext <;> simp [transferHW, afterTransfer, transferEvents, hs, h0, observeSelect, hwStatus]
    · rcases h1 : s.upcoming 1 with _ | _ <;> rcases h2 : s.upcoming 2 with _ | _ <;>
        apply State.ext <;>
        simp [transferSW, three_calls _ _ h0, afterTransfer, transferEvents, hs, h0, h1, h2, observeSelect,
          levelAfterWrite, swStatus]
    · rcases h1 : s.upcoming 1 with _ | _ <;> apply State.ext <;>
        simp [transferSW, two_calls _ h0, afterTransfer, transferEvents, hs, h0, h1, observeSelect, swStatus]

/-- Two rows of one transfer whose answers the environment gave are the same row. -/
theorem transferRow_unique {s : State} {sel : Sel} {f : List Byte} {es es' : List Event} {st st' : Status}
    (h : TransferRow sel f es st) (h' : TransferRow sel f es' st') (m : Nat)
    (a : AnswersFrom s m es) (a' : AnswersFrom s m es') : es = es' ∧ st = st' := by
  have key : ∀ j, j < es.length → j < es'.length →
      (es[j]?).map Event.answer = (es'[j]?).map Event.answer := fun j hj hj' => by rw [a j hj, a' j hj']
  cases sel <;> simp only [TransferRow, goodEvents, failRows, List.mem_cons, Prod.mk.injEq,
    List.not_mem_nil, or_false] at h h'
  · rcases h with ⟨rfl, rfl⟩ | ⟨rfl, rfl⟩ <;> rcases h' with ⟨rfl, rfl⟩ | ⟨rfl, rfl⟩ <;>
      first
        | exact ⟨rfl, rfl⟩
        | (have h := key 0 (by simp) (by simp); simp [Event.answer] at h <;> done)
  · rcases h with ⟨rfl, rfl⟩ | ⟨rfl, rfl⟩ | ⟨rfl, rfl⟩ | ⟨rfl, rfl⟩ | ⟨rfl, rfl⟩ | ⟨rfl, rfl⟩ <;>
      rcases h' with ⟨rfl, rfl⟩ | ⟨rfl, rfl⟩ | ⟨rfl, rfl⟩ | ⟨rfl, rfl⟩ | ⟨rfl, rfl⟩ | ⟨rfl, rfl⟩ <;>
      first
        | exact ⟨rfl, rfl⟩
        | (have h := key 0 (by simp) (by simp); simp [Event.answer] at h <;> done)
        | (have h := key 1 (by simp) (by simp); simp [Event.answer] at h <;> done)
        | (have h := key 2 (by simp) (by simp); simp [Event.answer] at h <;> done)

/-- A transfer from its row and its answers. -/
theorem transfer_of_row {s : State} {es : List Event} {st : Status}
    (h : TransferRow s.cfg.sel s.frame es st) (a : AnswersFrom s 0 es) :
    transfer s = (st, afterTransfer s es st) := by
  obtain ⟨es', st', h', a', ht⟩ := transfer_row s
  obtain ⟨rfl, rfl⟩ := transferRow_unique h h' 0 a a'
  exact ht

/-- A good row is the only one with status OK. -/
theorem TransferRow.ok {sel : Sel} {f : List Byte} {es : List Event} (h : TransferRow sel f es .ok) :
    es = goodEvents sel f := by
  rcases h with h | h
  · exact h.1
  · cases sel <;> simp [failRows] at h

theorem TransferRow.status {sel : Sel} {f : List Byte} {es : List Event} {st : Status} (h : TransferRow sel f es st) :
    st = .ok ∨ st = .transportErr ∨ st = .pinErr := by
  rcases h with h | h
  · exact .inl h.2
  · cases sel <;> simp [failRows] at h <;> tauto

theorem failRows_not_ok {sel : Sel} {f : List Byte} {es : List Event} {st : Status} (h : (es, st) ∈ failRows sel f) :
    st ≠ .ok := by
  cases sel <;> simp [failRows] at h
  · rcases h with ⟨_, rfl⟩; simp
  · rcases h with ⟨_, rfl⟩ | ⟨_, rfl⟩ | ⟨_, rfl⟩ | ⟨_, rfl⟩ | ⟨_, rfl⟩ <;> simp

@[simp] theorem goodEvents_length (sel : Sel) (f : List Byte) : (goodEvents sel f).length = callsPerFrame sel := by
  cases sel <;> rfl

theorem goodEvents_answers {s : State} {m : Nat} (sel : Sel) (f : List Byte)
    (h : ∀ j, j < callsPerFrame sel → s.upcoming (m + j) = .ok) : AnswersFrom s m (goodEvents sel f) := by
  intro j hj
  rw [goodEvents_length] at hj
  rw [h j hj]
  cases sel with
  | hw => obtain rfl : j = 0 := by simp [callsPerFrame] at hj; omega
          rfl
  | sw => obtain rfl | rfl | rfl : j = 0 ∨ j = 1 ∨ j = 2 := by simp [callsPerFrame] at hj; omega
          all_goals rfl

theorem goodEvents_select (sel : Sel) (f : List Byte) (l : Level) :
    (goodEvents sel f).foldl (observeSelect sel) l = .high := by cases sel <;> rfl

/-! ### One frame -/

/-- The state after one frame was built and transferred with these events and this status. -/
def afterFrame (s : State) (f : List Byte) (es : List Event) (st : Status) : State :=
  { s with
    fb := f ++ s.fb.drop (2 * s.cfg.n)
    trace := s.trace ++ es
    cs := es.foldl (observeSelect s.cfg.sel) s.cs
    dev := if st = .ok then latchBelow s.cfg f s.dev s.cfg.n else []
    answers := s.answers.drop es.length
    calls := s.calls + es.length }

theorem afterTransfer_build {f : FrameReq} {s : State} (h : f.inChain s.cfg.n) (es : List Event) (st : Status) :
    afterTransfer (build f s) es st = afterFrame s (frameBytes s.cfg.n f) es st := by
  unfold afterTransfer
  rw [build_frame h, build_eq h]
  rfl

theorem sendFrame_row {f : FrameReq} {s : State} (h : f.inChain s.cfg.n) :
    ∃ es st, TransferRow s.cfg.sel (frameBytes s.cfg.n f) es st ∧ AnswersFrom s 0 es
      ∧ sendFrame f s = (st, afterFrame s (frameBytes s.cfg.n f) es st) := by
  obtain ⟨es, st, hr, ha, ht⟩ := transfer_row (build f s)
  rw [build_cfg, build_frame h] at hr
  refine ⟨es, st, hr, fun j hj => by rw [ha j hj, upcoming_build], ?_⟩
  rw [sendFrame, ht, afterTransfer_build h]

theorem sendFrame_of_row {f : FrameReq} {s : State} (h : f.inChain s.cfg.n) {es : List Event} {st : Status}
    (hr : TransferRow s.cfg.sel (frameBytes s.cfg.n f) es st) (ha : AnswersFrom s 0 es) :
    sendFrame f s = (st, afterFrame s (frameBytes s.cfg.n f) es st) := by
  obtain ⟨es', st', hr', ha', ht⟩ := sendFrame_row h
  obtain ⟨rfl, rfl⟩ := transferRow_unique hr hr' 0 ha ha'
  exact ht

/-! ### A sequence of frames -/

/-- The frames of the requests. -/
def framesOf (n : Nat) (fs : List FrameReq) : List (List Byte) := fs.map (frameBytes n)

/-- The state after these frames were all transferred; with no frame, the state itself. -/
def afterGood (s : State) (fs : List (List Byte)) : State :=
  fs.foldl (fun s f => afterFrame s f (goodEvents s.cfg.sel f) .ok) s

@[simp] theorem afterGood_nil (s : State) : afterGood s [] = s := rfl
@[simp] theorem afterGood_cons (s : State) (f : List Byte) (fs : List (List Byte)) :
    afterGood s (f :: fs) = afterGood (afterFrame s f (goodEvents s.cfg.sel f) .ok) fs := rfl

/-- Frames transferred whole, in the terms of `afterFrames`. -/
theorem afterGood_eq (s : State) {fs : List (List Byte)} (h : fs ≠ [])
    (hl : ∀ f ∈ fs, f.length = 2 * s.cfg.n) : afterGood s fs = { afterFrames s fs with status := s.status } := by
  induction fs generalizing s with
  | nil => exact absurd rfl h
  | cons f fs ih =>
    by_cases hfs : fs = []
    · subst hfs
      simp [afterGood, afterFrame, afterFrames, latchAll, goodEvents_select]
    · have hf : (f ++ s.fb.drop (2 * s.cfg.n)).drop (2 * s.cfg.n) = s.fb.drop (2 * s.cfg.n) :=
        List.drop_left' (hl f List.mem_cons_self)
      rw [afterGood_cons, ih (afterFrame s f (goodEvents s.cfg.sel f) .ok) hfs (fun g hg => hl g (List.mem_cons_of_mem _ hg))]
      simp only [afterFrames, afterFrame, hf, latchAll, List.flatMap_cons, List.foldl_cons, List.length_cons,
        goodEvents_length, if_true, List.append_assoc, List.drop_drop, Nat.add_mul, one_mul]
      rw [State.mk.injEq]
      refine ⟨rfl, rfl, rfl, rfl, ?_, rfl, rfl, rfl, rfl, rfl, rfl, rfl, ?_, ?_⟩
      · cases fs with
        | nil => exact absurd rfl hfs
        | cons g gs => rfl
      · rw [Nat.add_comm]
      · omega

theorem afterFrame_answers (s : State) (f : List Byte) (es : List Event) (st : Status) (j : Nat) :
    (afterFrame s f es st).upcoming j = s.upcoming (es.length + j) :=
  upcoming_of_drop rfl rfl j

/-- Every frame transferred whole: when the environment answers `ok` throughout. -/
theorem sendFrames_good {fs : List FrameReq} {s : State} (h : ∀ f ∈ fs, f.inChain s.cfg.n)
    (ha : AnswersOk s (fs.length * callsPerFrame s.cfg.sel)) :
    sendFrames fs s = (.ok, afterGood s (framesOf s.cfg.n fs)) := by
  induction fs generalizing s with
  | nil => rfl
  | cons f fs ih =>
    have hlen : (f :: fs).length * callsPerFrame s.cfg.sel
        = callsPerFrame s.cfg.sel + fs.length * callsPerFrame s.cfg.sel := by
      rw [List.length_cons, Nat.add_mul, one_mul, Nat.add_comm]
    have hf := sendFrame_of_row (h f List.mem_cons_self) (.inl ⟨rfl, rfl⟩)
      (goodEvents_answers (m := 0) s.cfg.sel _ (fun j hj => by rw [Nat.zero_add]; exact ha j (by omega)))
    rw [sendFrames, hf]
    simp only [if_true, framesOf, List.map_cons, afterGood_cons]
    rw [ih (s := afterFrame s (frameBytes s.cfg.n f) (goodEvents s.cfg.sel (frameBytes s.cfg.n f)) .ok)
      (fun g hg => h g (List.mem_cons_of_mem _ hg))]
    · rfl
    · intro j hj
      rw [afterFrame_answers, goodEvents_length]
      exact ha _ (by simp only [afterFrame] at hj; omega)

/-- Good frames and then one that fails: nothing after it is built or sent (rule R165). -/
theorem sendFrames_abort {fs gs : List FrameReq} {f : FrameReq} {s : State} {es : List Event} {st : Status}
    (h : ∀ g ∈ fs, g.inChain s.cfg.n) (hf : f.inChain s.cfg.n)
    (ha : AnswersOk s (fs.length * callsPerFrame s.cfg.sel))
    (hr : (es, st) ∈ failRows s.cfg.sel (frameBytes s.cfg.n f))
    (he : AnswersFrom s (fs.length * callsPerFrame s.cfg.sel) es) :
    sendFrames (fs ++ f :: gs) s
      = (st, afterFrame (afterGood s (framesOf s.cfg.n fs)) (frameBytes s.cfg.n f) es st) := by
  induction fs generalizing s with
  | nil =>
    have := sendFrame_of_row hf (.inr hr) (by simpa using he)
    rw [List.nil_append, sendFrames, this]
    simp [failRows_not_ok hr, framesOf]
  | cons g fs ih =>
    have hlen : (g :: fs).length * callsPerFrame s.cfg.sel
        = callsPerFrame s.cfg.sel + fs.length * callsPerFrame s.cfg.sel := by
      rw [List.length_cons, Nat.add_mul, one_mul, Nat.add_comm]
    have hg := sendFrame_of_row (h g List.mem_cons_self) (.inl ⟨rfl, rfl⟩)
      (goodEvents_answers (m := 0) s.cfg.sel _ (fun j hj => by rw [Nat.zero_add]; exact ha j (by omega)))
    rw [List.cons_append, sendFrames, hg]
    simp only [if_true, framesOf, List.map_cons, afterGood_cons]
    rw [ih (s := afterFrame s (frameBytes s.cfg.n g) (goodEvents s.cfg.sel (frameBytes s.cfg.n g)) .ok)
      (fun g hg => h g (List.mem_cons_of_mem _ hg)) hf]
    · rfl
    · intro j hj
      rw [afterFrame_answers, goodEvents_length]
      exact ha _ (by simp only [afterFrame] at hj; omega)
    · exact hr
    · intro j hj
      rw [he j hj, afterFrame_answers, goodEvents_length, hlen]
      simp only [afterFrame]
      rw [Nat.add_assoc]

/-- Everything a sequence of frames can do, whatever the answers: it is good to its end, or good up to one frame that
fails. -/
theorem sendFrames_cases {fs : List FrameReq} {s : State} (h : ∀ f ∈ fs, f.inChain s.cfg.n) :
    (AnswersOk s (fs.length * callsPerFrame s.cfg.sel)
        ∧ sendFrames fs s = (.ok, afterGood s (framesOf s.cfg.n fs)))
      ∨ ∃ gs f hs es st, fs = gs ++ f :: hs ∧ (es, st) ∈ failRows s.cfg.sel (frameBytes s.cfg.n f)
        ∧ AnswersOk s (gs.length * callsPerFrame s.cfg.sel)
        ∧ AnswersFrom s (gs.length * callsPerFrame s.cfg.sel) es
        ∧ sendFrames fs s
            = (st, afterFrame (afterGood s (framesOf s.cfg.n gs)) (frameBytes s.cfg.n f) es st) := by
  induction fs generalizing s with
  | nil => exact .inl ⟨fun j hj => absurd hj (by simp), rfl⟩
  | cons f fs ih =>
    obtain ⟨es, st, hr, ha, hf⟩ := sendFrame_row (h f List.mem_cons_self)
    rcases hr with ⟨rfl, rfl⟩ | hr
    · have hok : ∀ j, j < callsPerFrame s.cfg.sel → s.upcoming j = .ok := by
        intro j hj
        have := ha j (by simpa using hj)
        rw [Nat.zero_add] at this
        have hk : ((goodEvents s.cfg.sel (frameBytes s.cfg.n f))[j]?).map Event.answer = some .ok := by
          cases hs : s.cfg.sel with
          | hw => rw [hs] at hj; obtain rfl : j = 0 := by simp [callsPerFrame] at hj; omega
                  rfl
          | sw => rw [hs] at hj; obtain rfl | rfl | rfl : j = 0 ∨ j = 1 ∨ j = 2 := by simp [callsPerFrame] at hj; omega
                  all_goals rfl
        rw [hk] at this
        exact (Option.some.inj this).symm
      have hstep : ∀ m, (m + 1) * callsPerFrame s.cfg.sel
          = callsPerFrame s.cfg.sel + m * callsPerFrame s.cfg.sel := by
        intro m; rw [Nat.add_mul, one_mul, Nat.add_comm]
      have hrest : ∀ m, AnswersOk (afterFrame s (frameBytes s.cfg.n f) (goodEvents s.cfg.sel (frameBytes s.cfg.n f)) .ok)
            (m * callsPerFrame s.cfg.sel) → AnswersOk s ((m + 1) * callsPerFrame s.cfg.sel) := by
        intro m hm j hj
        by_cases hjc : j < callsPerFrame s.cfg.sel
        · exact hok j hjc
        · rw [hstep] at hj
          have := hm (j - callsPerFrame s.cfg.sel) (by omega)
          rw [afterFrame_answers, goodEvents_length] at this
          rwa [show callsPerFrame s.cfg.sel + (j - callsPerFrame s.cfg.sel) = j by omega] at this
      rw [sendFrames, hf]
      simp only [if_true]
      rcases ih (s := afterFrame s (frameBytes s.cfg.n f) (goodEvents s.cfg.sel (frameBytes s.cfg.n f)) .ok)
          (fun g hg => h g (List.mem_cons_of_mem _ hg)) with ⟨h1, h2⟩ | ⟨gs, g, hs, es, st, h1, h2, h3, h4, h5⟩
      · exact .inl ⟨hrest _ h1, by rw [h2]; rfl⟩
      · refine .inr ⟨f :: gs, g, hs, es, st, by rw [h1]; rfl, h2, hrest _ h3, ?_, by rw [h5]; rfl⟩
        intro j hj
        rw [h4 j hj, afterFrame_answers, goodEvents_length, List.length_cons, hstep]
        simp only [afterFrame]
        rw [Nat.add_assoc]
    · refine .inr ⟨[], f, fs, es, st, rfl, hr, fun j hj => absurd hj (by simp), by simpa using ha, ?_⟩
      rw [sendFrames, hf]
      simp [failRows_not_ok hr, framesOf]

/-- A property every frame keeps is kept by a sequence of frames. -/
theorem sendFrames_keeps {P : State → Prop} (hP : ∀ f s, P s → P (sendFrame f s).2) (fs : List FrameReq) {s : State}
    (h : P s) : P (sendFrames fs s).2 := by
  induction fs generalizing s with
  | nil => exact h
  | cons f fs ih =>
    have := hP f s h
    rw [sendFrames]
    rcases hf : sendFrame f s with ⟨st, t⟩
    rw [hf] at this
    dsimp only
    split
    · exact ih this
    · exact this

end Sys2Proof.Machine
end

