-- ==== Sys2Proof/Laws/Commands.lean ====
section
/-! SUPPORT. Everything a command can do, said once: it is an encoder, or it is refused by one of the three tests, or it
sends its frames (rules R131, R207). -/

namespace Sys2Proof.Machine

theorem complete_refused {st : Status} (h : st ≠ .ok) (s : State) : complete st s = refusedWith st s := by
  have : faultAfter s.fault st = true := by cases st <;> simp [faultAfter] at h ⊢
  apply State.ext <;> simp [this]

/-- The frame requests of every command, as its meaning sends them. -/
def requestsOf (c : Cfg) : Instr → List FrameReq
  | .segenc _ _ => []
  | .bcdenc _ => []
  | .wrraw k reg data => [.target k.toNat reg data]
  | .wrreg k name data => [.target k.toNat (c.addrOf name) data]
  | .bcraw reg data => [.all reg data]
  | .draw digit data => if h : digit < 8 then [.target 0 (c.addrOf (.digit ⟨digit, h⟩)) data] else []
  | .pwron => [.all (c.addrOf .shutdown) (c.powerOf .normalOperation)]
  | .pwroff => [.all (c.addrOf .shutdown) (c.powerOf .shutdownMode)]
  | .setshdn mode => [.all (c.addrOf .shutdown) (c.powerOf mode)]
  | .setdec k mode => [.target k.toNat (c.addrOf .decodeMode) (c.decodeOf mode)]
  | .setint k level =>
    if h : level < 16 then [.target k.toNat (c.addrOf .intensity) (c.intensityOf ⟨level, h⟩)] else []
  | .setinta level => if h : level < 16 then [.all (c.addrOf .intensity) (c.intensityOf ⟨level, h⟩)] else []
  | .setscan k limit =>
    if h : limit < 8 then [.target k.toNat (c.addrOf .scanLimit) (c.scanOf ⟨limit, h⟩)] else []
  | .settest k mode => [.target k.toNat (c.addrOf .displayTest) (c.testOf mode)]
  | .settesta mode => [.all (c.addrOf .displayTest) (c.testOf mode)]
  | .clr k => (List.finRange 8).map (fun i => .target k.toNat (c.addrOf (.digit i)) 0x00)
  | .clra => (List.finRange 8).map (fun i => .all (c.addrOf (.digit i)) 0x00)
  | .wrdig8 k buf => (List.finRange 8).map (fun i => .target k.toNat (c.addrOf (.digit i)) (buf.get i))
  | .wrstr k dots buf => stringFrames c k .noDecode (fun j => segmentEncode c (buf.get j) (dotOf dots j))
  | .wrbcd k buf => stringFrames c k .codeBDigits7_0 (fun j => bcdEncode c (buf.get j))

/-- What a command that sends frames leaves, with every test in its place (rule R207). -/
def outcomeOf (i : Instr) (s : State) : State :=
  if s.lc ≠ .ready then refusedWith .notReady s
  else if legalFor s.cfg.n i = false then refusedWith .illegalCmd s
  else if indexInRange s.cfg.n (deviceOf i) = false then refusedWith .rangeErr s
  else complete (sendFrames (requestsOf s.cfg i) s).1 (sendFrames (requestsOf s.cfg i) s).2

theorem legalFor_of_wf {n : Nat} {i : Instr} (h : i.wellFormed = true) (hd : i.mnemonic ≠ .DRAW) :
    legalFor n i = true := by
  simp [legalFor, h, hd]

/-- A meaning is its work performed. -/
theorem exec_eq (i : Instr) (s : State) : exec i s = .next (perform (workOf s.cfg i) s) := by cases i <;> rfl

/-- The work of a command that is legal here and no encoder: its device index and its frames. -/
theorem workOf_legal {c : Cfg} {i : Instr} (he : isEncoder i = false) (hl : legalFor c.n i = true) :
    workOf c i = .frames (deviceOf i) (requestsOf c i) := by
  cases i with
  | segenc => simp [isEncoder, Instr.mnemonic] at he
  | bcdenc => simp [isEncoder, Instr.mnemonic] at he
  | draw digit data =>
    obtain ⟨h8, hn⟩ : digit < 8 ∧ c.n = 1 := by simpa [legalFor, Instr.wellFormed, Instr.mnemonic] using hl
    simp [workOf, workDraw, requestsOf, deviceOf, h8, hn]
  | setint k level =>
    have h : level < 16 := by simpa [legalFor, Instr.wellFormed, Instr.mnemonic] using hl
    simp [workOf, workSetint, requestsOf, deviceOf, oneTarget, h]
  | setinta level =>
    have h : level < 16 := by simpa [legalFor, Instr.wellFormed, Instr.mnemonic] using hl
    simp [workOf, workSetinta, requestsOf, deviceOf, oneBroadcast, h]
  | setscan k limit =>
    have h : limit < 8 := by simpa [legalFor, Instr.wellFormed, Instr.mnemonic] using hl
    simp [workOf, workSetscan, requestsOf, deviceOf, oneTarget, h]
  | _ => rfl

/-- The work of a command that is not legal here. -/
theorem workOf_illegal {c : Cfg} {i : Instr} (hl : legalFor c.n i = false) : workOf c i = .illegal := by
  cases i with
  | draw digit data =>
    by_cases h8 : digit < 8
    · have hn : ¬ c.n = 1 := by simpa [legalFor, Instr.wellFormed, Instr.mnemonic, h8] using hl
      simp [workOf, workDraw, h8, hn]
    · simp [workOf, workDraw, h8]
  | setint k level =>
    have h : ¬ level < 16 := by simpa [legalFor, Instr.wellFormed, Instr.mnemonic] using hl
    simp [workOf, workSetint, h]
  | setinta level =>
    have h : ¬ level < 16 := by simpa [legalFor, Instr.wellFormed, Instr.mnemonic] using hl
    simp [workOf, workSetinta, h]
  | setscan k limit =>
    have h : ¬ limit < 8 := by simpa [legalFor, Instr.wellFormed, Instr.mnemonic] using hl
    simp [workOf, workSetscan, h]
  | _ => simp [legalFor, Instr.wellFormed, Instr.mnemonic] at hl

/-- The work of an encoder is its byte. -/
theorem workOf_encoder {c : Cfg} {i : Instr} (he : isEncoder i = true) : ∃ v, workOf c i = .result v := by
  cases i <;> simp [isEncoder, Instr.mnemonic] at he
  · exact ⟨_, rfl⟩
  · exact ⟨_, rfl⟩

/-- The tests before the first frame of a command that sends frames, said once (rule R207). -/
theorem enter_eq (go : List FrameReq → State → State) {i : Instr} (he : isEncoder i = false) (s : State) :
    enter go (workOf s.cfg i) s =
      if s.lc ≠ .ready then refusedWith .notReady s
      else if legalFor s.cfg.n i = false then refusedWith .illegalCmd s
      else if indexInRange s.cfg.n (deviceOf i) = false then refusedWith .rangeErr s
      else go (requestsOf s.cfg i) s := by
  by_cases hl : legalFor s.cfg.n i = true
  · simp only [workOf_legal he hl, enter, hl, complete_refused (show Status.notReady ≠ .ok by simp),
      complete_refused (show Status.rangeErr ≠ .ok by simp), Bool.true_eq_false, if_false]
  · rw [Bool.not_eq_true] at hl
    simp only [workOf_illegal hl, enter, refuseIllegal, hl, complete_refused (show Status.notReady ≠ .ok by simp),
      complete_refused (show Status.illegalCmd ≠ .ok by simp), if_true]

/-- Every command but the two encoders, said once. -/
theorem exec_sending {i : Instr} (h : isEncoder i = false) (s : State) : exec i s = .next (outcomeOf i s) := by
  rw [exec_eq, perform, enter_eq _ h]; rfl

/-- The two encoders: one result and the status OK. -/
theorem exec_encoder {i : Instr} (h : isEncoder i = true) (s : State) :
    ∃ v, exec i s = .next { s with res := v, status := .ok } := by
  obtain ⟨v, hv⟩ := workOf_encoder (c := s.cfg) h
  exact ⟨v, by rw [exec_eq, perform, hv]; simp [enter, complete, faultAfter]⟩

theorem stringFrames_inChain {c : Cfg} {n : Nat} {k : Byte} (hk : k.toNat < n) (m : DecodeMode) (code : Fin 8 → Byte) :
    ∀ f ∈ stringFrames c k m code, f.inChain n := by
  intro f hf
  rcases List.mem_cons.1 hf with rfl | hf
  · exact hk
  · obtain ⟨j, -, rfl⟩ := List.mem_map.1 hf
    exact hk

/-- The frame requests name devices of the chain. -/
theorem requestsOf_inChain {i : Instr} {s : State} (hl : legalFor s.cfg.n i = true)
    (hr : indexInRange s.cfg.n (deviceOf i) = true) : ∀ f ∈ requestsOf s.cfg i, f.inChain s.cfg.n := by
  intro f hf
  cases i with
  | draw digit data =>
    simp only [legalFor, Instr.mnemonic, Bool.and_eq_true, bne_self_eq_false, Bool.false_or, beq_iff_eq] at hl
    simp only [requestsOf] at hf
    split at hf <;> simp at hf
    subst hf; show 0 < s.cfg.n; omega
  | wrstr k dots buf => exact stringFrames_inChain (by simpa [deviceOf, indexInRange] using hr) _ _ f hf
  | wrbcd k buf => exact stringFrames_inChain (by simpa [deviceOf, indexInRange] using hr) _ _ f hf
  | _ =>
    simp only [deviceOf, indexInRange, decide_eq_true_eq] at hr
    simp only [requestsOf] at hf
    first
      | exact absurd hf (List.not_mem_nil)
      | (simp at hf; obtain ⟨_, rfl⟩ := hf; exact hr)

/-- Requests and frames agree for a legal configuration. -/
theorem framesOf_requestsOf {c : Cfg} (h : c.legal = true) (i : Instr) :
    framesOf c.n (requestsOf c i) = commandFrames c i := by
  cases i with
  | draw digit data =>
    simp only [requestsOf, commandFrames]
    split <;> simp [framesOf, frameBytes, legal_digit h]
  | setint k level => simp only [requestsOf, commandFrames]; split <;> simp [framesOf, frameBytes]
  | setinta level => simp only [requestsOf, commandFrames]; split <;> simp [framesOf, frameBytes]
  | setscan k limit => simp only [requestsOf, commandFrames]; split <;> simp [framesOf, frameBytes]
  | clr k => simp [requestsOf, commandFrames, framesOf, frameBytes, upwardFrames, legal_digit h]
  | clra => simp [requestsOf, commandFrames, framesOf, frameBytes, legal_digit h]
  | wrdig8 k buf => simp [requestsOf, commandFrames, framesOf, frameBytes, upwardFrames, legal_digit h]
  | wrstr k dots buf =>
    simp [requestsOf, commandFrames, framesOf, frameBytes, stringFrames, downwardFrames, legal_digit h, stringDigit,
      Fin.rev]
    intro j; congr 2; omega
  | wrbcd k buf =>
    simp [requestsOf, commandFrames, framesOf, frameBytes, stringFrames, downwardFrames, legal_digit h, stringDigit,
      Fin.rev]
    intro j; congr 2; omega
  | _ => rfl

end Sys2Proof.Machine
end

