-- ==== Sys2Proof/Laws/Outcomes.lean ====
section
/-! SUPPORT. What a sequence of frames keeps, which statuses it can end in, and the outcomes of a command told apart:
refused by one of the three tests, or performed; and a performed command that ends in OK (rules R131, R165, R206, R207). -/

namespace Sys2Proof.Machine

/-- Every frame has `2 * N` bytes (rule R46). -/
theorem framesOf_length {n : Nat} {fs : List FrameReq} : ∀ f ∈ framesOf n fs, f.length = 2 * n := by
  intro f hf
  obtain ⟨r, -, rfl⟩ := List.mem_map.1 hf
  simp

/-- What frames transferred whole leave alone, and what they add to `TRACE` and `DEV`. -/
theorem afterGood_fields (s : State) (fs : List (List Byte)) (hl : ∀ f ∈ fs, f.length = 2 * s.cfg.n) :
    (afterGood s fs).cfg = s.cfg ∧ (afterGood s fs).lc = s.lc ∧ (afterGood s fs).fault = s.fault
    ∧ (afterGood s fs).cmd = s.cmd ∧ (afterGood s fs).res = s.res ∧ (afterGood s fs).port = s.port
    ∧ (afterGood s fs).trace = s.trace ++ fs.flatMap (goodEvents s.cfg.sel)
    ∧ (afterGood s fs).fb.drop (2 * s.cfg.n) = s.fb.drop (2 * s.cfg.n)
    ∧ (afterGood s fs).dev = latchAll s.cfg fs s.dev := by
  by_cases h : fs = []
  · subst h; simp [latchAll]
  · rw [afterGood_eq s h hl]
    refine ⟨rfl, rfl, rfl, rfl, rfl, rfl, rfl, ?_, rfl⟩
    have : (fs.getLastD []).length = 2 * s.cfg.n := by
      rw [List.getLastD_eq_getLast?, List.getLast?_eq_some_getLast h]
      exact hl _ (List.getLast_mem h)
    exact List.drop_left' this

/-- The statuses a sequence of frames can end in; PIN_ERR in the `SW` variant only (rules R201, R202). -/
theorem sendFrames_status {fs : List FrameReq} {s : State} (h : ∀ f ∈ fs, f.inChain s.cfg.n) :
   (sendFrames fs s).1 = .ok ∨ (sendFrames fs s).1 = .transportErr ∨ ((sendFrames fs s).1 = .pinErr ∧ s.cfg.sel = .sw) := by
  rcases sendFrames_cases h with ⟨_, e⟩ | ⟨gs, f, hs, es, st, _, hr, _, _, e⟩
  · rw [e]; exact .inl rfl
  · rw [e]
    rcases hsel : s.cfg.sel <;> rw [hsel] at hr <;> simp [failRows] at hr ⊢ <;> tauto

/-- What a sequence of frames leaves alone, whatever the answers. -/
theorem sendFrames_fields {fs : List FrameReq} {s : State} (h : ∀ f ∈ fs, f.inChain s.cfg.n) :
    (sendFrames fs s).2.cfg = s.cfg ∧ (sendFrames fs s).2.lc = s.lc ∧ (sendFrames fs s).2.fault = s.fault
    ∧ (sendFrames fs s).2.cmd = s.cmd ∧ (sendFrames fs s).2.res = s.res ∧ (sendFrames fs s).2.port = s.port
    ∧ (∃ es, (sendFrames fs s).2.trace = s.trace ++ es)
    ∧ (sendFrames fs s).2.fb.drop (2 * s.cfg.n) = s.fb.drop (2 * s.cfg.n) := by
  rcases sendFrames_cases h with ⟨_, e⟩ | ⟨gs, f, hs, es, st, _, hr, _, _, e⟩
  · rw [e]
    obtain ⟨g1,g2,g3,g4,g5,g6,g7,g8,g9⟩ := afterGood_fields s (framesOf s.cfg.n fs) framesOf_length
    exact ⟨g1,g2,g3,g4,g5,g6,⟨_, g7⟩,g8⟩
  · rw [e]
    obtain ⟨g1,g2,g3,g4,g5,g6,g7,g8,g9⟩ := afterGood_fields s (framesOf s.cfg.n gs) framesOf_length
    refine ⟨g1,g2,g3,g4,g5,g6,⟨goodEvents s.cfg.sel |> (framesOf s.cfg.n gs).flatMap |> (· ++ es), ?_⟩, ?_⟩
    · show (afterGood _ _).trace ++ es = _
      rw [g7]; simp
    · show (frameBytes s.cfg.n f ++ (afterGood s _).fb.drop (2 * (afterGood s _).cfg.n)).drop _ = _
      rw [g1, List.drop_left' (by simp), g8]

theorem performed_range {i : Instr} {s : State} (h : Performed i s) : indexInRange s.cfg.n (deviceOf i) = true := by
    cases hd : deviceOf i with
    | none => rfl
    | some k => simpa [indexInRange] using h.inRange k hd

/-- A command that passes the three tests sends its frames and completes with their status. -/
theorem outcomeOf_performed {i : Instr} {s : State} (h : Performed i s) :
    outcomeOf i s = complete (sendFrames (requestsOf s.cfg i) s).1 (sendFrames (requestsOf s.cfg i) s).2 := by
  have hr : indexInRange s.cfg.n (deviceOf i) = true := by
    cases hd : deviceOf i with
    | none => rfl
    | some k => simpa [indexInRange] using h.inRange k hd
  simp [outcomeOf, h.ready, h.legal, hr]

/-- The four outcomes of a command that sends frames (rule R207). -/
theorem outcome_refused_cases (i : Instr) (s : State) :
   (outcomeOf i s = refusedWith .notReady s ∧ s.lc ≠ .ready) ∨ (outcomeOf i s = refusedWith .illegalCmd s ∧ s.lc = .ready ∧ legalFor s.cfg.n i = false)
   ∨ (outcomeOf i s = refusedWith .rangeErr s ∧ s.lc = .ready ∧ legalFor s.cfg.n i = true ∧ indexInRange s.cfg.n (deviceOf i) = false)
   ∨ (outcomeOf i s = complete (sendFrames (requestsOf s.cfg i) s).1 (sendFrames (requestsOf s.cfg i) s).2 ∧ Performed i s) := by
  unfold outcomeOf
  by_cases h1 : s.lc = .ready
  · by_cases h2 : legalFor s.cfg.n i = true
    · by_cases h3 : indexInRange s.cfg.n (deviceOf i) = true
      · simp only [h1, h2, h3]; simp
        exact ⟨h1, h2, fun k hk => by simpa [hk, indexInRange] using h3⟩
      · simp [h1, h2, h3]
    · simp [h1, h2]
  · simp [h1]

theorem encoder_of_requests {c : Cfg} {i : Instr} (h : requestsOf c i ≠ []) : isEncoder i = false := by
  cases i <;> first | rfl | exact absurd rfl h

/-- A performed command whose calls are all answered `ok`. -/
theorem exec_good {i : Instr} {s : State} (h : Performed i s) (hne : requestsOf s.cfg i ≠ [])
    (ha : AnswersOk s ((requestsOf s.cfg i).length * callsPerFrame s.cfg.sel)) :
    exec i s = .next (afterFrames s (framesOf s.cfg.n (requestsOf s.cfg i))) := by
  rw [exec_sending (encoder_of_requests hne), outcomeOf_performed h,
    sendFrames_good (requestsOf_inChain h.legal (performed_range h)) ha,
    afterGood_eq s (by simpa [framesOf] using hne) framesOf_length]
  simp [complete, faultAfter, afterFrames]

/-- A command that ends in OK is an encoder, or it was performed and its frames were all latched. -/
theorem exec_ok_cases {i : Instr} {s t : State} (h : exec i s = .next t) (hst : t.status = .ok) :
   (isEncoder i = true ∧ t = { s with res := t.res, status := .ok }) ∨
   (isEncoder i = false ∧ Performed i s ∧ (framesOf s.cfg.n (requestsOf s.cfg i) ≠ [] → t = afterFrames s (framesOf s.cfg.n (requestsOf s.cfg i)))
     ∧ t.dev = latchAll s.cfg (framesOf s.cfg.n (requestsOf s.cfg i)) s.dev ∧ t.cfg = s.cfg) := by
  cases he : isEncoder i with
  | true =>
    obtain ⟨v, hv⟩ := exec_encoder he s
    rw [hv] at h; injection h with h; subst h
    exact .inl ⟨rfl, rfl⟩
  | false =>
    refine .inr ⟨rfl, ?_⟩
    rw [exec_sending he] at h; injection h with h; subst h
    unfold outcomeOf at hst ⊢
    by_cases h1 : s.lc = .ready
    · simp only [h1, ne_eq, not_true_eq_false, if_false] at hst ⊢
      by_cases h2 : legalFor s.cfg.n i = false
      · simp [h2, refusedWith] at hst
      · simp only [h2] at hst ⊢
        simp at h2
        by_cases h3 : indexInRange s.cfg.n (deviceOf i) = false
        · simp [h3, refusedWith] at hst
        · simp only [h3] at hst ⊢
          simp at h3
          have hp : Performed i s := ⟨h1, h2, fun k hk => by simpa [hk, indexInRange] using h3⟩
          refine ⟨hp, ?_⟩
          rcases sendFrames_cases (requestsOf_inChain h2 h3) with ⟨_, e⟩ | ⟨gs, f, hs, es, st, _, hr, _, _, e⟩
          · rw [e]
            refine ⟨fun hne => ?_, (afterGood_fields _ _ framesOf_length).2.2.2.2.2.2.2.2, (afterGood_fields _ _ framesOf_length).1⟩
            rw [afterGood_eq s hne framesOf_length]
            simp [complete, faultAfter, afterFrames]
          · rw [e] at hst
            exact absurd hst (failRows_not_ok hr)
    · simp [h1, refusedWith] at hst

/-- Every command completes. -/
theorem exec_next (i : Instr) (s : State) : ∃ t, exec i s = .next t := by
  cases he : isEncoder i with
  | true => obtain ⟨v, h⟩ := exec_encoder he s; exact ⟨_, h⟩
  | false => exact ⟨_, exec_sending he s⟩

end Sys2Proof.Machine
end

