-- ==== Sys2Proof/Laws/Calls.lean ====
section
/-! SUPPORT. The block call by call (rule R9): everything one call or completion can do, and the refinement: the calls of a
command, one after another, reach the state its meaning gives, and the calls of the initialization sequence the state
`boot` gives. -/

namespace Sys2Proof.Machine

/-! ### The position inside a command is read by `advance` alone -/

theorem build_setProgress (f : FrameReq) (s : State) (p : Progress) :
    build f (s.setProgress p) = (build f s).setProgress p := by cases f <;> rfl

theorem settle_setProgress (f : List Byte) (b : Bool) (s : State) (p : Progress) :
    settle f b (s.setProgress p) = (settle f b s).setProgress p := by cases b <;> rfl

theorem serWrite_setProgress (f : List Byte) (s : State) (p : Progress) :
    serWrite f (s.setProgress p) = (serWrite f s).setProgress p := rfl

theorem pinLow_setProgress (s : State) (p : Progress) : pinLow (s.setProgress p) = (pinLow s).setProgress p := rfl

theorem pinHigh_setProgress (s : State) (p : Progress) : pinHigh (s.setProgress p) = (pinHigh s).setProgress p := rfl

theorem transfer_setProgress (s : State) (p : Progress) :
    transfer (s.setProgress p) = ((transfer s).1, (transfer s).2.setProgress p) := by
  cases hs : s.cfg.sel <;> cases h0 : s.upcoming 0 <;>
    simp only [transfer, transferHW, transferSW, setProgress_cfg, setProgress_upcoming, setProgress_frame, hs, h0,
      serWrite_setProgress, pinLow_setProgress, pinHigh_setProgress, settle_setProgress]

theorem sendFrame_setProgress (f : FrameReq) (s : State) (p : Progress) :
    sendFrame f (s.setProgress p) = ((sendFrame f s).1, (sendFrame f s).2.setProgress p) := by
  rw [sendFrame, build_setProgress, transfer_setProgress]; rfl

theorem sendFrames_setProgress (fs : List FrameReq) (s : State) (p : Progress) :
    sendFrames fs (s.setProgress p) = ((sendFrames fs s).1, (sendFrames fs s).2.setProgress p) := by
  induction fs generalizing s with
  | nil => rfl
  | cons f fs ih =>
    simp only [sendFrames, sendFrame_setProgress]
    split
    · exact ih _
    · rfl

theorem finish_setProgress (st : Status) (s : State) (p : Progress) :
    finish st (s.setProgress p) = finish st s := by
  unfold finish; rw [setProgress_lc]; split <;> rfl

/-! ### Fields after the end of a command -/

@[simp] theorem finish_cfg (st : Status) (s : State) : (finish st s).cfg = s.cfg := by unfold finish; split <;> rfl
@[simp] theorem finish_lc (st : Status) (s : State) :
    (finish st s).lc = if s.lc = .init then (if st = .ok then .ready else .failed) else s.lc := by
  unfold finish; split <;> rfl
@[simp] theorem finish_status (st : Status) (s : State) : (finish st s).status = st := by unfold finish; split <;> rfl
@[simp] theorem finish_fault (st : Status) (s : State) : (finish st s).fault = faultAfter s.fault st := by
  unfold finish; split <;> rfl
@[simp] theorem finish_fb (st : Status) (s : State) : (finish st s).fb = s.fb := by unfold finish; split <;> rfl
@[simp] theorem finish_cmd (st : Status) (s : State) : (finish st s).cmd = s.cmd := by unfold finish; split <;> rfl
@[simp] theorem finish_res (st : Status) (s : State) : (finish st s).res = s.res := by unfold finish; split <;> rfl
@[simp] theorem finish_trace (st : Status) (s : State) : (finish st s).trace = s.trace := by
  unfold finish; split <;> rfl
@[simp] theorem finish_cs (st : Status) (s : State) : (finish st s).cs = s.cs := by unfold finish; split <;> rfl
@[simp] theorem finish_dev (st : Status) (s : State) : (finish st s).dev = s.dev := by unfold finish; split <;> rfl
@[simp] theorem finish_progress (st : Status) (s : State) : (finish st s).progress = .idle := rfl
@[simp] theorem finish_port (st : Status) (s : State) : (finish st s).port = s.port := by unfold finish; split <;> rfl
@[simp] theorem finish_answers (st : Status) (s : State) : (finish st s).answers = s.answers := by
  unfold finish; split <;> rfl
@[simp] theorem finish_calls (st : Status) (s : State) : (finish st s).calls = s.calls := by
  unfold finish; split <;> rfl

/-! ### BUSY -/

theorem busy_iff (s : State) : s.busy = true ↔ s.lc = .init ∨ s.progress ≠ .idle := by
  unfold State.busy
  cases s.progress <;> simp [Progress.isIdle]

theorem idle_iff (s : State) : s.busy = false ↔ s.lc ≠ .init ∧ s.progress = .idle := by
  rw [← Bool.not_eq_true, busy_iff]; tauto

theorem atRelease_iff (s : State) : s.atRelease = true ↔ s.lc = .init ∧ s.progress = .idle := by
  unfold State.atRelease
  cases s.progress <;> simp [Progress.isIdle]

@[simp] theorem finish_busy (st : Status) (s : State) : (finish st s).busy = false := by
  rw [idle_iff, finish_lc, finish_progress]
  refine ⟨?_, rfl⟩
  split
  · split <;> simp
  · assumption

theorem selectReady_of_busy {s : State} (h : s.atRelease = false) : selectReady s = true := by
  unfold selectReady; rw [h]; cases s.cfg.sel <;> rfl

theorem selectReady_iff (s : State) :
    selectReady s = true ↔ (s.atRelease = true → s.cfg.sel = .sw → s.cs = .high) := by
  unfold selectReady
  cases s.cfg.sel <;> cases s.atRelease <;> simp

/-! ### One call or completion -/

/-- What every call leaves alone, and that at most `k` steps are left after it. -/
structure Called (s t : State) (k : Nat) : Prop where
  cfg : t.cfg = s.cfg
  lc : t.lc = s.lc
  status : t.status = s.status
  fault : t.fault = s.fault
  cmd : t.cmd = s.cmd
  res : t.res = s.res
  port : t.port = s.port
  trace : ∃ e, t.trace = s.trace ++ [e]
  running : t.progress ≠ .idle
  left : stepsLeft t ≤ k

theorem Called.busy {s t : State} {k : Nat} (h : Called s t k) : t.busy = true := (busy_iff t).2 (.inr h.running)

theorem Called.notAtRelease {s t : State} {k : Nat} (h : Called s t k) : t.atRelease = false := by
  rw [← Bool.not_eq_true, atRelease_iff]; exact fun e => h.running e.2

theorem progressAfter_ne_idle (st : Status) (todo : List FrameReq) : progressAfter st todo ≠ .idle := by
  unfold progressAfter; split <;> simp

theorem stepsLeft_progressAfter (s : State) (st : Status) (todo : List FrameReq)
    (h : s.progress = progressAfter st todo) : stepsLeft s ≤ 3 * todo.length + 1 := by
  unfold stepsLeft progressAfter at *
  rw [h]
  by_cases hst : st = .ok <;> simp [hst]

theorem sendFrame_hw {s : State} (hs : s.cfg.sel = .hw) (f : FrameReq) : sendFrame f s = transferHW (build f s) := by
  rw [sendFrame, transfer, build_cfg, hs]

theorem nextFrame_called (f : FrameReq) (rest : List FrameReq) (s : State) :
    Called s (nextFrame (f :: rest) s) (3 * rest.length + 3) := by
  cases hs : s.cfg.sel with
  | hw =>
    simp only [nextFrame, hs, sendFrame_hw hs, transferHW]
    constructor
    case left => exact (stepsLeft_progressAfter _ _ rest rfl).trans (by omega)
    case running => exact progressAfter_ne_idle _ _
    all_goals simp
  | sw =>
    simp only [nextFrame, hs]
    cases h0 : s.upcoming 0 <;> constructor <;> simp [stepsLeft]

theorem writeFrame_called (rest : List FrameReq) (s : State) :
    Called s (writeFrame rest s) (3 * rest.length + 2) := by
  constructor <;> simp [writeFrame, stepsLeft]

theorem releaseSelect_called (r1 : Answer) (r2 : Option Answer) (rest : List FrameReq) (s : State) :
    Called s (releaseSelect r1 r2 rest s) (3 * rest.length + 1) := by
  constructor
  case left => exact stepsLeft_progressAfter _ _ rest rfl
  case running => exact progressAfter_ne_idle _ _
  all_goals simp [releaseSelect]

theorem initFrames_ne_nil (c : Cfg) : initFrames c ≠ [] := by simp [initFrames]

/-- Everything one step of a busy block can do (rule R9): one call, which leaves fewer steps to come, or the
completion. -/
theorem advance_cases {s : State} (h : s.busy = true) :
    (∃ k, k < stepsLeft s ∧ Called s (advance s) k)
      ∨ ∃ st, advance s = finish st s ∧ (s.progress = .ending st ∨ s.progress = .frames [] ∧ st = .ok) := by
  cases hp : s.progress with
  | idle =>
    have hi : s.lc = .init := ((busy_iff s).1 h).resolve_right (by simp [hp])
    obtain ⟨f, rest, hf⟩ := List.exists_cons_of_ne_nil (initFrames_ne_nil s.cfg)
    refine .inl ⟨_, ?_, by simp only [advance, hp, hi, if_true, hf]; exact nextFrame_called f rest s⟩
    simp only [stepsLeft, hp, hf, List.length_cons]; omega
  | frames todo =>
    cases todo with
    | nil => exact .inr ⟨.ok, by simp only [advance, hp, nextFrame], by simp⟩
    | cons f rest =>
      refine .inl ⟨_, ?_, by simp only [advance, hp]; exact nextFrame_called f rest s⟩
      simp only [stepsLeft, hp, List.length_cons]; omega
  | selected todo =>
    refine .inl ⟨_, ?_, by simp only [advance, hp]; exact writeFrame_called todo s⟩
    simp only [stepsLeft, hp]; omega
  | written r todo =>
    refine .inl ⟨_, ?_, by simp only [advance, hp]; exact releaseSelect_called _ _ todo s⟩
    simp only [stepsLeft, hp]; omega
  | lowFailed =>
    refine .inl ⟨_, ?_, by simp only [advance, hp]; exact releaseSelect_called _ _ [] s⟩
    simp [stepsLeft, hp]
  | ending st => exact .inr ⟨st, by simp only [advance, hp], by simp⟩

/-! ### Running on -/

/-- Steps of a busy block lead from the first state to the second. -/
inductive RunsTo : State → State → Prop
  | refl (s : State) : RunsTo s s
  | step {s t : State} : s.busy = true → RunsTo (advance s) t → RunsTo s t

theorem RunsTo.trans {s t u : State} (h : RunsTo s t) (h' : RunsTo t u) : RunsTo s u := by
  induction h with
  | refl => exact h'
  | step hb _ ih => exact .step hb (ih h')

theorem RunsTo.one {s t : State} (hb : s.busy = true) (h : advance s = t) : RunsTo s t := .step hb (h ▸ .refl _)

/-- A property that every step of a busy block keeps is kept along the way. -/
theorem RunsTo.keeps {P : State → Prop} (hP : ∀ s, s.busy = true → P s → P (advance s)) {s t : State} (h : RunsTo s t)
    (hs : P s) : P t := by
  induction h with
  | refl => exact hs
  | step hb _ ih => exact ih (hP _ hb hs)

/-- There is one idle state at the end. -/
theorem RunsTo.unique {s t u : State} (h : RunsTo s t) (h' : RunsTo s u) (ht : t.busy = false) (hu : u.busy = false) :
    t = u := by
  induction h with
  | refl =>
    cases h' with
    | refl => rfl
    | step hb _ => rw [ht] at hb; cases hb
  | step hb _ ih =>
    cases h' with
    | refl => rw [hu] at hb; cases hb
    | step _ h' => exact ih h' ht

theorem stepsLeft_pos (s : State) : 0 < stepsLeft s := by unfold stepsLeft; split <;> omega

theorem runOn_runs (k : Nat) (s : State) (h : s.busy = true → stepsLeft s ≤ k) :
    RunsTo s (runOn k s) ∧ (runOn k s).busy = false := by
  induction k generalizing s with
  | zero =>
    refine ⟨.refl s, ?_⟩
    rw [← Bool.not_eq_true]
    exact fun hb => absurd (h hb) (by have := stepsLeft_pos s; omega)
  | succ k ih =>
    cases hb : s.busy with
    | false => rw [runOn, hb]; exact ⟨.refl s, hb⟩
    | true =>
      rw [runOn, hb]
      obtain ⟨h1, h2⟩ := ih (advance s) (fun hb' => by
        rcases advance_cases hb with ⟨m, hm, hc⟩ | ⟨st, e, _⟩
        · have := h hb; have := hc.left; omega
        · rw [e, finish_busy] at hb'; cases hb')
      exact ⟨.step hb h1, h2⟩

/-- What is running comes to its completion. -/
theorem runOut_runs (s : State) : RunsTo s (runOut s) := (runOn_runs _ s (fun _ => le_rfl)).1
@[simp] theorem runOut_busy (s : State) : (runOut s).busy = false := (runOn_runs _ s (fun _ => le_rfl)).2

theorem runOut_eq {s t : State} (h : RunsTo s t) (ht : t.busy = false) : runOut s = t :=
  (runOut_runs s).unique h (runOut_busy s) ht

/-- Running out of a busy state ends in a completion of what the calls before it left. -/
theorem runOut_cases {s : State} (h : s.busy = true) :
    ∃ st u, runOut s = finish st u ∧ u.cfg = s.cfg ∧ u.lc = s.lc ∧ u.status = s.status ∧ u.fault = s.fault
      ∧ u.cmd = s.cmd ∧ u.res = s.res ∧ u.port = s.port ∧ ∃ es, u.trace = s.trace ++ es := by
  suffices H : ∀ {s t : State}, RunsTo s t → s.busy = true → t.busy = false →
      ∃ st u, t = finish st u ∧ u.cfg = s.cfg ∧ u.lc = s.lc ∧ u.status = s.status ∧ u.fault = s.fault
      ∧ u.cmd = s.cmd ∧ u.res = s.res ∧ u.port = s.port ∧ ∃ es, u.trace = s.trace ++ es from
    H (runOut_runs s) h (runOut_busy s)
  intro s t hr
  induction hr with
  | refl => intro h1 h2; rw [h1] at h2; cases h2
  | @step s t hb hr ih =>
    intro _ ht
    rcases advance_cases hb with ⟨k, _, hc⟩ | ⟨st, e, _⟩
    · obtain ⟨st, u, rfl, h1, h2, h3, h4, h5, h6, h7, es, h8⟩ := ih hc.busy ht
      obtain ⟨e, he⟩ := hc.trace
      exact ⟨st, u, rfl, h1.trans hc.cfg, h2.trans hc.lc, h3.trans hc.status, h4.trans hc.fault, h5.trans hc.cmd,
        h6.trans hc.res, h7.trans hc.port, e :: es, by rw [h8, he, List.append_assoc]; rfl⟩
    · refine ⟨st, s, ?_, rfl, rfl, rfl, rfl, rfl, rfl, rfl, [], (List.append_nil _).symm⟩
      rw [e] at hr
      cases hr with
      | refl => rfl
      | step hb' _ => rw [finish_busy] at hb'; cases hb'

/-! ### The refinement -/

theorem swStatus_eq_ok (r1 r2 : Answer) : (swStatus .ok (some r1) r2 == .ok) = (r1 == .ok && r2 == .ok) := by
  cases r1 <;> cases r2 <;> rfl

theorem swStatus_low (r : Answer) : swStatus .err none r = .pinErr := by simp [swStatus]

/-- The calls of one frame reach what `sendFrame` gives (rules R124, R125, R128). -/
theorem nextFrame_runs (f : FrameReq) (rest : List FrameReq) (s : State) :
    RunsTo (nextFrame (f :: rest) s)
      ((sendFrame f s).2.setProgress (progressAfter (sendFrame f s).1 rest)) := by
  cases hs : s.cfg.sel with
  | hw => simp only [nextFrame, hs]; exact .refl _
  | sw =>
    have hsend : sendFrame f s = transferSW (build f s) := by rw [sendFrame, transfer, build_cfg, hs]
    cases h0 : s.upcoming 0 with
    | ok =>
      have h0' : (build f s).upcoming 0 = .ok := by simp [h0]
      simp only [nextFrame, hs, h0, hsend, transferSW, h0']
      refine .step ((busy_iff _).2 (.inr (by simp))) (.step ((busy_iff _).2 (.inr (by simp [advance, writeFrame]))) ?_)
      simp only [advance, setProgress_progress, writeFrame, releaseSelect, setProgress_frame, setProgress_upcoming,
        serWrite_setProgress, pinHigh_setProgress, settle_setProgress, setProgress_setProgress, serWrite_frame,
        pinLow_frame, upcoming_serWrite, upcoming_pinLow, swStatus_eq_ok]
      exact .refl _
    | err =>
      have h0' : (build f s).upcoming 0 = .err := by simp [h0]
      simp only [nextFrame, hs, h0, hsend, transferSW, h0']
      refine .step ((busy_iff _).2 (.inr (by simp))) ?_
      simp only [advance, setProgress_progress, releaseSelect, setProgress_frame, setProgress_upcoming,
        pinHigh_setProgress, settle_setProgress, setProgress_setProgress, pinLow_frame, upcoming_pinLow, swStatus_low]
      exact .refl _

/-- The calls of a sequence of frames reach what `sendFrames` gives, and its completion (rules R127, R165). -/
theorem nextFrame_runs_all (fs : List FrameReq) (s : State) :
    RunsTo (nextFrame fs s) (finish (sendFrames fs s).1 (sendFrames fs s).2) := by
  induction fs generalizing s with
  | nil => exact .refl _
  | cons f fs ih =>
    refine (nextFrame_runs f fs s).trans ?_
    have hb : ((sendFrame f s).2.setProgress (progressAfter (sendFrame f s).1 fs)).busy = true :=
      (busy_iff _).2 (.inr (progressAfter_ne_idle _ _))
    refine .step hb ?_
    rcases hf : sendFrame f s with ⟨st, t⟩
    by_cases hst : st = .ok
    · simp only [sendFrames, hf, hst, if_true, advance, setProgress_progress, progressAfter]
      have h := ih (t.setProgress (.frames fs))
      rw [sendFrames_setProgress, finish_setProgress] at h
      exact h
    · simp only [sendFrames, hf, hst, if_false, advance, setProgress_progress, progressAfter]
      rw [finish_setProgress]
      exact .refl _

theorem finish_eq_complete {s : State} (st : Status) (hl : s.lc ≠ .init) (hp : s.progress = .idle) :
    finish st s = complete st s := by
  unfold finish; rw [if_neg hl]; apply State.ext <;> simp [hp]

theorem finish_eq_finishInit {s : State} (st : Status) (hl : s.lc = .init) (hp : s.progress = .idle) :
    finish st s = finishInit st s := by
  unfold finish; rw [if_pos hl]; apply State.ext <;> simp [hp]

/-- Where frames are sent they leave the life-cycle state and the position alone. -/
theorem sendFrames_keeps_place (fs : List FrameReq) (s : State) :
    (sendFrames fs s).2.lc = s.lc ∧ (sendFrames fs s).2.progress = s.progress := by
  refine sendFrames_keeps (P := fun t => t.lc = s.lc ∧ t.progress = s.progress) (fun f t ht => ?_) fs ⟨rfl, rfl⟩
  rw [sendFrame]
  obtain ⟨es, st, _, _, e⟩ := transfer_row (build f t)
  rw [e]
  exact ⟨(build_lc f t).trans ht.1, (build_progress f t).trans ht.2⟩

/-- The calls of the initialization sequence reach what its pseudocode gives (rules R232, R233). -/
theorem boot_runs {s : State} (h : s.atRelease = true) : RunsTo s (boot s) ∧ (boot s).busy = false := by
  obtain ⟨hl, hp⟩ := (atRelease_iff s).1 h
  have e : boot s = finish (sendFrames (initFrames s.cfg) s).1 (sendFrames (initFrames s.cfg) s).2 := by
    obtain ⟨h1, h2⟩ := sendFrames_keeps_place (initFrames s.cfg) s
    rw [finish_eq_finishInit _ (h1.trans hl) (h2.trans hp)]; rfl
  rw [e]
  refine ⟨.step ((busy_iff s).2 (.inl hl)) ?_, finish_busy _ _⟩
  have : advance s = nextFrame (initFrames s.cfg) s := by simp only [advance, hp, hl, if_true]
  rw [this]
  exact nextFrame_runs_all _ _

theorem complete_busy {s : State} (h : s.busy = false) (st : Status) : (complete st s).busy = false :=
  (idle_iff _).2 ((idle_iff s).1 h)

/-- The calls of a command reach what its work performed gives (rule R131). -/
theorem startWork_runs (w : Work) {s : State} (h : s.busy = false) :
    RunsTo (startWork w s) (perform w s) ∧ (perform w s).busy = false := by
  obtain ⟨hl, hp⟩ := (idle_iff s).1 h
  have hc := complete_busy h
  unfold startWork perform enter
  split
  · exact ⟨.refl _, (idle_iff _).2 ⟨hl, hp⟩⟩
  · refine ⟨.refl _, ?_⟩
    unfold refuseIllegal; split <;> exact hc _
  · split
    · exact ⟨.refl _, hc _⟩
    · split
      · exact ⟨.refl _, hc _⟩
      · next todo _ _ =>
        obtain ⟨h1, h2⟩ := sendFrames_keeps_place todo s
        have e : sendAll todo s = finish (sendFrames todo s).1 (sendFrames todo s).2 := by
          rw [finish_eq_complete _ (by rw [h1]; exact hl) (h2.trans hp)]; rfl
        rw [e]
        exact ⟨nextFrame_runs_all _ _, finish_busy _ _⟩

/-- Accepting a command at an idle block: it completes at once, as its meaning says and with nothing but a result, or its
first call is made. -/
theorem startWork_cases (w : Work) {s : State} (h : s.busy = false) :
    (startWork w s = perform w s ∧ ∃ st r, perform w s = complete st { s with res := r })
      ∨ ∃ dev f rest k, w = .frames dev (f :: rest) ∧ s.lc = .ready ∧ indexInRange s.cfg.n dev = true
        ∧ startWork w s = nextFrame (f :: rest) s ∧ Called s (startWork w s) k := by
  unfold startWork perform enter
  split
  · exact .inl ⟨rfl, _, _, rfl⟩
  · unfold refuseIllegal
    split <;> exact .inl ⟨rfl, _, _, rfl⟩
  · next dev todo =>
    split
    · exact .inl ⟨rfl, _, _, rfl⟩
    · next hl =>
      split
      · exact .inl ⟨rfl, _, _, rfl⟩
      · next hr =>
        cases todo with
        | nil =>
          obtain ⟨h1, h2⟩ := (idle_iff s).1 h
          exact .inl ⟨by rw [nextFrame, finish_eq_complete _ h1 h2]; rfl, _, _, rfl⟩
        | cons f rest =>
          exact .inr ⟨dev, f, rest, _, rfl, by simpa using hl, by simpa using hr, rfl, nextFrame_called f rest s⟩

/-- The same of a command. -/
theorem start_cases {i : Instr} {s t : State} (h : s.busy = false) (hst : start i s = .next t) :
    (exec i s = .next t ∧ ∃ st r, t = complete st { s with res := r })
      ∨ ∃ dev f rest k, workOf s.cfg i = .frames dev (f :: rest) ∧ s.lc = .ready ∧ indexInRange s.cfg.n dev = true
        ∧ t = nextFrame (f :: rest) s ∧ Called s t k := by
  injection hst with hst
  subst hst
  rcases startWork_cases (workOf s.cfg i) h with ⟨e, hc⟩ | ⟨dev, f, rest, k, h1, h2, h3, h4, h5⟩
  · rw [e]; exact .inl ⟨exec_eq i s, hc⟩
  · exact .inr ⟨dev, f, rest, k, h1, h2, h3, h4, h5⟩

/-- The frames of a command that passed the tests name devices of the chain. -/
theorem workOf_inChain {c : Cfg} {i : Instr} {dev : Option Byte} {todo : List FrameReq}
    (h : workOf c i = .frames dev todo) (hr : indexInRange c.n dev = true) : ∀ f ∈ todo, f.inChain c.n := by
  cases he : isEncoder i with
  | true => obtain ⟨v, hv⟩ := workOf_encoder (c := c) he; rw [hv] at h; cases h
  | false =>
    cases hl : legalFor c.n i with
    | true =>
      rw [workOf_legal he hl] at h
      obtain ⟨rfl, rfl⟩ := Work.frames.inj h
      exact requestsOf_inChain (s := { State.resetOf c with cfg := c }) hl hr
    | false => rw [workOf_illegal hl] at h; cases h

end Sys2Proof.Machine
end

