-- ==== Sys2Proof/Laws/Devices.lean ====
section
/-! SUPPORT. What the devices hold after one frame and after the frames of a digit sequence (rules R51, R160 to R164). -/

namespace Sys2Proof.Machine

/-- One targeted frame, read at any device and register byte. -/
theorem latchAll_read_target {c : Cfg} (k : Nat) (hk : k < c.n) (r v : Byte) (m : Memory) (d : Nat) (x : Byte) :
    (latchBelow c (pairFrame c.n k r v) m c.n).read (devKey d x) = if d = k then afterPair c r v x (m.read (devKey d x)) else m.read (devKey d x) := by
  rw [latchBelow_read]
  by_cases hd : d < c.n
  · rw [if_pos hd, (pairFrame_pair _ _ _ _ _ hd).1, (pairFrame_pair _ _ _ _ _ hd).2]
    by_cases e : d = k
    · simp [e]
    · simp [e, afterPair]
  · rw [if_neg hd, if_neg (by omega)]

/-- A targeted frame that names a register of the closed set is one store. -/
theorem latch_addr_target {c : Cfg} (k : Nat) (hk : k < c.n) (r v : Byte) (h0 : r ≠ 0) (ha : c.isAddress r = true) (m : Memory)  :
    latchBelow c (pairFrame c.n k r v) m c.n = m.write (devKey k r) v := by
  have : ∀ n, n ≤ c.n → latchBelow c (pairFrame c.n k r v) m n = if k < n then m.write (devKey k r) v else m := by
    intro n hn
    induction n with
    | zero => simp [latchBelow]
    | succ n ih =>
      rw [latchBelow, ih (by omega), (pairFrame_pair _ _ _ _ _ (by omega)).1, (pairFrame_pair _ _ _ _ _ (by omega)).2]
      by_cases e : n = k
      · subst e; simp [memWrite, ha]; intro; contradiction
      · simp only [e, if_false, memWrite]
        simp; congr 1; simp; omega
  rw [this _ le_rfl, if_pos hk]

/-- A broadcast frame that names a register of the closed set: every device holds the byte, nothing else changes. -/
theorem latch_addr_all {c : Cfg} (r v : Byte) (h0 : r ≠ 0) (ha : c.isAddress r = true) (m : Memory) (a : Nat) :
    (∀ k, k < c.n → (latchBelow c (everyFrame c.n r v) m c.n).read (devKey k r) = some v) ∧
    ((∀ k, k < c.n → a ≠ devKey k r) → (latchBelow c (everyFrame c.n r v) m c.n).read a = m.read a) := by
  have : ∀ n, n ≤ c.n → (∀ k, k < n → (latchBelow c (everyFrame c.n r v) m n).read (devKey k r) = some v) ∧
    ((∀ k, k < n → a ≠ devKey k r) → (latchBelow c (everyFrame c.n r v) m n).read a = m.read a) := by
    intro n hn
    induction n with
    | zero => simp [latchBelow]
    | succ n ih =>
      obtain ⟨i1, i2⟩ := ih (by omega)
      rw [latchBelow, (everyFrame_pair _ _ _ _ (by omega)).1, (everyFrame_pair _ _ _ _ (by omega)).2]
      simp only [memWrite, show ¬ r = 0x00 from h0, ha, if_false, if_true]
      constructor
      · intro k hk
        rw [Memory.read_write]
        split
        · rfl
        · next hne => exact i1 k (by rcases Nat.lt_succ_iff_lt_or_eq.1 hk with h | rfl; exact h; exact absurd rfl hne)
      · intro h
        rw [Memory.read_write_other _ _ (h n (by omega))]
        exact i2 fun k hk => h k (by omega)
  exact this _ le_rfl

theorem latchAll_cons (c : Cfg) (f : List Byte) (fs : List (List Byte)) (m : Memory) : latchAll c (f :: fs) m = latchAll c fs (latchBelow c f m c.n) := rfl

/-- Targeted frames to different digit registers of one device: each holds its byte, nothing else changes. -/
theorem latchAll_digits {c : Cfg} (hl : c.legal = true) (k : Nat) (hk : k < c.n) (js : List (Fin 8)) (hnd : js.Nodup) (g : Fin 8 → Fin 8) (hg : Function.Injective g) (v : Fin 8 → Byte) (m : Memory) :
   (∀ j ∈ js, (latchAll c (js.map (fun j => pairFrame c.n k (c.addrOf (.digit (g j))) (v j))) m).read (devKey k (c.addrOf (.digit (g j)))) = some (v j)) ∧
   (∀ a, (∀ j ∈ js, a ≠ devKey k (c.addrOf (.digit (g j)))) → (latchAll c (js.map (fun j => pairFrame c.n k (c.addrOf (.digit (g j))) (v j))) m).read a = m.read a) := by
  induction js generalizing m with
  | nil => simp [latchAll]
  | cons j js ih =>
    have ⟨hj, hnd⟩ := List.nodup_cons.1 hnd
    have hw : latchBelow c (pairFrame c.n k (c.addrOf (.digit (g j))) (v j)) m c.n = m.write (devKey k (c.addrOf (.digit (g j)))) (v j) :=
      latch_addr_target k hk _ _ (legal_addr_ne_zero hl (by simp)) (isAddress_addrOf _ _) _
    simp only [List.map_cons, latchAll_cons, hw]
    have ⟨i1, i2⟩ := ih hnd (m.write (devKey k (c.addrOf (.digit (g j)))) (v j))
    have inj : ∀ j', c.addrOf (.digit (g j)) = c.addrOf (.digit (g j')) → j = j' := fun j' e => hg (by simpa using legal_addr_inj hl e)
    constructor
    · intro j' hj'
      rcases List.mem_cons.1 hj' with rfl | hj'
      · rw [i2, Memory.read_write_same]
        intro j'' hj'' e
        have := inj _ (devKey_inj.1 e).2; subst this; exact hj hj''
      · exact i1 j' hj'
    · intro a ha
      rw [i2 a (fun j' hj' => ha j' (List.mem_cons_of_mem _ hj')), Memory.read_write_other _ _ (ha j List.mem_cons_self)]

end Sys2Proof.Machine
end

