-- ==== Sys2Proof/Laws/Encoding.lean ====
section
/-! SUPPORT. The tables of the decoder, said once: rows, ordinals, masks and the bytes of a word (rules R72 to R81). -/

namespace Sys2Proof

/-- The row an opcode finds is a row of the table with that opcode. -/
theorem rowOf_some {op : Byte} {r : Row} (h : rowOf op = some r) : r ∈ opcodeTable ∧ r.op = op := by
  unfold rowOf at h
  exact ⟨List.mem_of_find?_eq_some h, by simpa using List.find?_some h⟩

/-- Ordinals that name a register (rule R29). -/
theorem RegName.ofOrdinal_some (n : Nat) (r : RegName) (h : RegName.ofOrdinal n = some r) : r.ordinal.val = n ∧ n < 14 := by
  unfold RegName.ofOrdinal at h
  split at h <;> first | (cases h; exact ⟨rfl, by omega⟩) | cases h

/-- Rule R30. -/
theorem Power.ofOrdinal_some (n : Nat) (r : Power) (h : Power.ofOrdinal n = some r) : r.ordinal.val = n ∧ n < 2 := by
  unfold Power.ofOrdinal at h
  split at h <;> first | (cases h; exact ⟨rfl, by omega⟩) | cases h

/-- Rule R31. -/
theorem DecodeMode.ofOrdinal_some (n : Nat) (r : DecodeMode) (h : DecodeMode.ofOrdinal n = some r) : r.ordinal.val = n ∧ n < 4 := by
  unfold DecodeMode.ofOrdinal at h
  split at h <;> first | (cases h; exact ⟨rfl, by omega⟩) | cases h

/-- Rule R33. -/
theorem DisplayTest.ofOrdinal_some (n : Nat) (r : DisplayTest) (h : DisplayTest.ofOrdinal n = some r) : r.ordinal.val = n ∧ n < 2 := by
  unfold DisplayTest.ofOrdinal at h
  split at h <;> first | (cases h; exact ⟨rfl, by omega⟩) | cases h

/-- What bytes a word was taken from (rules R72 to R75). -/
theorem takeWord_some {bytes rest : List Byte} {c : CmdWord} (h : takeWord bytes = some (c, rest)) :
  bytes = [c.op, c.dev, c.a, c.b] ++ (if isLong c.op then c.buf.toList else []) ++ rest ∧ (isLong c.op = false → c.buf = Payload.zero) := by
  unfold takeWord at h
  split at h
  · split at h
    · next hl =>
      split at h
      · injection h with h; injection h with h1 h2; subst h1; subst h2; simp [hl]
      · cases h
    · next hl => injection h with h; injection h with h1 h2; subst h1; subst h2; simp at hl; simp [hl]
  · cases h

/-- A byte that must be zero. -/
theorem mask_FF_zero (b : Byte) : b &&& 0xFF = 0 ↔ b = 0 := by
  constructor
  · intro h; apply BitVec.eq_of_getLsbD_eq; intro i hi
    have := congrArg (fun x => x.getLsbD i) h
    simp at this
    rcases i with _|_|_|_|_|_|_|_|i <;> simp_all
    omega
  · rintro rfl; rfl

theorem byte_all {P : Byte → Prop} [∀ b, Decidable (P b)] (h : ∀ n : Fin (2^8), P (BitVec.ofFin n)) (b : Byte) : P b := h b.toFin

set_option maxRecDepth 10000 in
/-- An operand of one bit. -/
theorem mask_FE_zero (b : Byte) : b &&& 0xFE = 0 ↔ b.toNat < 2 := byte_all (P := fun b => b &&& 0xFE = 0 ↔ b.toNat < 2) (by decide) b

set_option maxRecDepth 10000 in
/-- An operand of two bits. -/
theorem mask_FC_zero (b : Byte) : b &&& 0xFC = 0 ↔ b.toNat < 4 := byte_all (P := fun b => b &&& 0xFC = 0 ↔ b.toNat < 4) (by decide) b

set_option maxRecDepth 10000 in
/-- An operand of three bits. -/
theorem mask_F8_zero (b : Byte) : b &&& 0xF8 = 0 ↔ b.toNat < 8 := byte_all (P := fun b => b &&& 0xF8 = 0 ↔ b.toNat < 8) (by decide) b

set_option maxRecDepth 10000 in
/-- An operand of four bits. -/
theorem mask_F0_zero (b : Byte) : b &&& 0xF0 = 0 ↔ b.toNat < 16 := byte_all (P := fun b => b &&& 0xF0 = 0 ↔ b.toNat < 16) (by decide) b

set_option maxRecDepth 10000 in
theorem dot_byte (b : Byte) (h : b &&& 0xFE = 0) : b = if b.getLsbD 0 then 1 else 0 := byte_all (P := fun b => b &&& 0xFE = 0 → b = if b.getLsbD 0 then 1 else 0) (by decide) b h

theorem payload_rebuild (v : Payload) : #v[v[0], v[1], v[2], v[3], v[4], v[5], v[6], v[7]] = v := by
  apply Vector.ext; intro i hi
  have : i = 0 ∨ i = 1 ∨ i = 2 ∨ i = 3 ∨ i = 4 ∨ i = 5 ∨ i = 6 ∨ i = 7 := by omega
  rcases this with rfl|rfl|rfl|rfl|rfl|rfl|rfl|rfl <;> rfl

theorem payload_toList (v : Payload) : v.toList = [v[0], v[1], v[2], v[3], v[4], v[5], v[6], v[7]] := by
  conv_lhs => rw [← payload_rebuild v]
  rfl

/-- The bytes of a format L word. -/
theorem takeWord_long (op dev a b : Byte) (v : Payload) (rest : List Byte) (h : isLong op = true) :
   takeWord ([op, dev, a, b] ++ v.toList ++ rest) = some (⟨op, dev, a, b, v⟩, rest) := by
  rw [payload_toList]; simp [takeWord, h, payload_rebuild]

/-- The bytes of a format S word. -/
theorem takeWord_short (op dev a b : Byte) (rest : List Byte) (h : isLong op = false) :
   takeWord ([op, dev, a, b] ++ rest) = some (⟨op, dev, a, b, Payload.zero⟩, rest) := by
  simp [takeWord, h]

theorem operandsOf_mnemonic {m : Mnemonic} {c : CmdWord} {i : Instr} (h : operandsOf m c = .ok i) : i.mnemonic = m := by
  cases m <;> simp only [operandsOf, typed] at h <;> (try split at h) <;> cases h <;> rfl

end Sys2Proof
end

