-- ==== Sys2Proof/Laws/PerInstr.lean ====
section
/-! SUPPORT. Statements made of every command by its constructor. The family `WordShape`: the first byte of a command's word is
an opcode of the table whose row is the command's, and it alone tells how long the word is (rules R72, R77). -/

namespace Sys2Proof.Laws.WordShape

/-- Rules R72 and R77. -/
def Statement (i : Instr) : Prop :=
  ∃ op operands, encode i = op :: operands ∧ (encode i).length = wordLength op
    ∧ (rowOf op).map Row.mnemonic = some i.mnemonic

theorem segenc (ch : Byte) (dot : Bool) : Statement (.segenc ch dot) := ⟨_, _, rfl, rfl, rfl⟩

theorem bcdenc (ch : Byte) : Statement (.bcdenc ch) := ⟨_, _, rfl, rfl, rfl⟩

theorem wrraw (k : Byte) (reg : Byte) (data : Byte) : Statement (.wrraw k reg data) := ⟨_, _, rfl, rfl, rfl⟩

theorem wrreg (k : Byte) (name : RegName) (data : Byte) : Statement (.wrreg k name data) := ⟨_, _, rfl, rfl, rfl⟩

theorem bcraw (reg : Byte) (data : Byte) : Statement (.bcraw reg data) := ⟨_, _, rfl, rfl, rfl⟩

theorem draw (digit : Nat) (data : Byte) : Statement (.draw digit data) := ⟨_, _, rfl, rfl, rfl⟩

theorem pwron : Statement (.pwron) := ⟨_, _, rfl, rfl, rfl⟩

theorem pwroff : Statement (.pwroff) := ⟨_, _, rfl, rfl, rfl⟩

theorem setshdn (mode : Power) : Statement (.setshdn mode) := ⟨_, _, rfl, rfl, rfl⟩

theorem setdec (k : Byte) (mode : DecodeMode) : Statement (.setdec k mode) := ⟨_, _, rfl, rfl, rfl⟩

theorem setint (k : Byte) (level : Nat) : Statement (.setint k level) := ⟨_, _, rfl, rfl, rfl⟩

theorem setinta (level : Nat) : Statement (.setinta level) := ⟨_, _, rfl, rfl, rfl⟩

theorem setscan (k : Byte) (limit : Nat) : Statement (.setscan k limit) := ⟨_, _, rfl, rfl, rfl⟩

theorem settest (k : Byte) (mode : DisplayTest) : Statement (.settest k mode) := ⟨_, _, rfl, rfl, rfl⟩

theorem settesta (mode : DisplayTest) : Statement (.settesta mode) := ⟨_, _, rfl, rfl, rfl⟩

theorem clr (k : Byte) : Statement (.clr k) := ⟨_, _, rfl, rfl, rfl⟩

theorem clra : Statement (.clra) := ⟨_, _, rfl, rfl, rfl⟩

theorem wrdig8 (k : Byte) (buf : Payload) : Statement (.wrdig8 k buf) := ⟨_, _, rfl, by simp [encode, wordLength, isLong], rfl⟩

theorem wrstr (k : Byte) (dots : Byte) (buf : Payload) : Statement (.wrstr k dots buf) := ⟨_, _, rfl, by simp [encode, wordLength, isLong], rfl⟩

theorem wrbcd (k : Byte) (buf : Payload) : Statement (.wrbcd k buf) := ⟨_, _, rfl, by simp [encode, wordLength, isLong], rfl⟩

end Sys2Proof.Laws.WordShape
end

