-- ==== Sys2Proof/Laws/Step.lean ====
section
/-! SUPPORT. Everything a step can do, said once, at either grain: what is running, an idle step, a reset, bytes that are no
word, a word that is performed and a word that is refused (rules R28, R73, R203, R230, R232); and that a step of the machine
is a run of the spec's steps (rule R9), so that what every call keeps, every step keeps. -/

namespace Sys2Proof.Machine

/-- The requests of the initialization sequence ask for its frames (rule R232). -/
theorem initFrames_framesOf {c : Cfg} (h : c.legal = true) : framesOf c.n (initFrames c) = initSequence c := by
  simp [framesOf, initFrames, initSequence, List.map_flatMap, initDevice, upwardFrames, frameBytes, legal_digit h]; rfl

theorem initFrames_inChain {c : Cfg} : ∀ f ∈ initFrames c, f.inChain c.n := by
  intro f hf
  simp only [initFrames, List.mem_append, List.mem_flatMap, List.mem_range, initDevice, List.mem_singleton] at hf
  rcases hf with ⟨k, hk, hf⟩ | rfl
  · simp at hf
    rcases hf with (rfl | rfl | rfl) | ⟨_, rfl⟩ <;> exact hk
  · trivial

/-- Rule R234. -/
theorem initSequence_length (c : Cfg) : (initSequence c).length = 11 * c.n + 1 := by
  simp [initSequence, upwardFrames, Nat.mul_comm]

theorem initFrames_length {c : Cfg} (h : c.legal = true) : (initFrames c).length = 11 * c.n + 1 := by
  rw [← initSequence_length, ← initFrames_framesOf h]; simp [framesOf]

/-! ### What stops a step -/

theorem guarded_next {s t : State} {o : Host.Outcome State Fault Refusal} :
    guarded s o = .next t ↔ s.cfg.legal = true ∧ selectReady s = true ∧ o = .next t := by
  unfold guarded
  cases s.cfg.legal <;> cases selectReady s <;> simp

theorem guarded_pass {s : State} (hl : s.cfg.legal = true) (hs : selectReady s = true)
    (o : Host.Outcome State Fault Refusal) : guarded s o = o := by simp [guarded, hl, hs]

theorem selectReady_of_idle {s : State} (h : s.busy = false) : selectReady s = true := by
  refine selectReady_of_busy ?_
  rw [← Bool.not_eq_true, atRelease_iff]
  exact fun e => ((idle_iff s).1 h).1 e.1

/-! ### The host's act -/

/-- A word that is no legal command ends in ILLEGAL_CMD or NOT_READY and changes nothing else. -/
theorem rejectWord_eq (op : Byte) (s : State) :
    ∃ st, (st = .illegalCmd ∨ (st = .notReady ∧ s.lc ≠ .ready)) ∧ rejectWord op s = refusedWith st s := by
  unfold rejectWord refuseIllegal
  split
  · exact ⟨_, .inl rfl, complete_refused (by simp) _⟩
  · split
    · next h => exact ⟨_, .inr ⟨rfl, h⟩, complete_refused (by simp) _⟩
    · exact ⟨_, .inl rfl, complete_refused (by simp) _⟩

/-- Everything an act of the host at an idle block can do. -/
theorem hostAct_cases {run : Instr → State → Host.Outcome State Fault Refusal} {s t : State} (hb : s.busy = false)
    (h : hostAct run s = .next t) :
    (s.port = [] ∧ t = s)
      ∨ (∃ acts, s.port = .reset :: acts ∧ t = resetRelease { s with port := acts })
      ∨ (∃ bytes acts, s.port = .word bytes :: acts ∧ takeWord bytes = none ∧ t = { s with port := acts })
      ∨ ∃ bytes acts c rest, s.port = .word bytes :: acts ∧ takeWord bytes = some (c, rest)
        ∧ ((∃ i, decodeFields c = .ok i ∧ run i { s with port := acts, cmd := c } = .next t)
          ∨ ∃ e, decodeFields c = .error e ∧ t = rejectWord c.op { s with port := acts, cmd := c }) := by
  unfold hostAct at h
  split at h
  · next hp => injection h with h; exact .inl ⟨hp, h.symm⟩
  · next bytes acts hp =>
    have hb' : State.busy { s with port := acts } = false := hb
    unfold present at h
    rw [hb'] at h
    simp only [Bool.false_eq_true, if_false] at h
    split at h
    · next ht => injection h with h; exact .inr (.inr (.inl ⟨_, _, hp, ht, h.symm⟩))
    · next c rest ht =>
      refine .inr (.inr (.inr ⟨_, _, _, _, hp, ht, ?_⟩))
      unfold acceptWord at h
      split at h
      · next i hd => exact .inl ⟨_, hd, h⟩
      · next e hd => injection h with h; exact .inr ⟨_, hd, h.symm⟩
  · next acts hp => injection h with h; exact .inr (.inl ⟨_, hp, h.symm⟩)

/-- A whole word that decodes is handed over with its fields in the latch. -/
theorem hostAct_word (run : Instr → State → Host.Outcome State Fault Refusal) {s : State} (hb : s.busy = false)
    {bytes rest : List Byte} {acts : List HostAct} {c : CmdWord} (hp : s.port = .word bytes :: acts)
    (ht : takeWord bytes = some (c, rest)) :
    hostAct run s = acceptWord run c { s with port := acts } := by
  have hb' : State.busy { s with port := acts } = false := hb
  simp only [hostAct, hp, present, hb', ht, Bool.false_eq_true, if_false]

/-! ### Steps -/

/-- The step of a block whose reset has just been released: the whole sequence as its pseudocode gives it. -/
theorem step_release {s : State} (hl : s.cfg.legal = true) (hr : s.atRelease = true)
    (hs : s.cfg.sel = .sw → s.cs = .high) : step s = .next (boot s) := by
  have hb : s.busy = true := (busy_iff s).2 (.inl ((atRelease_iff s).1 hr).1)
  rw [step, guarded_pass hl ((selectReady_iff s).2 fun _ => hs), hb]
  obtain ⟨h1, h2⟩ := boot_runs hr
  simp [runOut_eq h1 h2]

/-- Everything a step can do. -/
theorem step_next_cases {s t : State} (h : step s = .next t) :
    s.cfg.legal = true
      ∧ ((s.busy = true ∧ selectReady s = true ∧ t = runOut s) ∨ (s.busy = false ∧ hostAct exec s = .next t)) := by
  obtain ⟨hl, hs, h⟩ := guarded_next.1 h
  refine ⟨hl, ?_⟩
  cases hb : s.busy with
  | true => rw [hb] at h; injection h with h; exact .inl ⟨rfl, hs, h.symm⟩
  | false => rw [hb] at h; exact .inr ⟨rfl, h⟩

/-- Everything a call-grain step can do. -/
theorem callStep_next_cases {s t : State} (h : callStep s = .next t) :
    s.cfg.legal = true
      ∧ ((s.busy = true ∧ selectReady s = true ∧ t = advance s) ∨ (s.busy = false ∧ hostAct start s = .next t)) := by
  obtain ⟨hl, hs, h⟩ := guarded_next.1 h
  refine ⟨hl, ?_⟩
  cases hb : s.busy with
  | true => rw [hb] at h; injection h with h; exact .inl ⟨rfl, hs, h.symm⟩
  | false => rw [hb] at h; exact .inr ⟨rfl, h⟩

theorem callStep_busy {s : State} (hl : s.cfg.legal = true) (hs : selectReady s = true) (hb : s.busy = true) :
    callStep s = .next (advance s) := by
  rw [callStep, guarded_pass hl hs, hb]; rfl

/-- Everything a step of the spec can do, call by call: of an idle block an act of the host, of a busy one a call or the
completion. Every invariant of the call-grain machine, and through `step_keeps` of `step`, is a case analysis of this. -/
inductive Moves (s : State) : State → Prop
  | stay (hb : s.busy = false) (hp : s.port = []) : Moves s s
  | reset (acts : List HostAct) (hb : s.busy = false) (hp : s.port = .reset :: acts) :
    Moves s (resetRelease { s with port := acts })
  | noWord (bytes : List Byte) (acts : List HostAct) (hb : s.busy = false) (hp : s.port = .word bytes :: acts) :
    Moves s { s with port := acts }
  | complete (bytes : List Byte) (acts : List HostAct) (c : CmdWord) (st : Status) (r : Byte) (hb : s.busy = false)
    (hp : s.port = .word bytes :: acts) : Moves s (complete st { s with port := acts, cmd := c, res := r })
  | command (bytes : List Byte) (acts : List HostAct) (c : CmdWord) (f : FrameReq) (rest : List FrameReq)
    (hb : s.busy = false) (hp : s.port = .word bytes :: acts) (hl : s.lc = .ready)
    (hc : ∀ g ∈ f :: rest, g.inChain s.cfg.n) : Moves s (nextFrame (f :: rest) { s with port := acts, cmd := c })
  | init (f : FrameReq) (rest : List FrameReq) (hr : s.atRelease = true) (hs : s.cfg.sel = .sw → s.cs = .high)
    (hi : initFrames s.cfg = f :: rest) : Moves s (nextFrame (f :: rest) s)
  | next (f : FrameReq) (rest : List FrameReq) (hp : s.progress = .frames (f :: rest)) :
    Moves s (nextFrame (f :: rest) s)
  | write (todo : List FrameReq) (hp : s.progress = .selected todo) : Moves s (writeFrame todo s)
  | release (r : Answer) (todo : List FrameReq) (hp : s.progress = .written r todo) :
    Moves s (releaseSelect .ok (some r) todo s)
  | giveUp (hp : s.progress = .lowFailed) : Moves s (releaseSelect .err none [] s)
  | finish (st : Status) (hp : s.progress = .ending st ∨ s.progress = .frames [] ∧ st = .ok) : Moves s (finish st s)

theorem callStep_moves {s t : State} (h : callStep s = .next t) : s.cfg.legal = true ∧ Moves s t := by
  obtain ⟨hl, ⟨hb, hs, rfl⟩ | ⟨hb, h⟩⟩ := callStep_next_cases h
  · refine ⟨hl, ?_⟩
    cases hp : s.progress with
    | idle =>
      have hi : s.lc = .init := ((busy_iff s).1 hb).resolve_right (by simp [hp])
      have hr := (atRelease_iff s).2 ⟨hi, hp⟩
      obtain ⟨f, rest, hf⟩ := List.exists_cons_of_ne_nil (initFrames_ne_nil s.cfg)
      simp only [advance, hp, hi, if_true, hf]
      exact .init f rest hr ((selectReady_iff s).1 hs hr) hf
    | frames todo =>
      simp only [advance, hp]
      cases todo with
      | nil => exact .finish .ok (.inr ⟨hp, rfl⟩)
      | cons f rest => exact .next f rest hp
    | selected todo => simp only [advance, hp]; exact .write todo hp
    | written r todo => simp only [advance, hp]; exact .release r todo hp
    | lowFailed => simp only [advance, hp]; exact .giveUp hp
    | ending st => simp only [advance, hp]; exact .finish st (.inl hp)
  · refine ⟨hl, ?_⟩
    rcases hostAct_cases hb h with ⟨hp, rfl⟩ | ⟨acts, hp, rfl⟩ | ⟨bytes, acts, hp, _, rfl⟩ |
      ⟨bytes, acts, c, rest, hp, _, ⟨i, _, h⟩ | ⟨e, _, rfl⟩⟩
    · exact .stay hb hp
    · exact .reset acts hb hp
    · exact .noWord bytes acts hb hp
    · rcases start_cases (s := { s with port := acts, cmd := c }) hb h with
        ⟨_, st, r, rfl⟩ | ⟨dev, f, todo, k, hw, hlc, hr, rfl, _⟩
      · exact .complete bytes acts c st r hb hp
      · exact .command bytes acts c f todo hb hp hlc (workOf_inChain hw hr)
    · obtain ⟨st, hst, e⟩ := rejectWord_eq c.op { s with port := acts, cmd := c }
      rw [e, ← complete_refused (by rcases hst with rfl | ⟨rfl, _⟩ <;> simp)]
      exact .complete bytes acts c st s.res hb hp

/-- A step of a block that is not at reset release, with a legal `CFG`, answers. -/
theorem step_next {s : State} (hl : s.cfg.legal = true) (hs : selectReady s = true) : ∃ t, step s = .next t := by
  rw [step, guarded_pass hl hs]
  cases hb : s.busy with
  | true => exact ⟨_, rfl⟩
  | false =>
    simp only [Bool.false_eq_true, if_false]
    unfold hostAct
    split
    · exact ⟨_, rfl⟩
    · unfold present
      split
      · exact ⟨_, rfl⟩
      · split
        · exact ⟨_, rfl⟩
        · unfold acceptWord
          split
          · exact exec_next _ _
          · exact ⟨_, rfl⟩
    · exact ⟨_, rfl⟩

/-! ### A step is a run of calls -/

theorem callRun_succ {s t : State} (h : callStep s = .next t) (k : Nat) : callRun (k + 1) s = callRun k t := by
  rw [callRun, h]

theorem callRun_one (s : State) : callRun 1 s = callStep s := by
  rw [callRun]; cases callStep s <;> rfl

/-- Steps of a busy block are call-grain steps, and the block is busy until the last of them. -/
theorem callRun_of_runs {s t : State} (hr : RunsTo s t) (ht : t.busy = false) (hb : s.busy = true)
    (hl : s.cfg.legal = true) (hs : selectReady s = true) :
    ∃ n, callRun (n + 1) s = .next t ∧ ∀ m, m < n → ∃ u, callRun (m + 1) s = .next u ∧ u.busy = true := by
  induction hr with
  | refl => rw [ht] at hb; cases hb
  | @step s t hb' hr ih =>
    have hc := callStep_busy hl hs hb
    rcases advance_cases hb with ⟨k, _, hcall⟩ | ⟨st, e, _⟩
    · obtain ⟨n, hn, hm⟩ := ih ht hcall.busy (hcall.cfg ▸ hl) (selectReady_of_busy hcall.notAtRelease)
      refine ⟨n + 1, by rw [callRun_succ hc, hn], fun m hlt => ?_⟩
      cases m with
      | zero => exact ⟨_, by rw [callRun_succ hc]; rfl, hcall.busy⟩
      | succ m => rw [callRun_succ hc]; exact hm m (by omega)
    · have hidle : (advance s).busy = false := by rw [e, finish_busy]
      refine ⟨0, ?_, fun m hlt => absurd hlt (by omega)⟩
      rw [callRun_succ hc, (RunsTo.refl _).unique hr hidle ht]; rfl

/-- The refinement (rule R9): a step of the machine is a run of the spec's steps, and the block is busy at every state
between two of them. -/
theorem step_is_callRun (s : State) :
    ∃ n, callRun (n + 1) s = step s ∧ ∀ m, m < n → ∃ u, callRun (m + 1) s = .next u ∧ u.busy = true := by
  have one : callStep s = step s →
      ∃ n, callRun (n + 1) s = step s ∧ ∀ m, m < n → ∃ u, callRun (m + 1) s = .next u ∧ u.busy = true :=
    fun h => ⟨0, by rw [callRun_one, h], fun m hm => absurd hm (by omega)⟩
  by_cases hl : s.cfg.legal = true
  · by_cases hs : selectReady s = true
    · have hstep : step s = if s.busy then .next (runOut s) else hostAct exec s := guarded_pass hl hs _
      have hcall : callStep s = if s.busy then .next (advance s) else hostAct start s := guarded_pass hl hs _
      cases hb : s.busy with
      | true =>
        obtain ⟨n, h1, h2⟩ := callRun_of_runs (runOut_runs s) (runOut_busy s) hb hl hs
        exact ⟨n, by rw [h1, hstep, hb]; rfl, h2⟩
      | false =>
        simp only [hb, Bool.false_eq_true, if_false] at hstep hcall
        rcases hp : s.port with _ | ⟨⟨bytes⟩ | _, acts⟩
        · exact one (by rw [hstep, hcall]; simp only [hostAct, hp])
        · rcases ht : takeWord bytes with _ | ⟨c, rest⟩
          · exact one (by rw [hstep, hcall]; simp only [hostAct, hp, present, ht])
          · rw [hostAct_word _ hb hp ht] at hstep hcall
            rcases hd : decodeFields c with e | i
            · exact one (by rw [hstep, hcall]; simp only [acceptWord, hd])
            · simp only [acceptWord, hd, exec_eq, start] at hstep hcall
              have hidle : (latchCmd c { s with port := acts }).busy = false := hb
              have hu : (latchCmd c { s with port := acts }).cfg.legal = true := hl
              revert hstep hcall hidle hu
              generalize latchCmd c { s with port := acts } = u
              intro hstep hcall hidle hu
              obtain ⟨hr, hdone⟩ := startWork_runs (workOf u.cfg i) hidle
              rcases startWork_cases (workOf u.cfg i) hidle with ⟨he, _⟩ | ⟨_, _, _, _, _, _, _, _, hcalled⟩
              · exact one (by rw [hstep, hcall, he])
              · obtain ⟨n, h1, h2⟩ := callRun_of_runs hr hdone hcalled.busy
                  (by rw [hcalled.cfg]; exact hu)
                  (selectReady_of_busy hcalled.notAtRelease)
                refine ⟨n + 1, by rw [callRun_succ hcall, h1, hstep], fun m hm => ?_⟩
                cases m with
                | zero => exact ⟨_, by rw [callRun_succ hcall]; rfl, hcalled.busy⟩
                | succ m => rw [callRun_succ hcall]; exact h2 m (by omega)
        · exact one (by rw [hstep, hcall]; simp only [hostAct, hp])
    · exact one (by unfold step callStep guarded; simp [hl, hs])
  · exact one (by unfold step callStep guarded; simp [hl])

theorem callRun_keeps {P : State → Prop} (hP : ∀ s t, P s → callStep s = .next t → P t) (n : Nat) {s t : State}
    (hs : P s) (h : callRun n s = .next t) : P t := by
  induction n generalizing s with
  | zero => injection h with h; exact h ▸ hs
  | succ n ih =>
    rcases hc : callStep s with u | r | r
    · rw [callRun_succ hc] at h; exact ih (hP s u hs hc) h
    · rw [callRun, hc] at h; cases h
    · rw [callRun, hc] at h; cases h

/-- What every step of the spec keeps, every step of the machine keeps. -/
theorem step_keeps {P : State → Prop} (hP : ∀ s t, P s → callStep s = .next t → P t) {s t : State} (hs : P s)
    (h : step s = .next t) : P t := by
  obtain ⟨n, hn, _⟩ := step_is_callRun s
  exact callRun_keeps hP _ hs (hn.trans h)

end Sys2Proof.Machine
end

