-- ==== Sys2Proof/Machine/Listing.lean ====
section
/-! DEFINITION. The listing line of a command (rule R82): its mnemonic and its operands in the order dev, a, b, buf, fields
that must be zero left out. Of the spellings the rule allows it takes hexadecimal numbers, member and register names, and
payloads as eight numbers in square brackets. -/

namespace Sys2Proof

/-- One hexadecimal digit. -/
def hexDigit (n : Nat) : String :=
  match n with
  | 0 => "0" | 1 => "1" | 2 => "2" | 3 => "3" | 4 => "4" | 5 => "5" | 6 => "6" | 7 => "7"
  | 8 => "8" | 9 => "9" | 10 => "A" | 11 => "B" | 12 => "C" | 13 => "D" | 14 => "E" | _ => "F"

/-- A byte as a hexadecimal number (rule R6). -/
def hexByte (b : Byte) : String := "0x" ++ hexDigit (b.toNat / 16) ++ hexDigit (b.toNat % 16)

/-- A count of one operand field as a hexadecimal number. -/
def hexCount (n : Nat) : String := hexByte (operandByte n)

/-- The register names of rule R29. -/
def RegName.listing : RegName → String
  | .noOp => "NoOp"
  | .digit i => "Digit" ++ hexDigit i.val
  | .decodeMode => "DecodeMode"
  | .intensity => "Intensity"
  | .scanLimit => "ScanLimit"
  | .shutdown => "Shutdown"
  | .displayTest => "DisplayTest"

def Power.listing : Power → String
  | .shutdownMode => "ShutdownMode"
  | .normalOperation => "NormalOperation"

def DecodeMode.listing : DecodeMode → String
  | .noDecode => "NoDecode"
  | .codeBDigit0 => "CodeBDigit0"
  | .codeBDigits3_0 => "CodeBDigits3_0"
  | .codeBDigits7_0 => "CodeBDigits7_0"

def DisplayTest.listing : DisplayTest → String
  | .normal => "Normal"
  | .testMode => "TestMode"

/-- The mnemonics of rule R77. -/
def Mnemonic.listing : Mnemonic → String
  | .SEGENC => "SEGENC" | .BCDENC => "BCDENC" | .WRRAW => "WRRAW" | .WRREG => "WRREG" | .BCRAW => "BCRAW"
  | .DRAW => "DRAW" | .PWRON => "PWRON" | .PWROFF => "PWROFF" | .SETSHDN => "SETSHDN" | .SETDEC => "SETDEC"
  | .SETINT => "SETINT" | .SETINTA => "SETINTA" | .SETSCAN => "SETSCAN" | .SETTEST => "SETTEST"
  | .SETTESTA => "SETTESTA" | .CLR => "CLR" | .CLRA => "CLRA" | .WRDIG8 => "WRDIG8" | .WRSTR => "WRSTR"
  | .WRBCD => "WRBCD"

/-- Operands with commas between them. -/
def commaList : List String → String
  | [] => ""
  | [x] => x
  | x :: y :: rest => x ++ ", " ++ commaList (y :: rest)

def Payload.listing (buf : Payload) : String := "[" ++ commaList (buf.toList.map hexByte) ++ "]"

/-- A command's operands in their listing order; WRSTR has its payload before its dots. -/
def Instr.operands : Instr → List String
  | .segenc ch dot => [hexByte ch, if dot then "1" else "0"]
  | .bcdenc ch => [hexByte ch]
  | .wrraw k reg data => [hexByte k, hexByte reg, hexByte data]
  | .wrreg k name data => [hexByte k, name.listing, hexByte data]
  | .bcraw reg data => [hexByte reg, hexByte data]
  | .draw digit data => [hexCount digit, hexByte data]
  | .pwron => []
  | .pwroff => []
  | .setshdn mode => [mode.listing]
  | .setdec k mode => [hexByte k, mode.listing]
  | .setint k level => [hexByte k, hexCount level]
  | .setinta level => [hexCount level]
  | .setscan k limit => [hexByte k, hexCount limit]
  | .settest k mode => [hexByte k, mode.listing]
  | .settesta mode => [mode.listing]
  | .clr k => [hexByte k]
  | .clra => []
  | .wrdig8 k buf => [hexByte k, buf.listing]
  | .wrstr k dots buf => [hexByte k, buf.listing, hexByte dots]
  | .wrbcd k buf => [hexByte k, buf.listing]

/-- The listing line of a command (rule R82). -/
def Instr.listing (i : Instr) : String :=
  match i.operands with
  | [] => i.mnemonic.listing
  | o :: rest => i.mnemonic.listing ++ " " ++ commaList (o :: rest)

end Sys2Proof
end

