-- ==== Sys2Proof/Tests/Slice0.lean ====
section
/-! SUPPORT. The model's own tests: ill-formed commands, words written out from the spec's encodings (rule R82), rows of the
spec's test vectors (V6 to V9), and for every statement with hypotheses a state and operands that meet them all. -/

namespace Sys2Proof.Tests

open Sys2Proof.Machine

/-- A block that is READY, `CFG_DEFAULT` with `n` devices, and an environment with these answers to come. -/
def ready (n : Nat) (sel : Sel) (answers : List Answer) : State :=
  { State.resetOf (Cfg.default n sel) with lc := .ready, answers := answers }

/-- A READY block whose next `m` calls are answered `ok`. -/
def good (n : Nat) (sel : Sel) (m : Nat) : State := ready n sel (List.replicate m .ok)

/-- One field after an outcome that is a next state. -/
def after {α : Type} (o : Host.Outcome State Fault Refusal) (f : State → α) : Option α :=
  match o with
  | .next t => some (f t)
  | .fault _ => none
  | .refused _ => none

/-- One field after the word ran as the next step. -/
def ran {α : Type} (s : State) (nbits w : Nat) (f : State → α) : Option α := after (step (s.withFetchWord nbits w)) f

/-- The events of good transfers in the `HW` variant. -/
def sent (frames : List (List Byte)) : List Event := frames.map (fun f => .tx f .ok)

/-! ### Ill-formed commands (rule R76) -/

theorem test_draw_digit_8_is_ill_formed : (Instr.draw 8 0x01).wellFormed = false := by decide
theorem test_setint_level_16_is_ill_formed : (Instr.setint 0 16).wellFormed = false := by decide
theorem test_setinta_level_16_is_ill_formed : (Instr.setinta 16).wellFormed = false := by decide
theorem test_setscan_limit_8_is_ill_formed : (Instr.setscan 0 8).wellFormed = false := by decide

/-! ### Words of rule R82 -/

theorem test_decode_segenc : decodeTableWord 32 0x01004101 = some (.segenc 0x41 true) := by decide
theorem test_decode_bcdenc : decodeTableWord 32 0x02004500 = some (.bcdenc 0x45) := by decide
theorem test_decode_wrraw : decodeTableWord 32 0x100103AA = some (.wrraw 1 0x03 0xAA) := by decide
theorem test_decode_wrreg : decodeTableWord 32 0x11000D01 = some (.wrreg 0 .displayTest 0x01) := by decide
theorem test_decode_bcraw : decodeTableWord 32 0x12000A0F = some (.bcraw 0x0A 0x0F) := by decide
theorem test_decode_draw : decodeTableWord 32 0x1300027E = some (.draw 2 0x7E) := by decide
theorem test_decode_pwron : decodeTableWord 32 0x20000000 = some (.pwron) := by decide
theorem test_decode_pwroff : decodeTableWord 32 0x21000000 = some (.pwroff) := by decide
theorem test_decode_setshdn : decodeTableWord 32 0x22000100 = some (.setshdn .normalOperation) := by decide
theorem test_decode_setdec : decodeTableWord 32 0x23010300 = some (.setdec 1 .codeBDigits7_0) := by decide
theorem test_decode_setint : decodeTableWord 32 0x24000800 = some (.setint 0 8) := by decide
theorem test_decode_setinta : decodeTableWord 32 0x25000F00 = some (.setinta 15) := by decide
theorem test_decode_setscan : decodeTableWord 32 0x26020300 = some (.setscan 2 3) := by decide
theorem test_decode_settest : decodeTableWord 32 0x27000100 = some (.settest 0 .testMode) := by decide
theorem test_decode_settesta : decodeTableWord 32 0x28000000 = some (.settesta .normal) := by decide
theorem test_decode_clr : decodeTableWord 32 0x29020000 = some (.clr 2) := by decide
theorem test_decode_clra : decodeTableWord 32 0x2A000000 = some (.clra) := by decide
theorem test_decode_wrdig8 : decodeTableWord 96 0x800000000102040810204080 = some (.wrdig8 0 #v[1, 2, 4, 8, 16, 32, 64, 128]) := by decide
theorem test_decode_wrstr : decodeTableWord 96 0x810000003132333435363738 = some (.wrstr 0 0x00 #v[0x31, 0x32, 0x33, 0x34, 0x35, 0x36, 0x37, 0x38]) := by decide
theorem test_decode_wrbcd : decodeTableWord 96 0x820100002D31322045356850 = some (.wrbcd 1 #v[0x2D, 0x31, 0x32, 0x20, 0x45, 0x35, 0x68, 0x50]) := by decide

theorem test_decode_rejects_the_zero_word : decode [0x00, 0x00, 0x00, 0x00] = .error .reservedOpcode := by rfl
theorem test_decode_rejects_long_reserved : decodeTableWord 96 0x830000000000000000000000 = none := by decide
theorem test_decode_rejects_a_set_bit : decode [0x20, 0x00, 0x00, 0x01] = .error .mustBeZero := by rfl
theorem test_decode_rejects_regid_14 : decode [0x11, 0x00, 0x0E, 0x00] = .error .unnamedRegister := by rfl
theorem test_encode_wrbcd : encode (.wrbcd 1 #v[0x2D, 0x31, 0x32, 0x20, 0x45, 0x35, 0x68, 0x50])
    = [0x82, 0x01, 0x00, 0x00, 0x2D, 0x31, 0x32, 0x20, 0x45, 0x35, 0x68, 0x50] := by decide

/-- Rule R82, the forms with names, with a payload and with none. -/
theorem test_listing : (Instr.wrreg 0 .displayTest 0x01).listing = "WRREG 0x00, DisplayTest, 0x01"
    ∧ (Instr.wrstr 0 0xFF Payload.zero).listing
      = "WRSTR 0x00, [0x00, 0x00, 0x00, 0x00, 0x00, 0x00, 0x00, 0x00], 0xFF"
    ∧ Instr.pwron.listing = "PWRON" := by decide

/-! ### One step of every command -/

/-- Rule R105: SEGENC 'A', 1. -/
theorem test_run_segenc : ran (good 1 .hw 0) 32 0x01004101 State.hostView
    = some { busy := false, lc := 1, status := 0, fault := false, res := 0xF7 } := by decide
/-- Rule R110: BCDENC 'E'. -/
theorem test_run_bcdenc : ran (good 1 .hw 0) 32 0x02004500 State.res = some 0x8B := by decide
/-- R132. -/
theorem test_run_wrraw : ran (good 3 .hw 1) 32 0x100103AA State.trace
    = some (sent [[0x00, 0x00, 0x03, 0xAA, 0x00, 0x00]]) := by decide
/-- R133, V7. -/
theorem test_run_wrreg : ran (good 2 .hw 1) 32 0x11000D01 State.trace
    = some (sent [[0x0F, 0x01, 0x00, 0x00]]) := by decide
/-- R134, V7. -/
theorem test_run_bcraw : ran (good 3 .hw 1) 32 0x12000A0F State.trace
    = some (sent [[0x0A, 0x0F, 0x0A, 0x0F, 0x0A, 0x0F]]) := by decide
/-- V9, nearest accepted input. -/
theorem test_run_draw : ran (good 1 .hw 1) 32 0x13000701 State.trace
    = some (sent [[0x08, 0x01]]) := by decide
/-- V7. -/
theorem test_run_pwron : ran (good 2 .hw 1) 32 0x20000000 State.trace
    = some (sent [[0x0C, 0x01, 0x0C, 0x01]]) := by decide
/-- V7. -/
theorem test_run_pwroff : ran (good 2 .hw 1) 32 0x21000000 State.trace
    = some (sent [[0x0C, 0x00, 0x0C, 0x00]]) := by decide
/-- V7. -/
theorem test_run_setshdn : ran (good 1 .hw 1) 32 0x22000100 State.trace
    = some (sent [[0x0C, 0x01]]) := by decide
/-- V7. -/
theorem test_run_setdec : ran (good 2 .hw 1) 32 0x23010300 State.trace
    = some (sent [[0x00, 0x00, 0x09, 0xFF]]) := by decide
/-- V7. -/
theorem test_run_setint : ran (good 1 .hw 1) 32 0x24000800 State.trace
    = some (sent [[0x0A, 0x08]]) := by decide
/-- V7. -/
theorem test_run_setinta : ran (good 3 .hw 1) 32 0x25000F00 State.trace
    = some (sent [[0x0A, 0x0F, 0x0A, 0x0F, 0x0A, 0x0F]]) := by decide
/-- V7. -/
theorem test_run_setscan : ran (good 3 .hw 1) 32 0x26020300 State.trace
    = some (sent [[0x00, 0x00, 0x00, 0x00, 0x0B, 0x03]]) := by decide
/-- V7. -/
theorem test_run_settest : ran (good 1 .hw 1) 32 0x27000100 State.trace
    = some (sent [[0x0F, 0x01]]) := by decide
/-- V7. -/
theorem test_run_settesta : ran (good 2 .hw 1) 32 0x28000000 State.trace
    = some (sent [[0x0F, 0x00, 0x0F, 0x00]]) := by decide
/-- V7. -/
theorem test_run_clr : ran (good 2 .hw 8) 32 0x29010000 State.trace
    = some (sent [[0x00, 0x00, 0x01, 0x00],
      [0x00, 0x00, 0x02, 0x00],
      [0x00, 0x00, 0x03, 0x00],
      [0x00, 0x00, 0x04, 0x00],
      [0x00, 0x00, 0x05, 0x00],
      [0x00, 0x00, 0x06, 0x00],
      [0x00, 0x00, 0x07, 0x00],
      [0x00, 0x00, 0x08, 0x00]]) := by decide
/-- V1.4. -/
theorem test_run_clra : ran (good 2 .hw 8) 32 0x2A000000 State.trace
    = some (sent [[0x01, 0x00, 0x01, 0x00],
      [0x02, 0x00, 0x02, 0x00],
      [0x03, 0x00, 0x03, 0x00],
      [0x04, 0x00, 0x04, 0x00],
      [0x05, 0x00, 0x05, 0x00],
      [0x06, 0x00, 0x06, 0x00],
      [0x07, 0x00, 0x07, 0x00],
      [0x08, 0x00, 0x08, 0x00]]) := by decide
/-- V7. -/
theorem test_run_wrdig8 : ran (good 1 .hw 8) 96 0x800000000102040810204080 State.trace
    = some (sent [[0x01, 0x01],
      [0x02, 0x02],
      [0x03, 0x04],
      [0x04, 0x08],
      [0x05, 0x10],
      [0x06, 0x20],
      [0x07, 0x40],
      [0x08, 0x80]]) := by decide
/-- V7. -/
theorem test_run_wrstr : ran (good 1 .hw 9) 96 0x8100FF00612E4B207A395F2D State.trace
    = some (sent [[0x09, 0x00],
      [0x08, 0xF7],
      [0x07, 0xE5],
      [0x06, 0xE5],
      [0x05, 0x80],
      [0x04, 0xE5],
      [0x03, 0xFB],
      [0x02, 0x88],
      [0x01, 0x81]]) := by decide
/-- V7. -/
theorem test_run_wrbcd : ran (good 2 .hw 9) 96 0x820100002D31322045356850 State.trace
    = some (sent [[0x00, 0x00, 0x09, 0xFF],
      [0x00, 0x00, 0x08, 0x0A],
      [0x00, 0x00, 0x07, 0x31],
      [0x00, 0x00, 0x06, 0x32],
      [0x00, 0x00, 0x05, 0x0F],
      [0x00, 0x00, 0x04, 0x8B],
      [0x00, 0x00, 0x03, 0x35],
      [0x00, 0x00, 0x02, 0x0C],
      [0x00, 0x00, 0x01, 0x8E]]) := by decide

/-! ### Errors, reset and the devices -/

/-- V6, row 6: both the write and the restoring drive fail. -/
theorem test_pin_error_wins : ran (ready 1 .sw [.ok, .err, .err]) 32 0x1000017E (fun t => (t.status, t.trace, t.cs))
    = some (.pinErr, [.pl .ok, .tx [0x01, 0x7E] .err, .ph .err], .unknown) := by decide
/-- V6, row 7: the drive low fails, the write is skipped. -/
theorem test_drive_low_fails : ran (ready 1 .sw [.err, .ok]) 32 0x1000017E (fun t => (t.status, t.trace, t.fault))
    = some (.pinErr, [.pl .err, .ph .ok], true) := by decide
/-- V7: CLR 0 aborts at its third frame. -/
theorem test_abort : ran (ready 1 .hw [.ok, .ok, .err]) 32 0x29000000 (fun t => (t.status, t.trace, t.fb.take 2))
    = some (.transportErr, [.tx [0x01, 0x00] .ok, .tx [0x02, 0x00] .ok, .tx [0x03, 0x00] .err], [0x03, 0x00]) := by decide
/-- V9: SETINT 9, 200 is illegal and out of range. -/
theorem test_illegal_before_range : ran (good 2 .hw 0) 32 0x2409C800 (fun t => (t.status, t.trace)) = some (.illegalCmd, []) := by
  decide
/-- V9: WRRAW with `dev = 255`. -/
theorem test_range : ran (good 2 .hw 0) 32 0x10FF0000 (fun t => (t.status, t.fault)) = some (.rangeErr, true) := by decide
/-- V9: DRAW in a chain of two. -/
theorem test_draw_in_a_chain : ran (good 2 .hw 0) 32 0x13000001 State.status = some .illegalCmd := by decide
/-- V7, last row: a register byte outside the closed set leaves its device, and no other, unknown. -/
theorem test_raw_register_outside_the_set :
    ran { good 2 .hw 1 with dev := [(0x001, 0xAA), (0x103, 0x55)] } 32 0x10000D55 State.dev = some [(0x103, 0x55)] := by decide
/-- V8: the initialization sequence for one device. -/
theorem test_init : after (step { State.reset with answers := List.replicate 12 .ok }) (fun t => (t.lc, t.trace))
    = some (.ready, sent [[0x0F, 0x00], [0x09, 0x00], [0x0B, 0x07], [0x01, 0x00], [0x02, 0x00], [0x03, 0x00], [0x04, 0x00],
        [0x05, 0x00], [0x06, 0x00], [0x07, 0x00], [0x08, 0x00], [0x0C, 0x00]]) := by decide
/-- Rule R233: an error at its first frame leaves the block FAILED. -/
theorem test_init_fails : after (step { State.reset with answers := [.err] }) (fun t => (t.lc, t.status, t.fault))
    = some (.failed, .transportErr, true) := by decide
/-- P6: after a failed initialization sequence the reference host presents both words: the encoder works, the bus command is
refused. -/
theorem test_reference_host_after_a_failed_init :
    after (referenceRun 3 { State.resetOf (Cfg.default 2 .hw) with
        answers := List.replicate 12 .ok ++ [.err]
        port := [.word [0x01, 0x00, 0x38, 0x01], .word [0x20, 0x00, 0x00, 0x00]] })
      (fun t => (t.hostView, t.fb.take 4, t.port))
    = some ({ busy := false, lc := 2, status := 5, fault := true, res := 0xFF }, [0x00, 0x00, 0x09, 0x00], []) := by decide
/-- Rules R9, R125: the calls of a `SW` frame one by one, and the completion after the last. -/
theorem test_calls_one_by_one :
    [1, 2, 3, 4].map (fun k => after (callRun k ((good 1 .sw 3).withFetchWord 32 0x1000017E))
      (fun t => (t.busy, t.cs, t.trace.length, t.devRead 0 1)))
    = [some (true, .low, 1, none), some (true, .low, 2, none), some (true, .high, 3, some 0x7E),
      some (false, .high, 3, some 0x7E)] := by decide
/-- Rule R246: a reset that cuts a `SW` frame after its write. -/
theorem test_reset_cuts_a_frame :
    after (callRun 2 ((good 1 .sw 3).withFetchWord 32 0x1000017E)) (fun t => (resetRelease t).hostView)
    = some { busy := true, lc := 0, status := 0, fault := false, res := 0x00 } := by decide
/-- Rule R47: the sixteen bits of the pair (0x03, 0xAA). -/
theorem test_wire_bits : wireBits [0x03, 0xAA]
    = [false, false, false, false, false, false, true, true, true, false, true, false, true, false, true, false] := by decide

/-! ### States and operands that meet the hypotheses of the statements -/

theorem witness_EncodeThenDecodeGivesTheCommand :
    (Instr.draw 7 0xFF).wellFormed = true
    ∧ (Instr.setint 0xFF 15).wellFormed = true
    ∧ (Instr.setscan 0 7).wellFormed = true := by decide

theorem witness_DecodedBytesAreTheEncoding :
    decode [0x13, 0x00, 0x07, 0xFF, 0xAA] = .ok (.draw 7 0xFF, [0xAA])
    ∧ decode [0x24, 0xFF, 0x0F, 0x00] = .ok (.setint 0xFF 15, []) := ⟨rfl, rfl⟩

/-- A format S word as it stands in the latch. -/
def short (op dev a b : Byte) : CmdWord := { op := op, dev := dev, a := a, b := b, buf := Payload.zero }

theorem witness_DecodingIsTheMaskAndMatchTable :
    decodeFields (short 0x11 0 13 0) = .ok (.wrreg 0 .displayTest 0)
    ∧ headerOf (short 0x11 0 13 0) &&& maskOf .WRREG = matchOf .WRREG
    ∧ headerOf (short 0x11 0 14 0) &&& maskOf .WRREG = matchOf .WRREG
    ∧ headerOf (short 0x11 0 16 0) &&& maskOf .WRREG ≠ matchOf .WRREG := ⟨rfl, by decide⟩

theorem witness_UnassignedOpcodesAreRejected :
    ∀ op ∈ [0x00#8, 0x03#8, 0x0F#8, 0x14#8, 0x1F#8, 0x2B#8, 0x7F#8, 0x83#8, 0xFF#8],
      (op.toNat = 0x00 ∨ (0x03 ≤ op.toNat ∧ op.toNat ≤ 0x0F) ∨ (0x14 ≤ op.toNat ∧ op.toNat ≤ 0x1F)
        ∨ (0x2B ≤ op.toNat ∧ op.toNat ≤ 0x7F) ∨ 0x83 ≤ op.toNat) ∧ rowOf op = none := by decide

/-- A READY block to which the host offers these bytes. -/
def offered (n : Nat) (bytes : List Byte) : State := { good n .hw 1 with port := [.word bytes, .reset] }

theorem witness_StepRunsTheDecodedCommand :
    (offered 1 [0x20, 0, 0, 0]).cfg.legal = true ∧ (offered 1 [0x20, 0, 0, 0]).busy = false
    ∧ (offered 1 [0x20, 0, 0, 0]).port = .word [0x20, 0, 0, 0] :: [.reset]
    ∧ takeWord [0x20, 0, 0, 0] = some (short 0x20 0 0 0, []) ∧ decodeFields (short 0x20 0 0 0) = .ok .pwron :=
  ⟨by decide, by decide, rfl, rfl, rfl⟩

theorem witness_IllegalCommandsAreRefused :
    ((offered 1 [0x20, 0, 0, 1]).cfg.legal = true ∧ (offered 1 [0x20, 0, 0, 1]).busy = false
      ∧ (offered 1 [0x20, 0, 0, 1]).lc = .ready
      ∧ (offered 1 [0x20, 0, 0, 1]).port = .word [0x20, 0, 0, 1] :: [.reset]
      ∧ takeWord [0x20, 0, 0, 1] = some (short 0x20 0 0 1, []) ∧ decodeFields (short 0x20 0 0 1) = .error .mustBeZero)
    ∧ (good 2 .hw 0).lc = .ready ∧ (good 2 .hw 0).cfg.n ≠ 1 :=
  ⟨⟨by decide, by decide, rfl, rfl, rfl, rfl⟩, rfl, by decide⟩

/-- A block whose initialization sequence failed. -/
def failed (n : Nat) : State := { good n .hw 0 with lc := .failed, status := .transportErr, fault := true }

theorem witness_TestsComeInOrder :
    ((failed 1).cfg.legal = true ∧ (failed 1).busy = false ∧ (failed 1).lc = .failed
      ∧ takeWord [0x02, 1, 0, 0] = some (short 0x02 1 0 0, []) ∧ decodeFields (short 0x02 1 0 0) = .error .mustBeZero)
    ∧ (isEncoder .clra = false ∧ (failed 1).lc = .failed)
    ∧ (isEncoder (.setint 9 200) = false ∧ (good 2 .hw 0).lc = .ready ∧ legalFor 2 (.setint 9 200) = false)
    ∧ ((good 2 .hw 0).lc = .ready ∧ legalFor 2 (.setint 2 15) = true ∧ deviceOf (.setint 2 15) = some 2
      ∧ (good 2 .hw 0).cfg.n ≤ (2#8).toNat) :=
  ⟨⟨by decide, by decide, rfl, rfl, rfl⟩, ⟨rfl, rfl⟩, ⟨rfl, rfl, rfl⟩, ⟨rfl, rfl, rfl, by decide⟩⟩

/-- A failed block that the host resets. -/
def resetting : State := { failed 1 with port := [.reset] }

theorem witness_ResetAndOnlyResetRestarts :
    (resetting.cfg.legal = true ∧ resetting.busy = false ∧ resetting.lc ≠ .init ∧ resetting.port = [.reset]
      ∧ after (step resetting) State.lc = some .init)
    ∧ ((State.resetOf (Cfg.default 8 .sw)).cfg.legal = true ∧ (State.resetOf (Cfg.default 8 .sw)).lc = .init
      ∧ (State.resetOf (Cfg.default 8 .sw)).progress = .idle ∧ (State.resetOf (Cfg.default 8 .sw)).cs = .high)
    ∧ ((failed 1).fault = true ∧ (failed 1).lc = .failed ∧ (failed 1).port = [] ∧ step (failed 1) = .next (failed 1)
      ∧ callStep (failed 1) = .next (failed 1))
    ∧ after (callStep resetting) State.lc = some .init :=
  ⟨by decide, by decide, ⟨rfl, rfl, rfl, rfl, rfl⟩, rfl⟩

/-- A `SW` block in the middle of a command: the frame is written, select is low, and the command has one more frame. -/
def midway : State :=
  { good 1 .sw 4 with
    fb := [3, 0xAA] ++ List.replicate 14 0, trace := [.pl .ok, .tx [3, 0xAA] .ok], cs := .low
    progress := .written .ok [.target 0 4 0x55], port := [.word [0x20, 0, 0, 0]] }

theorem witness_WordWhileBusyHasNoEffect :
    State.reset.busy = true ∧ midway.busy = true
    ∧ (∃ t, step midway = .next t) ∧ ∃ t, callStep midway = .next t :=
  ⟨rfl, rfl, ⟨_, rfl⟩, _, rfl⟩

/-- A `SW` instance released with its select line low. -/
def selectedAtRelease : State := { State.resetOf (Cfg.default 1 .sw) with cs := .low }

theorem witness_LegalConfigurationsStep :
    (State.reset.cfg.legal = true
      ∧ (State.reset.lc = .init → State.reset.progress = .idle → State.reset.cfg.sel = .sw → State.reset.cs = .high))
    ∧ (selectedAtRelease.cfg.legal = true ∧ selectedAtRelease.lc = .init ∧ selectedAtRelease.progress = .idle
      ∧ selectedAtRelease.cfg.sel = .sw ∧ selectedAtRelease.cs ≠ .high)
    ∧ (midway.busy = true ∧ ∃ t, callStep midway = .next t)
    ∧ ({ midway with progress := .ending .pinErr }.busy = true
      ∧ ∃ t, callStep { midway with progress := .ending .pinErr } = .next t)
    ∧ ((good 1 .sw 3).busy = false ∧ (∃ t, start .pwron (good 1 .sw 3) = .next t)
      ∧ ∃ t, start (.bcdenc 0x45) (good 1 .sw 3) = .next t) :=
  ⟨by decide, by decide, ⟨rfl, _, rfl⟩, ⟨rfl, _, rfl⟩, rfl, ⟨_, rfl⟩, _, rfl⟩

/-- The boundaries of rule R21 (a): `N` of 0 and `NMAX` of 256 are illegal, 1 and 255 legal. -/
theorem witness_IllegalConfigurationIsRefused :
    (Cfg.default 0 .hw).legal = false ∧ { Cfg.default 1 .hw with nmax := 256 }.legal = false
    ∧ { Cfg.default 255 .sw with nmax := 255 }.legal = true
    ∧ step (State.resetOf (Cfg.default 0 .hw)) = .refused .illegalConfig :=
  ⟨by decide, by decide, by decide, rfl⟩

/-- A list of two words, the first of which is illegal. -/
def listed : State := { good 1 .hw 1 with port := [.word [0, 0, 0, 0], .word [0x20, 0, 0, 0]] }

theorem witness_ReferenceHostStopsAtTheFirstError :
    (listed.cfg.legal = true ∧ listed.busy = false ∧ (∀ a ∈ listed.port, ∃ bytes, a = .word bytes) ∧ listed.port.length ≤ 2
      ∧ (takeWord [0, 0, 0, 0]).isSome = true
      ∧ after (referenceRun 2 listed) (fun t => (t.status, t.port.length)) = some (.illegalCmd, 1))
    ∧ ((good 1 .hw 1).cfg.legal = true ∧ (good 1 .hw 1).busy = false ∧ (good 1 .hw 1).port = [])
    ∧ (State.reset.lc = .init ∧ ∃ t, step State.reset = .next t)
    ∧ (midway.busy = true ∧ midway.lc ≠ .init ∧ ∃ t, step midway = .next t) :=
  ⟨⟨by decide, by decide, by simp [listed], by decide, by decide, by decide⟩, ⟨by decide, by decide, rfl⟩, ⟨rfl, _, rfl⟩,
    rfl, by decide, _, rfl⟩

theorem witness_GlyphKeysOfTheAlphabet :
    (glyphKey 0x55).isSome = true
    ∧ (glyphKey 0x75).isSome = true
    ∧ (glyphKey 0x56).isSome = false := by decide

theorem witness_SegmentEncoderLaws :
    glyphKey 0x4B = none
    ∧ (Cfg.default 1 .hw).legal = true
    ∧ (glyphKey 0x41).isSome = true
    ∧ 0x41#8 ≤ 0x41#8
    ∧ 0x41#8 ≤ 0x5A#8
    ∧ 0x5A#8 ≤ 0x5A#8 := by decide

theorem witness_BcdCaseAndPassThrough :
    0x70#8 ∈ [0x65#8, 0x68#8, 0x6C#8, 0x70#8]
    ∧ (Cfg.default 1 .hw).legal = true
    ∧ 0x21#8 ∉ [0x20#8, 0x2D#8, 0x65#8, 0x45#8, 0x68#8, 0x48#8, 0x6C#8, 0x4C#8, 0x70#8, 0x50#8] := by decide

/-- The only device of a chain of one, and the last of a chain of 255. -/
theorem witness_BuildingAFrame : 0 < 1 ∧ 254 < 255 := by decide

theorem witness_WireBitsAreMsbFirst : 1 < [0x03#8, 0xAA#8].length ∧ 7 < 8 := by decide

theorem witness_HardwareSelectTransfer :
    (ready 1 .hw [.ok]).cfg.sel = .hw ∧ (ready 1 .hw [.ok]).upcoming 0 = .ok ∧ (ready 1 .hw [.err]).upcoming 0 = .err :=
  ⟨rfl, rfl, rfl⟩

theorem witness_SoftwareSelectTransfer :
    (ready 1 .sw [.ok, .err, .err]).cfg.sel = .sw ∧ (ready 1 .sw [.ok, .err, .err]).upcoming 0 = .ok
    ∧ (ready 1 .sw [.err, .ok]).upcoming 0 = .err :=
  ⟨rfl, rfl, rfl⟩

theorem witness_FailedTransferLeavesDevicesUnknown : (transfer (ready 1 .sw [.ok, .err, .ok])).1 ≠ .ok := by decide

theorem witness_WrrawSendsItsPair :
    (good 3 .sw 3).lc = .ready
    ∧ (2#8).toNat < (good 3 .sw 3).cfg.n
    ∧ AnswersOk (good 3 .sw 3) (callsPerFrame .sw) := by decide

theorem witness_WrregSendsTheNamedRegister :
    (good 3 .hw 1).lc = .ready
    ∧ (2#8).toNat < (good 3 .hw 1).cfg.n
    ∧ AnswersOk (good 3 .hw 1) (callsPerFrame .hw) := by decide

theorem witness_BcrawSendsThePairToEveryDevice :
    (good 8 .sw 3).lc = .ready
    ∧ AnswersOk (good 8 .sw 3) (callsPerFrame .sw) := by decide

theorem witness_DrawWritesOneDigit :
    (good 1 .hw 1).lc = .ready
    ∧ (good 1 .hw 1).cfg.legal = true
    ∧ (good 1 .hw 1).cfg.n = 1
    ∧ 7 < 8
    ∧ AnswersOk (good 1 .hw 1) (callsPerFrame .hw) := by decide

theorem witness_PowerCommandsBroadcastToShutdown :
    (good 2 .sw 3).lc = .ready
    ∧ AnswersOk (good 2 .sw 3) (callsPerFrame .sw) := by decide

theorem witness_TypedWritesToOneDevice :
    (good 2 .hw 1).lc = .ready
    ∧ (1#8).toNat < (good 2 .hw 1).cfg.n
    ∧ AnswersOk (good 2 .hw 1) (callsPerFrame .hw) := by decide

theorem witness_TypedWritesToEveryDevice :
    (good 2 .sw 3).lc = .ready
    ∧ AnswersOk (good 2 .sw 3) (callsPerFrame .sw) := by decide

theorem witness_ClearingSendsEightFrames :
    (good 2 .sw 24).lc = .ready
    ∧ (good 2 .sw 24).cfg.legal = true
    ∧ AnswersOk (good 2 .sw 24) (8 * callsPerFrame .sw)
    ∧ (1#8).toNat < (good 2 .sw 24).cfg.n := by decide

theorem witness_Wrdig8WritesUpward :
    (good 2 .hw 8).lc = .ready
    ∧ (good 2 .hw 8).cfg.legal = true
    ∧ (1#8).toNat < (good 2 .hw 8).cfg.n
    ∧ AnswersOk (good 2 .hw 8) (8 * callsPerFrame .hw) := by decide

theorem witness_WrstrWritesTheString :
    (good 2 .sw 27).lc = .ready
    ∧ (good 2 .sw 27).cfg.legal = true
    ∧ (1#8).toNat < (good 2 .sw 27).cfg.n
    ∧ AnswersOk (good 2 .sw 27) (9 * callsPerFrame .sw) := by decide

theorem witness_WrbcdWritesTheString :
    (good 2 .hw 9).lc = .ready
    ∧ (good 2 .hw 9).cfg.legal = true
    ∧ (1#8).toNat < (good 2 .hw 9).cfg.n
    ∧ AnswersOk (good 2 .hw 9) (9 * callsPerFrame .hw) := by decide

/-- The last frame of a WRSTR, whose restoring drive fails. -/
theorem witness_CommandStopsAtItsFirstFailingFrame :
    let s := ready 2 .sw (List.replicate 26 .ok ++ [.err])
    let i := Instr.wrstr 1 0 Payload.zero
    let f := pairFrame 2 1 1 0xE5
    let es : List Event := [.pl .ok, .tx f .ok, .ph .err]
    s.cfg.legal = true ∧ Performed i s ∧ (commandFrames s.cfg i)[8]? = some f
    ∧ AnswersOk s (8 * callsPerFrame s.cfg.sel) ∧ (es, .pinErr) ∈ failRows s.cfg.sel f
    ∧ AnswersFrom s (8 * callsPerFrame s.cfg.sel) es := by
  refine ⟨by decide, ⟨rfl, rfl, ?_⟩, by decide, by decide, by decide, by decide⟩
  intro k hk
  cases hk
  decide

/-- The first frame of a BCRAW, whose write fails. -/
theorem witness_first_frame_fails :
    let s := ready 1 .hw [.err]
    Performed (.bcraw 1 2) s ∧ (commandFrames s.cfg (.bcraw 1 2))[0]? = some [1, 2]
    ∧ ([.tx [1, 2] .err], .transportErr) ∈ failRows s.cfg.sel [1, 2] ∧ AnswersFrom s 0 [.tx [1, 2] .err] :=
  ⟨⟨rfl, rfl, fun _ h => nomatch h⟩, by decide, by decide, by decide⟩

/-- A command that ends in OK: every hypothesis on its next state is met. -/
theorem witness_TargetedWriteChangesOneLocation :
    (good 2 .hw 1).lc = .ready
    ∧ (∃ t, exec (.setint 1 15) (good 2 .hw 1) = .next t ∧ t.status = .ok)
    ∧ (0x0A#8) ≠ 0x00 ∧ (good 2 .hw 1).cfg.isAddress 0x0A = true
    ∧ ((good 1 .hw 1).lc = .ready ∧ ∃ t, exec (.draw 7 1) (good 1 .hw 1) = .next t ∧ t.status = .ok)
    ∧ (∃ t, exec (.wrraw 1 0x0F 1) (good 2 .hw 1) = .next t ∧ t.status = .ok) :=
  ⟨rfl, ⟨_, rfl, by decide⟩, by decide, by decide, ⟨rfl, _, rfl, by decide⟩, ⟨_, rfl, by decide⟩⟩

theorem witness_RawWritesReachTheirDevices :
    (good 2 .hw 1).lc = .ready ∧ (∃ t, exec (.wrraw 1 0x0D 1) (good 2 .hw 1) = .next t ∧ t.status = .ok)
    ∧ (∃ t, exec (.bcraw 0x0D 1) (good 2 .hw 1) = .next t ∧ t.status = .ok) :=
  ⟨rfl, ⟨_, rfl, by decide⟩, ⟨_, rfl, by decide⟩⟩

theorem witness_TypedBroadcastsReachEveryDevice :
    (good 2 .sw 3).cfg.legal = true ∧ (good 2 .sw 3).lc = .ready
    ∧ (∃ t, exec (.setinta 15) (good 2 .sw 3) = .next t ∧ t.status = .ok)
    ∧ (∃ t, exec .pwron (good 2 .sw 3) = .next t ∧ t.status = .ok) :=
  ⟨by decide, rfl, ⟨_, rfl, by decide⟩, ⟨_, rfl, by decide⟩⟩

theorem witness_ClearingBlanks :
    (good 2 .hw 8).cfg.legal = true ∧ (good 2 .hw 8).lc = .ready
    ∧ (∃ t, exec (.clr 1) (good 2 .hw 8) = .next t ∧ t.status = .ok)
    ∧ (∃ t, exec .clra (good 2 .hw 8) = .next t ∧ t.status = .ok) :=
  ⟨by decide, rfl, ⟨_, rfl, by decide⟩, ⟨_, rfl, by decide⟩⟩

theorem witness_PayloadCommandsFillTheirDevice :
    (good 2 .hw 9).cfg.legal = true ∧ (good 2 .hw 9).lc = .ready
    ∧ (∃ t, exec (.wrdig8 1 Payload.zero) (good 2 .hw 9) = .next t ∧ t.status = .ok)
    ∧ (∃ t, exec (.wrstr 1 0xFF Payload.zero) (good 2 .hw 9) = .next t ∧ t.status = .ok)
    ∧ (∃ t, exec (.wrbcd 1 Payload.zero) (good 2 .hw 9) = .next t ∧ t.status = .ok) :=
  ⟨by decide, rfl, ⟨_, rfl, by decide⟩, ⟨_, rfl, by decide⟩, ⟨_, rfl, by decide⟩⟩

theorem witness_StringExamplesOfTheDocument :
    (good 2 .sw 27).cfg.legal = true ∧ (good 2 .sw 27).lc = .ready ∧ (1#8).toNat < (good 2 .sw 27).cfg.n
    ∧ AnswersOk (good 2 .sw 27) (9 * callsPerFrame .sw) := by decide

theorem witness_OtherDevicesDoNotChange :
    (∃ t, exec (.clr 1) (good 2 .hw 8) = .next t ∧ t.status = .ok) ∧ deviceOf (.clr 1) = some 1 ∧ 0 ≠ (1#8).toNat :=
  ⟨⟨_, rfl, by decide⟩, rfl, by decide⟩

theorem witness_CommandFrame :
    (∃ t, exec (.clr 0) (ready 1 .hw [.err]) = .next t) ∧ isEncoder (.clr 0) = false ∧ isEncoder (.bcdenc 0x45) = true :=
  ⟨⟨_, rfl⟩, rfl, rfl⟩

theorem witness_RefusedCommandsChangeNothing :
    (∃ t, exec (.clr 2) (good 2 .hw 0) = .next t ∧ t.status = .rangeErr)
    ∧ (∃ t, exec (.draw 0 0) (good 2 .hw 0) = .next t ∧ t.status = .illegalCmd)
    ∧ (∃ t, exec .clra (failed 1) = .next t ∧ t.status = .notReady) :=
  ⟨⟨_, rfl, rfl⟩, ⟨_, rfl, rfl⟩, ⟨_, rfl, rfl⟩⟩

theorem witness_ResIsWrittenByTheEncodersOnly :
    (∃ t, exec (.bcdenc 0x45) (good 1 .hw 0) = .next t)
    ∧ ((∃ t, step (offered 1 [0x20, 0, 0, 1]) = .next t) ∧ (offered 1 [0x20, 0, 0, 1]).busy = false
      ∧ takeWord [0x20, 0, 0, 1] = some (short 0x20 0 0 1, []) ∧ decodeFields (short 0x20 0 0 1) = .error .mustBeZero)
    ∧ ((∃ t, step State.reset = .next t) ∧ State.reset.busy = true) ∧ (∃ t, callStep midway = .next t) :=
  ⟨⟨_, rfl⟩, ⟨⟨_, rfl⟩, by decide, rfl, rfl⟩, ⟨⟨_, rfl⟩, rfl⟩, _, rfl⟩

theorem witness_FaultIsSticky :
    (∃ t, exec (.clr 2) (good 2 .hw 0) = .next t)
    ∧ ((∃ t, step (offered 1 [0, 0, 0, 0]) = .next t) ∧ (offered 1 [0, 0, 0, 0]).busy = false
      ∧ (takeWord [0, 0, 0, 0]).isSome = true)
    ∧ ((∃ t, step State.reset = .next t) ∧ State.reset.busy = true)
    ∧ (∃ t, callStep midway = .next t ∧ t.busy = true)
    ∧ (∃ t, step resetting = .next t ∧ resetting.fault = true ∧ t.fault = false ∧ resetting.busy = false) :=
  ⟨⟨_, rfl⟩, ⟨⟨_, rfl⟩, by decide, rfl⟩, ⟨⟨_, rfl⟩, rfl⟩, ⟨_, rfl, rfl⟩, ⟨_, rfl, rfl, rfl, by decide⟩⟩

/-- The first index outside a chain of two, and the last index there is. -/
theorem witness_IndexOutsideTheChainIsRangeErr :
    (good 2 .hw 0).lc = .ready ∧ (good 2 .hw 0).cfg.n ≤ (2#8).toNat ∧ (good 2 .hw 0).cfg.n ≤ (255#8).toNat := by decide

theorem witness_FailedBlockServesTheEncodersOnly :
    ((failed 1).lc = .failed ∧ isEncoder .pwron = false)
    ∧ (isEncoder (.segenc 0x41 true) = true ∧ ∃ t, exec (.segenc 0x41 true) (failed 1) = .next t)
    ∧ (∃ t, step resetting = .next t ∧ resetting.lc = .failed ∧ t.lc ≠ .failed)
    ∧ State.reset.lc = .init :=
  ⟨⟨rfl, rfl⟩, ⟨rfl, _, rfl⟩, ⟨_, rfl, rfl, by decide⟩, rfl⟩

theorem witness_StatusesOfEachCommand :
    (∃ t, exec (.bcdenc 0) (failed 1) = .next t ∧ isEncoder (.bcdenc 0) = true)
    ∧ (∃ t, exec (.clr 2) (good 2 .hw 0) = .next t ∧ t.status = .rangeErr)
    ∧ (∃ t, exec (.draw 0 0) (good 2 .hw 0) = .next t ∧ t.status = .illegalCmd)
    ∧ (∃ t, exec .clra (failed 1) = .next t ∧ t.status = .notReady)
    ∧ (∃ t, exec .pwron (ready 1 .sw [.err, .ok]) = .next t ∧ t.status = .pinErr) :=
  ⟨⟨_, rfl, rfl⟩, ⟨_, rfl, rfl⟩, ⟨_, rfl, rfl⟩, ⟨_, rfl, rfl⟩, ⟨_, rfl, rfl⟩⟩

/-- A `SW` block at reset release with every answer of its sequence `ok`. -/
def booting : State := { State.resetOf (Cfg.default 1 .sw) with answers := List.replicate 36 .ok }

theorem witness_InitSendsItsFrames :
    booting.cfg.legal = true ∧ booting.lc = .init ∧ booting.progress = .idle ∧ (booting.cfg.sel = .sw → booting.cs = .high)
    ∧ AnswersOk booting ((11 * booting.cfg.n + 1) * callsPerFrame booting.cfg.sel) := by decide

theorem witness_InitEndsReadyOrFailed :
    ((∃ t, step State.reset = .next t) ∧ State.reset.lc = .init ∧ State.reset.progress = .idle)
    ∧ (∃ t, step resetting = .next t ∧ resetting.lc ≠ .init ∧ t.lc ≠ resetting.lc)
    ∧ (∃ t, callStep { State.reset with progress := .frames [] } = .next t ∧ t.lc ≠ .init) :=
  ⟨⟨⟨_, rfl⟩, rfl, rfl⟩, ⟨_, rfl, by decide, by decide⟩, ⟨_, rfl, by decide⟩⟩

/-- The first and the last frame of the sequence. -/
theorem witness_InitStopsAtItsFirstFailingFrame :
    let s := { State.reset with answers := List.replicate 11 .ok ++ [.err] }
    let u := { State.reset with answers := [.err] }
    (s.cfg.legal = true ∧ (initSequence s.cfg)[11]? = some [0x0C, 0x00] ∧ AnswersOk s (11 * callsPerFrame s.cfg.sel)
      ∧ ([.tx [0x0C, 0x00] .err], .transportErr) ∈ failRows s.cfg.sel [0x0C, 0x00]
      ∧ AnswersFrom s (11 * callsPerFrame s.cfg.sel) [.tx [0x0C, 0x00] .err])
    ∧ (u.cfg.legal = true ∧ (initSequence u.cfg)[0]? = some [0x0F, 0x00]
      ∧ ([.tx [0x0F, 0x00] .err], .transportErr) ∈ failRows u.cfg.sel [0x0F, 0x00]
      ∧ AnswersFrom u 0 [.tx [0x0F, 0x00] .err]) := by
  decide

theorem witness_InitLeavesEveryDeviceKnown :
    (∃ t, step { State.reset with answers := List.replicate 12 .ok } = .next t ∧ t.status = .ok) ∧ State.reset.progress = .idle
    ∧ 0 < State.reset.cfg.n :=
  ⟨⟨_, rfl, by decide⟩, rfl, by decide⟩

/-- A state in the middle of a run: one frame was latched, and a word waits. -/
def running : State :=
  { good 2 .hw 1 with
    fb := [0, 0, 3, 0xAA] ++ List.replicate 12 0, trace := [.tx [0, 0, 3, 0xAA] .ok], dev := [(0x103, 0xAA)]
    port := [.word [0x20, 0, 0, 0]] }

theorem running_shape : ShapeInv running where
  legal := by decide
  fbLength := rfl
  fbTail := rfl
  devCanonical := by decide
  devInSpace := by
    intro a v h
    obtain rfl : a = 0x103 := by simp [running] at h; exact h.1
    exact ⟨1, 3, rfl, by decide, by decide, by decide⟩
  todoInChain := by simp [running, good, ready, State.resetOf, Progress.todo]
  releaseIsReset := fun h => nomatch h

theorem running_trace : TraceInv running where
  order := rfl
  frames := by
    intro f r h
    obtain rfl : f = [0, 0, 3, 0xAA] := by simp [running] at h; exact h.1
    rfl
  devices := by decide
  select := rfl

theorem running_fault : FaultInv running where
  statusOk := fun _ => rfl
  answersOk := by decide
  failedFault := fun h => nomatch h

theorem midway_shape : ShapeInv midway where
  legal := by decide
  fbLength := rfl
  fbTail := rfl
  devCanonical := List.Pairwise.nil
  devInSpace := fun a v h => nomatch h
  todoInChain := by
    intro f h
    obtain rfl : f = .target 0 4 0x55 := by simpa [midway, Progress.todo] using h
    exact Nat.zero_lt_one
  releaseIsReset := fun h => nomatch h

theorem midway_trace : TraceInv midway where
  order := rfl
  frames := by
    intro f r h
    obtain rfl : f = [3, 0xAA] := by simp [midway] at h; exact h.1
    rfl
  devices := by decide
  select := rfl

theorem midway_fault : FaultInv midway where
  statusOk := fun _ => rfl
  answersOk := by decide
  failedFault := fun h => nomatch h

theorem witness_ResetMeetsTheInvariants : (Cfg.default 8 .sw).legal = true := by decide

/-- Between two commands and in the middle of one. -/
theorem witness_StepKeepsTheShape :
    (ShapeInv running ∧ ∃ t, step running = .next t) ∧ (ShapeInv midway ∧ ∃ t, callStep midway = .next t) :=
  ⟨⟨running_shape, _, rfl⟩, midway_shape, _, rfl⟩

theorem witness_StepKeepsTraceAccountingForTheChain :
    (ShapeInv running ∧ TraceInv running ∧ ∃ t, step running = .next t)
    ∧ (ShapeInv midway ∧ TraceInv midway ∧ ∃ t, callStep midway = .next t) :=
  ⟨⟨running_shape, running_trace, _, rfl⟩, midway_shape, midway_trace, _, rfl⟩

theorem witness_StepKeepsTheFaultPremise :
    (FaultInv running ∧ ∃ t, step running = .next t) ∧ (FaultInv midway ∧ ∃ t, callStep midway = .next t) :=
  ⟨⟨running_fault, _, rfl⟩, midway_fault, _, rfl⟩

theorem witness_StaleFramesAndDevicesDoNotShow : ∃ t, exec (.clr 1) running = .next t := ⟨_, rfl⟩

end Sys2Proof.Tests
end

/-! ### Every step keeps the shape of the state -/

namespace Sys2Proof.Machine

/-- The parts of `ShapeInv` that speak of `CFG`, `FB` and `DEV`: every operation a call is made of keeps them, so they hold
at every position inside a command. -/
structure StoreShape (s : State) : Prop where
  legal : s.cfg.legal = true
  fbLength : s.fb.length = 2 * s.cfg.nmax
  fbTail : s.fb.drop (2 * s.cfg.n) = List.replicate (2 * s.cfg.nmax - 2 * s.cfg.n) 0
  devCanonical : Memory.wf s.dev
  devInSpace : ∀ a v, (a, v) ∈ s.dev → ∃ k r, a = devKey k r ∧ k < s.cfg.n ∧ s.cfg.isAddress r = true ∧ r ≠ 0x00

theorem ShapeInv.store {s : State} (h : ShapeInv s) : StoreShape s where
  legal := h.legal
  fbLength := h.fbLength
  fbTail := h.fbTail
  devCanonical := h.devCanonical
  devInSpace := h.devInSpace

/-- Away from reset release the rest of the shape is that the frames to come are for devices of the chain. -/
theorem StoreShape.shape {s : State} (h : StoreShape s) (htodo : ∀ f ∈ s.progress.todo, f.inChain s.cfg.n)
    (hr : s.atRelease = false) : ShapeInv s where
  legal := h.legal
  fbLength := h.fbLength
  fbTail := h.fbTail
  devCanonical := h.devCanonical
  devInSpace := h.devInSpace
  todoInChain := htodo
  releaseIsReset := fun e => absurd e (by simp [hr])

theorem StoreShape.congr {s t : State} (h : StoreShape s) (hc : t.cfg = s.cfg) (hf : t.fb = s.fb) (hd : t.dev = s.dev) :
    StoreShape t where
  legal := hc ▸ h.legal
  fbLength := by rw [hc, hf, h.fbLength]
  fbTail := by rw [hc, hf, h.fbTail]
  devCanonical := hd ▸ h.devCanonical
  devInSpace := by rw [hc, hd]; exact h.devInSpace

/-- Building a frame writes the frame's bytes and no other (rules R25, R121, R122). -/
theorem build_store {s : State} (h : StoreShape s) {f : FrameReq} (hf : f.inChain s.cfg.n) :
    StoreShape (build f s) where
  legal := by rw [build_cfg, h.legal]
  fbLength := by
    have hn := legal_n_le h.legal
    have hfb : (build f s).fb = frameBytes s.cfg.n f ++ s.fb.drop (2 * s.cfg.n) := by rw [build_eq hf]
    rw [hfb, build_cfg, h.fbTail, List.length_append, frameBytes_length, List.length_replicate]
    omega
  fbTail := by rw [build_cfg, build_fb_drop hf, h.fbTail]
  devCanonical := by rw [build_dev]; exact h.devCanonical
  devInSpace := by rw [build_dev, build_cfg]; exact h.devInSpace

/-- Latching stores registers of the closed set of devices of the chain; a failed transfer leaves nothing listed (rules R51,
R52). -/
theorem settle_store {s : State} (h : StoreShape s) (f : List Byte) (ok : Bool) : StoreShape (settle f ok s) where
  legal := by rw [settle_cfg, h.legal]
  fbLength := by rw [settle_fb, settle_cfg, h.fbLength]
  fbTail := by rw [settle_fb, settle_cfg, h.fbTail]
  devCanonical := by
    rw [settle_dev]
    cases ok
    · exact Memory.wf_nil
    · exact latchBelow_wf _ _ _ h.devCanonical
  devInSpace := by
    rw [settle_dev, settle_cfg]
    cases ok
    · exact fun _ _ hm => absurd hm List.not_mem_nil
    · exact latchBelow_inSpace _ _ _ _ _ le_rfl h.devInSpace

theorem nextFrame_store {s : State} (h : StoreShape s) {f : FrameReq} (hf : f.inChain s.cfg.n)
    (rest : List FrameReq) : StoreShape (nextFrame (f :: rest) s) := by
  cases hs : s.cfg.sel with
  | hw =>
    have hw : StoreShape (serWrite (build f s).frame (build f s)) := (build_store h hf).congr rfl rfl rfl
    simp only [nextFrame, hs, sendFrame_hw hs]
    exact (settle_store hw _ _).congr rfl rfl rfl
  | sw =>
    simp only [nextFrame, hs]
    exact (build_store h hf).congr rfl rfl rfl

theorem releaseSelect_store {s : State} (h : StoreShape s) (r1 : Answer) (r2 : Option Answer)
    (todo : List FrameReq) : StoreShape (releaseSelect r1 r2 todo s) :=
  (settle_store (h.congr (t := pinHigh s) rfl rfl rfl) _ _).congr rfl rfl rfl

theorem progressAfter_todo (st : Status) (todo : List FrameReq) : (progressAfter st todo).todo ⊆ todo := by
  unfold progressAfter
  split
  · exact List.Subset.refl _
  · exact List.nil_subset _

/-- The first call of a frame leaves at most the frames after it to be built. -/
theorem nextFrame_todo (f : FrameReq) (rest : List FrameReq) (s : State) :
    (nextFrame (f :: rest) s).progress.todo ⊆ rest := by
  cases hs : s.cfg.sel with
  | hw => simp only [nextFrame, hs]; exact progressAfter_todo _ _
  | sw =>
    simp only [nextFrame, hs, setProgress_progress]
    cases s.upcoming 0
    · exact List.Subset.refl _
    · exact List.nil_subset _

/-- After a call the shape holds when its parts about `CFG`, `FB` and `DEV` do and no frame but those still to come was
added. -/
theorem StoreShape.shape_of_called {s t : State} {k : Nat} {todo : List FrameReq} (h : StoreShape t) (hc : Called s t k)
    (hsub : t.progress.todo ⊆ todo) (htodo : ∀ f ∈ todo, f.inChain s.cfg.n) : ShapeInv t :=
  h.shape (fun f hf => by rw [hc.cfg]; exact htodo f (hsub hf)) hc.notAtRelease

theorem nextFrame_shape {s : State} (h : StoreShape s) {f : FrameReq} {rest : List FrameReq}
    (hc : ∀ g ∈ f :: rest, g.inChain s.cfg.n) : ShapeInv (nextFrame (f :: rest) s) :=
  (nextFrame_store h (hc f List.mem_cons_self) rest).shape_of_called (nextFrame_called f rest s) (nextFrame_todo f rest s)
    fun g hg => hc g (List.mem_cons_of_mem _ hg)

theorem releaseSelect_shape {s : State} (h : StoreShape s) (r1 : Answer) (r2 : Option Answer)
    {todo : List FrameReq} (hc : ∀ g ∈ todo, g.inChain s.cfg.n) : ShapeInv (releaseSelect r1 r2 todo s) :=
  (releaseSelect_store h r1 r2 todo).shape_of_called (releaseSelect_called r1 r2 todo s) (progressAfter_todo _ _) hc

theorem atRelease_of_idle {s : State} (h : s.busy = false) : s.atRelease = false := by
  rw [← Bool.not_eq_true, atRelease_iff]
  exact fun e => ((idle_iff s).1 h).1 e.1

theorem writeFrame_shape {s : State} (h : StoreShape s) {todo : List FrameReq}
    (hc : ∀ g ∈ todo, g.inChain s.cfg.n) : ShapeInv (writeFrame todo s) :=
  StoreShape.shape_of_called (h.congr rfl rfl rfl) (writeFrame_called todo s) (List.Subset.refl _) hc

/-- An idle block has no frames to come and is not at reset release. -/
theorem StoreShape.shape_of_idle {s t : State} (h : StoreShape s) (hc : t.cfg = s.cfg) (hf : t.fb = s.fb)
    (hd : t.dev = s.dev) (hb : t.busy = false) : ShapeInv t :=
  (h.congr hc hf hd).shape (by simp [((idle_iff t).1 hb).2, Progress.todo]) (atRelease_of_idle hb)

/-- The reset values have the shape (rule R38). -/
theorem resetRelease_shape {s : State} (hl : s.cfg.legal = true) : ShapeInv (resetRelease s) where
  legal := hl
  fbLength := List.length_replicate
  fbTail := List.drop_replicate
  devCanonical := Memory.wf_nil
  devInSpace := fun _ _ hm => absurd hm List.not_mem_nil
  todoInChain := fun _ hf => absurd hf List.not_mem_nil
  releaseIsReset := fun _ => rfl

theorem Moves.keeps_shape {s t : State} (h : ShapeInv s) (m : Moves s t) : ShapeInv t := by
  have todo {p : Progress} (hp : s.progress = p) : ∀ f ∈ p.todo, f.inChain s.cfg.n := hp ▸ h.todoInChain
  cases m with
  | stay => exact h
  | reset acts => exact resetRelease_shape (s := { s with port := acts }) h.legal
  | noWord bytes acts hb => exact h.store.shape_of_idle rfl rfl rfl hb
  | complete bytes acts c st r hb => exact h.store.shape_of_idle rfl rfl rfl hb
  | command bytes acts c f rest _ _ _ hc =>
    exact nextFrame_shape (s := { s with port := acts, cmd := c }) (h.store.congr rfl rfl rfl) hc
  | init f rest _ _ hi => exact nextFrame_shape h.store (hi ▸ initFrames_inChain)
  | next f rest hp => exact nextFrame_shape h.store (todo hp)
  | write rest hp => exact writeFrame_shape h.store (todo hp)
  | release r rest hp => exact releaseSelect_shape h.store _ _ (todo hp)
  | giveUp => exact releaseSelect_shape h.store _ _ fun _ hf => absurd hf List.not_mem_nil
  | finish st => exact h.store.shape_of_idle (finish_cfg st s) (finish_fb st s) (finish_dev st s) (finish_busy st s)

theorem callStep_keeps_shape (s t : State) (h : ShapeInv s) (hs : callStep s = .next t) : ShapeInv t :=
  (callStep_moves hs).2.keeps_shape h

/-- Settles O56: by the case analysis of what one call or completion can do, and for a whole step because it is a run of
such calls. -/
theorem stepKeepsTheShape : Obligations.StepKeepsTheShape := by
  rintro s t h (hs | hs)
  · exact step_keeps callStep_keeps_shape h hs
  · exact callStep_keeps_shape s t h hs

end Sys2Proof.Machine

/-! ### The configurations a step refuses (rule R21) -/

namespace Sys2Proof.Machine

/-- What holds of every entry of a table's list holds at every index, and the other way round. -/
theorem forall_mem_toList_iff {n : Nat} (v : Vector Byte n) (P : Byte → Prop) :
    (∀ x ∈ v.toList, P x) ↔ ∀ i, P (v.get i) := by
  constructor
  · exact fun h i => h _ (get_mem_toList v i)
  · intro h x hx
    obtain ⟨i, hi, rfl⟩ := Vector.getElem_of_mem (Vector.mem_toList_iff.1 hx)
    exact h ⟨i, hi⟩

/-- Every index of `REGADDR` is the ordinal of a register (rule R29). -/
theorem regName_ordinal_surjective : Function.Surjective RegName.ordinal := by
  intro i
  have h : (RegName.ofOrdinal i.val).map RegName.ordinal = some i := by revert i; decide
  obtain ⟨r, -, hr⟩ := Option.map_eq_some_iff.1 h
  exact ⟨r, hr⟩

theorem letter_index_surjective : Function.Surjective Letter.index := by
  intro i
  have h : ∃ p ∈ letterCodes, p.2.index = i := by revert i; decide
  obtain ⟨p, -, hp⟩ := h
  exact ⟨p.2, hp⟩

/-- Every index of `SEG` is the place of a glyph key (rule R101). -/
theorem glyphKey_index_surjective : Function.Surjective GlyphKey.index := by
  intro i
  by_cases hpunct : i.val < 3
  · have h : ∃ k ∈ [GlyphKey.space, .dash, .underscore], k.index = i := by revert i; decide
    obtain ⟨k, -, hk⟩ := h
    exact ⟨k, hk⟩
  · by_cases hdigit : i.val < 13
    · exact ⟨.digit ⟨i.val - 3, by omega⟩, Fin.ext (Nat.add_sub_of_le (by omega))⟩
    · obtain ⟨name, hname⟩ := letter_index_surjective ⟨i.val - 13, by omega⟩
      exact ⟨.letter name, Fin.ext ((congrArg (13 + ·.val) hname).trans (Nat.add_sub_of_le (by omega)))⟩

/-- Every index of `BCDC` is the place of a BCD key (rule R107). -/
theorem bcdKey_index_surjective : Function.Surjective BcdKey.index := by
  intro i
  have h : ∃ k ∈ [BcdKey.blank, .dash, .e, .h, .l, .p], k.index = i := by revert i; decide
  obtain ⟨k, -, hk⟩ := h
  exact ⟨k, hk⟩

theorem fixedAddresses_iff (c : Cfg) : c.fixedAddresses = true ↔
    c.addrOf .noOp = 0x00 ∧ ∀ i : Fin 8, c.addrOf (.digit i) = BitVec.ofNat 8 (i.val + 1) := by
  simp [Cfg.fixedAddresses]

theorem regName_ordinal_injective : Function.Injective RegName.ordinal := by
  intro r r' h
  exact Option.some.inj (by rw [← regName_ofOrdinal_ordinal r, h, regName_ofOrdinal_ordinal])

theorem toList_eq_ofFn {n : Nat} (v : Vector Byte n) : v.toList = List.ofFn v.get :=
  List.ext_getElem (by simp) fun i _ _ => by simp [Vector.get_eq_getElem]

/-- Rule R21 (d): the values of `REGADDR` are distinct when distinct names have distinct addresses. -/
theorem regaddr_nodup_iff (c : Cfg) :
    c.regaddr.toList.Nodup ↔ ∀ r r' : RegName, c.addrOf r = c.addrOf r' → r = r' := by
  rw [toList_eq_ofFn, List.nodup_ofFn]
  constructor
  · exact fun h r r' e => regName_ordinal_injective (h e)
  · intro h
    refine regName_ordinal_surjective.forall₂.2 fun r r' e => ?_
    rw [h r r' e]

/-- Legality in the words of rule R21, key by key. -/
theorem legal_iff_keys (c : Cfg) : c.legal = true ↔
    1 ≤ c.n ∧ c.n ≤ c.nmax ∧ c.nmax ≤ 255
      ∧ c.addrOf .noOp = 0x00 ∧ (∀ i : Fin 8, c.addrOf (.digit i) = BitVec.ofNat 8 (i.val + 1))
      ∧ (∀ r : RegName, (c.addrOf r).toNat ≤ 0x0F)
      ∧ (∀ r r' : RegName, c.addrOf r = c.addrOf r' → r = r')
      ∧ (∀ k : GlyphKey, (c.segOf k).getLsbD 7 = false)
      ∧ (∀ k : BcdKey, (c.bcdOf k).getLsbD 7 = false) := by
  rw [legal_iff, fixedAddresses_iff, regaddr_nodup_iff, forall_mem_toList_iff, forall_mem_toList_iff,
    forall_mem_toList_iff, regName_ordinal_surjective.forall, glyphKey_index_surjective.forall,
    bcdKey_index_surjective.forall]
  simp only [and_assoc]
  rfl

/-- An act of the host gives a next state whatever commands are handed to, if that does. -/
theorem hostAct_next {run : Instr → State → Host.Outcome State Fault Refusal} (hrun : ∀ i s, ∃ t, run i s = .next t)
    (s : State) : ∃ t, hostAct run s = .next t := by
  unfold hostAct
  split
  · exact ⟨_, rfl⟩
  · unfold present
    split
    · exact ⟨_, rfl⟩
    · split
      · exact ⟨_, rfl⟩
      · unfold acceptWord
        split
        · exact hrun _ _
        · exact ⟨_, rfl⟩
  · exact ⟨_, rfl⟩

/-- What a step would do with a legal `CFG` is no refusal, so `illegalConfig` is the answer to an illegal one alone. -/
theorem guarded_illegalConfig_iff {s : State} {o : Host.Outcome State Fault Refusal} (ho : ∃ t, o = .next t) :
    guarded s o = .refused .illegalConfig ↔ ¬ s.cfg.legal = true := by
  obtain ⟨t, rfl⟩ := ho
  unfold guarded
  cases s.cfg.legal <;> cases selectReady s <;> simp

theorem step_illegalConfig_iff (s : State) : step s = .refused .illegalConfig ↔ ¬ s.cfg.legal = true := by
  refine guarded_illegalConfig_iff ?_
  cases s.busy
  · exact hostAct_next exec_next s
  · exact ⟨_, rfl⟩

theorem callStep_illegalConfig_iff (s : State) : callStep s = .refused .illegalConfig ↔ ¬ s.cfg.legal = true := by
  refine guarded_illegalConfig_iff ?_
  cases s.busy
  · exact hostAct_next (fun _ _ => ⟨_, rfl⟩) s
  · exact ⟨_, rfl⟩

/-- Settles O12: at either grain the refusal is that of an illegal `CFG`, and legality is the parts of rule R21 because
every entry of a table belongs to a key. -/
theorem illegalConfigurationIsRefused : Obligations.IllegalConfigurationIsRefused := by
  intro s
  rw [callStep_illegalConfig_iff, step_illegalConfig_iff, legal_iff_keys]
  exact ⟨Iff.rfl, Iff.rfl⟩

end Sys2Proof.Machine

/-! ### What every command leaves alone, and who writes `RES` and `FAULT` -/

namespace Sys2Proof.Machine

/-! #### The outcomes of a command, and its frame -/

/-- Everything a command can do, in every state: an encoder's result, a refusal, or frames sent and their status. -/
theorem exec_cases {i : Instr} {s t : State} (h : exec i s = .next t) :
    (isEncoder i = true ∧ ∃ v, t = { s with res := v, status := .ok })
      ∨ (isEncoder i = false ∧ ∃ st, st ≠ .ok ∧ t = refusedWith st s)
      ∨ (isEncoder i = false ∧ ∃ fs, (∀ f ∈ fs, f.inChain s.cfg.n)
          ∧ t = complete (sendFrames fs s).1 (sendFrames fs s).2) := by
  cases he : isEncoder i with
  | true =>
    obtain ⟨v, hv⟩ := exec_encoder he s
    exact .inl ⟨rfl, v, Host.Outcome.next.inj (h.symm.trans hv)⟩
  | false =>
    obtain rfl : t = outcomeOf i s := Host.Outcome.next.inj (h.symm.trans (exec_sending he s))
    refine .inr ?_
    rcases outcome_refused_cases i s with ⟨e, _⟩ | ⟨e, _⟩ | ⟨e, _⟩ | ⟨e, hp⟩
    · exact .inl ⟨rfl, _, by simp, e⟩
    · exact .inl ⟨rfl, _, by simp, e⟩
    · exact .inl ⟨rfl, _, by simp, e⟩
    · exact .inr ⟨rfl, _, requestsOf_inChain hp.legal (performed_range hp), e⟩

/-- Settles O44: an encoder writes `RES` and `STATUS`, a refusal `STATUS` and `FAULT`, and frames write neither `RES` nor
`FB` above the frame. -/
theorem commandFrame : Obligations.CommandFrame := by
  intro i s t h
  rcases exec_cases h with ⟨he, v, rfl⟩ | ⟨he, st, _, rfl⟩ | ⟨he, fs, hin, rfl⟩
  · exact ⟨rfl, rfl, rfl, rfl, rfl, ⟨[], (List.append_nil _).symm⟩, rfl,
      fun hf => absurd he (by simp [hf]), fun _ => rfl⟩
  · exact ⟨rfl, rfl, rfl, rfl, rfl, ⟨[], (List.append_nil _).symm⟩, rfl, fun _ => rfl,
      fun ht => absurd he (by simp [ht])⟩
  · obtain ⟨hcfg, hlc, _, hcmd, hres, hport, htrace, hfb⟩ := sendFrames_fields hin
    exact ⟨hcfg, hlc, hcmd, hport, (sendFrames_keeps_place fs s).2, htrace, hfb, fun _ => hres,
      fun ht => absurd he (by simp [ht])⟩

/-- `FAULT` after a command (rules R24, R206). -/
theorem exec_fault {i : Instr} {s t : State} (h : exec i s = .next t) : t.fault = (s.fault || t.status != .ok) := by
  rcases exec_cases h with ⟨_, v, rfl⟩ | ⟨_, st, hst, rfl⟩ | ⟨_, fs, hin, rfl⟩
  · simp
  · simp [hst]
  · obtain ⟨_, _, hfault, _⟩ := sendFrames_fields hin
    rw [complete_fault, complete_status, faultAfter, hfault]

/-- `RES` after a command that is no encoder (rule R27). -/
theorem exec_res {i : Instr} {s t : State} (he : isEncoder i = false) (h : exec i s = .next t) : t.res = s.res := by
  obtain ⟨-, -, -, -, -, -, -, hres, -⟩ := commandFrame i s t h
  exact hres he

/-! #### A busy block -/

/-- What one call or completion of a busy block leaves alone. -/
theorem advance_keeps {s : State} (hb : s.busy = true) :
    (advance s).port = s.port ∧ (advance s).res = s.res ∧ (s.fault = true → (advance s).fault = true) := by
  rcases advance_cases hb with ⟨k, _, hc⟩ | ⟨st, e, _⟩
  · exact ⟨hc.port, hc.res, fun hf => hc.fault.trans hf⟩
  · rw [e]
    exact ⟨finish_port st s, finish_res st s, fun hf => by simp [faultAfter, hf]⟩

/-- A step of a busy block runs what is running to its completion. -/
theorem step_busy {s t : State} (h : step s = .next t) (hb : s.busy = true) : t = runOut s := by
  obtain ⟨-, ⟨-, -, ht⟩ | ⟨hi, -⟩⟩ := step_next_cases h
  · exact ht
  · simp [hb] at hi

/-- What a step of a busy block leaves alone, at either grain. -/
theorem busy_step_keeps {s t : State} (h : step s = .next t ∨ callStep s = .next t) (hb : s.busy = true) :
    t.port = s.port ∧ t.res = s.res ∧ (s.fault = true → t.fault = true) := by
  rcases h with h | h
  · rw [step_busy h hb]
    refine (runOut_runs s).keeps (P := fun u => u.port = s.port ∧ u.res = s.res ∧ (s.fault = true → u.fault = true))
      (fun u hu hk => ?_) ⟨rfl, rfl, id⟩
    obtain ⟨hport, hres, hfault⟩ := hk
    obtain ⟨hport', hres', hfault'⟩ := advance_keeps hu
    exact ⟨hport'.trans hport, hres'.trans hres, hfault' ∘ hfault⟩
  · obtain ⟨-, ⟨-, -, rfl⟩ | ⟨hi, -⟩⟩ := callStep_next_cases h
    · exact advance_keeps hb
    · simp [hb] at hi

/-- A busy block accepts no word (rules R28, R70). -/
theorem present_busy (run : Instr → State → Host.Outcome State Fault Refusal) (bytes : List Byte) {s : State}
    (hb : s.busy = true) : present run bytes s = .next s := by simp [present, hb]

/-- Settles O10: BUSY in its parts, and a busy block looks at no word and takes no act. -/
theorem wordWhileBusyHasNoEffect : Obligations.WordWhileBusyHasNoEffect := by
  refine ⟨busy_iff, fun s bytes hb => ⟨present_busy _ _ hb, present_busy _ _ hb⟩, fun s t h hb => ?_⟩
  exact (busy_step_keeps h hb).1

/-! #### A word presented to an idle block -/

/-- A step of an idle block is the host's act. -/
theorem step_idle {s t : State} (h : step s = .next t) (hb : s.busy = false) : hostAct exec s = .next t := by
  obtain ⟨-, ⟨hb', -, -⟩ | ⟨-, ha⟩⟩ := step_next_cases h
  · simp [hb] at hb'
  · exact ha

/-- The step of an idle block that is offered a whole word is the acceptance of that word. -/
theorem step_word {s t : State} (h : step s = .next t) (hb : s.busy = false) {bytes rest : List Byte}
    {acts : List HostAct} {c : CmdWord} (hp : s.port = .word bytes :: acts) (ht : takeWord bytes = some (c, rest)) :
    acceptWord exec c { s with port := acts } = .next t :=
  (hostAct_word exec hb hp ht).symm.trans (step_idle h hb)

/-- The step of an idle block that is offered a word that is no legal command (rule R203). -/
theorem step_refusedWord {s t : State} (h : step s = .next t) (hb : s.busy = false) {bytes rest : List Byte}
    {acts : List HostAct} {c : CmdWord} {e : Reject} (hp : s.port = .word bytes :: acts)
    (ht : takeWord bytes = some (c, rest)) (hd : decodeFields c = .error e) :
    ∃ st, st ≠ .ok ∧ t = refusedWith st { s with port := acts, cmd := c } := by
  have ha := step_word h hb hp ht
  rw [acceptWord, hd] at ha
  obtain ⟨st, hst, hr⟩ := rejectWord_eq c.op { s with port := acts, cmd := c }
  exact ⟨st, by rcases hst with rfl | ⟨rfl, -⟩ <;> simp, (Host.Outcome.next.inj ha).symm.trans hr⟩

/-- The step of an idle block whose host resets it (rule R230). -/
theorem step_reset {s t : State} (h : step s = .next t) (hb : s.busy = false) {acts : List HostAct}
    (hp : s.port = .reset :: acts) : t = resetRelease { s with port := acts } := by
  have ha := step_idle h hb
  rw [hostAct, hp] at ha
  exact (Host.Outcome.next.inj ha).symm

/-- Settles O46: the encoders write their byte; a refused word writes `STATUS` and `FAULT`, and a call or completion of a
running command leaves `RES`. -/
theorem resIsWrittenByTheEncodersOnly : Obligations.ResIsWrittenByTheEncodersOnly := by
  refine ⟨fun i s t h => ?_, fun s t bytes rest acts c e h hb hp ht hd => ?_, fun s t h hb => ?_, fun s => rfl, rfl⟩
  · cases i with
    | segenc ch dot => exact Host.Outcome.next.inj h ▸ rfl
    | bcdenc ch => exact Host.Outcome.next.inj h ▸ rfl
    | _ => exact exec_res rfl h
  · obtain ⟨st, -, rfl⟩ := step_refusedWord h hb hp ht hd
    rfl
  · obtain ⟨-, hres, -⟩ := busy_step_keeps h hb
    exact hres

/-! #### `FAULT` -/

/-- `FAULT` after a whole word is accepted, performed or refused (rules R24, R206). -/
theorem step_word_fault {s t : State} (h : step s = .next t) (hb : s.busy = false) {bytes : List Byte}
    {acts : List HostAct} (hp : s.port = .word bytes :: acts) (ht : (takeWord bytes).isSome = true) :
    t.fault = (s.fault || t.status != .ok) := by
  obtain ⟨⟨c, rest⟩, ht⟩ := Option.isSome_iff_exists.1 ht
  cases hd : decodeFields c with
  | ok i =>
    have ha := step_word h hb hp ht
    rw [acceptWord, hd] at ha
    exact exec_fault (s := { s with port := acts, cmd := c }) ha
  | error e =>
    obtain ⟨st, hst, rfl⟩ := step_refusedWord h hb hp ht hd
    simp [hst]

/-- `FAULT` when what was running has completed (rules R24, R206, R233). -/
theorem runOut_fault {s : State} (hb : s.busy = true) : (runOut s).fault = (s.fault || (runOut s).status != .ok) := by
  obtain ⟨st, u, e, -, -, -, hf, -⟩ := runOut_cases hb
  rw [e, finish_fault, finish_status, hf, faultAfter]

/-- One call, or one completion, sets `FAULT` or leaves it; where the block is still busy afterwards it was a call and left
it. Only a reset does anything else. -/
theorem Moves.fault {s t : State} (m : Moves s t) :
    ((s.fault = true → t.fault = true) ∧ (t.busy = true → t.fault = s.fault))
      ∨ (s.busy = false ∧ ∃ acts, s.port = .reset :: acts) := by
  have called {u : State} (hc : u.fault = s.fault) :
      (s.fault = true → u.fault = true) ∧ (u.busy = true → u.fault = s.fault) :=
    ⟨fun hf => hc.trans hf, fun _ => hc⟩
  cases m with
  | stay => exact .inl ⟨id, fun _ => rfl⟩
  | reset acts hb hp => exact .inr ⟨hb, acts, hp⟩
  | noWord bytes acts hb => exact .inl ⟨id, fun _ => rfl⟩
  | complete bytes acts c st r hb =>
    exact .inl ⟨fun hf => by simp [faultAfter, hf], fun h => absurd (hb.symm.trans h) Bool.false_ne_true⟩
  | command bytes acts c f rest => exact .inl (called (nextFrame_called f rest { s with port := acts, cmd := c }).fault)
  | init f rest => exact .inl (called (nextFrame_called f rest s).fault)
  | next f rest => exact .inl (called (nextFrame_called f rest s).fault)
  | write rest => exact .inl (called (writeFrame_called rest s).fault)
  | release r rest => exact .inl (called (releaseSelect_called _ _ rest s).fault)
  | giveUp => exact .inl (called (releaseSelect_called _ _ [] s).fault)
  | finish st => exact .inl ⟨fun hf => by simp [faultAfter, hf], fun h => by simp at h⟩

/-- A step clears `FAULT` at either grain only as a reset (rule R24). -/
theorem step_fault {s t : State} (h : step s = .next t ∨ callStep s = .next t) :
    (s.fault = true → t.fault = true) ∨ (s.busy = false ∧ ∃ acts, s.port = .reset :: acts) := by
  rcases h with h | h
  · cases hb : s.busy with
    | true =>
      obtain ⟨-, -, hf⟩ := busy_step_keeps (.inl h) hb
      exact .inl hf
    | false =>
      rcases hostAct_cases hb (step_idle h hb) with ⟨-, rfl⟩ | ⟨acts, hp, -⟩ | ⟨bytes, acts, -, -, rfl⟩ |
        ⟨bytes, acts, c, rest, hp, ht, -⟩
      · exact .inl id
      · exact .inr ⟨rfl, acts, hp⟩
      · exact .inl id
      · exact .inl fun hf => by rw [step_word_fault h hb hp (by rw [ht]; rfl), hf, Bool.true_or]
  · exact (callStep_moves h).2.fault.imp_left And.left

/-- Settles O47: every completion's `FAULT` is `faultAfter`, a call leaves it, and a reset alone clears it. -/
theorem faultIsSticky : Obligations.FaultIsSticky := by
  refine ⟨fun i s t h => exec_fault h, fun s t bytes acts h hb hp ht => step_word_fault h hb hp ht, fun s t h hb => ?_,
    fun s t h hb => ?_, fun s t h hs ht => ?_, fun s t acts h hb hp => ?_, rfl⟩
  · rw [step_busy h hb]
    exact runOut_fault hb
  · exact (callStep_moves h).2.fault.imp_left fun hf => hf.2 hb
  · exact (step_fault h).resolve_left fun hf => by simp [hf hs] at ht
  · rw [step_reset h hb hp, resetRelease_fault]

end Sys2Proof.Machine

/-! ### What no command reads -/

namespace Sys2Proof.Machine

/-- `u'` is `u` but for the four parts no command reads (rules R36, R37, R123), and the two have gained the same events,
`u` after `tr` and `u'` after `tr'`. -/
def InStep (tr tr' : List Event) (u u' : State) : Prop :=
  ∃ fb es cs dev, u.trace = tr ++ es ∧ u' = { u with fb := fb, trace := tr' ++ es, cs := cs, dev := dev }

theorem inStep_start (s : State) (fb : List Byte) (tr : List Event) (cs : Level) (dev : Memory) :
    InStep s.trace tr s { s with fb := fb, trace := tr, cs := cs, dev := dev } :=
  ⟨fb, [], cs, dev, (List.append_nil _).symm, by rw [List.append_nil]⟩

section
variable {tr tr' : List Event} {u u' : State}

theorem InStep.cfg (h : InStep tr tr' u u') : u'.cfg = u.cfg := by obtain ⟨_, _, _, _, _, rfl⟩ := h; rfl

theorem InStep.lc (h : InStep tr tr' u u') : u'.lc = u.lc := by obtain ⟨_, _, _, _, _, rfl⟩ := h; rfl

theorem InStep.upcoming (h : InStep tr tr' u u') (j : Nat) : u'.upcoming j = u.upcoming j := by
  obtain ⟨_, _, _, _, _, rfl⟩ := h; rfl

/-- Completing looks at `STATUS` and `FAULT` alone (rule R206). -/
theorem complete_inStep (h : InStep tr tr' u u') (st : Status) : InStep tr tr' (complete st u) (complete st u') := by
  obtain ⟨fb, es, cs, dev, ht, rfl⟩ := h
  exact ⟨fb, es, cs, dev, ht, rfl⟩

theorem result_inStep (h : InStep tr tr' u u') (v : Byte) : InStep tr tr' { u with res := v } { u' with res := v } := by
  obtain ⟨fb, es, cs, dev, ht, rfl⟩ := h
  exact ⟨fb, es, cs, dev, ht, rfl⟩

theorem afterFrame_inStep (h : InStep tr tr' u u') (f : List Byte) (es : List Event) (st : Status) :
    InStep tr tr' (afterFrame u f es st) (afterFrame u' f es st) := by
  obtain ⟨fb, old, cs, dev, ht, hu⟩ := h
  refine ⟨(afterFrame u' f es st).fb, old ++ es, (afterFrame u' f es st).cs, (afterFrame u' f es st).dev, ?_, ?_⟩
  · rw [← List.append_assoc, ← ht]; rfl
  · subst hu; rw [← List.append_assoc]; rfl

/-- A frame is built over whatever `FB` holds, and the environment answers by the calls alone: the same row of rule R126. -/
theorem sendFrame_inStep (h : InStep tr tr' u u') {f : FrameReq} (hf : f.inChain u.cfg.n) :
    (sendFrame f u').1 = (sendFrame f u).1 ∧ InStep tr tr' (sendFrame f u).2 (sendFrame f u').2 := by
  obtain ⟨es, st, hrow, ha, hs⟩ := sendFrame_row hf
  have ha' : AnswersFrom u' 0 es := fun j hj => by rw [h.upcoming]; exact ha j hj
  rw [← h.cfg] at hf hrow hs
  rw [hs, sendFrame_of_row hf hrow ha']
  exact ⟨rfl, afterFrame_inStep h _ es st⟩

theorem sendFrame_cfg {f : FrameReq} {s : State} (hf : f.inChain s.cfg.n) : (sendFrame f s).2.cfg = s.cfg := by
  obtain ⟨es, st, -, -, e⟩ := sendFrame_row hf
  rw [e]; rfl

theorem sendFrames_inStep {fs : List FrameReq} (h : InStep tr tr' u u') (hfs : ∀ f ∈ fs, f.inChain u.cfg.n) :
    (sendFrames fs u').1 = (sendFrames fs u).1 ∧ InStep tr tr' (sendFrames fs u).2 (sendFrames fs u').2 := by
  induction fs generalizing u u' with
  | nil => exact ⟨rfl, h⟩
  | cons f fs ih =>
    have hf := hfs f List.mem_cons_self
    obtain ⟨hst, hnext⟩ := sendFrame_inStep h hf
    simp only [sendFrames, hst]
    split
    · exact ih hnext fun g hg => by rw [sendFrame_cfg hf]; exact hfs g (List.mem_cons_of_mem _ hg)
    · exact ⟨rfl, hnext⟩

/-- The tests before the first frame look at `LC` and the configuration (rule R131). -/
theorem perform_inStep (h : InStep tr tr' u u') {w : Work}
    (hw : ∀ k todo, w = .frames k todo → indexInRange u.cfg.n k = true → ∀ f ∈ todo, f.inChain u.cfg.n) :
    InStep tr tr' (perform w u) (perform w u') := by
  cases w with
  | result v => exact complete_inStep (result_inStep h v) .ok
  | illegal =>
    simp only [perform, enter, refuseIllegal, h.lc]
    split <;> exact complete_inStep h _
  | frames k todo =>
    simp only [perform, enter, h.lc, h.cfg]
    split
    · exact complete_inStep h _
    · split
      · exact complete_inStep h _
      · next hk =>
        obtain ⟨hst, hsent⟩ := sendFrames_inStep h (hw k todo rfl (by simpa using hk))
        rw [sendAll, sendAll, hst]
        exact complete_inStep hsent _

end

/-- A command keeps two such states in step. -/
theorem exec_inStep {tr tr' : List Event} {s s' t : State} (h : InStep tr tr' s s') {i : Instr}
    (ht : exec i s = .next t) : ∃ t', exec i s' = .next t' ∧ InStep tr tr' t t' := by
  refine ⟨_, exec_eq i s', ?_⟩
  rw [← Host.Outcome.next.inj ((exec_eq i s).symm.trans ht), h.cfg]
  exact perform_inStep h fun k todo hw hk => workOf_inChain hw hk

/-- Settles O59: the two states start in step and the command keeps them so. -/
theorem staleFramesAndDevicesDoNotShow : Obligations.StaleFramesAndDevicesDoNotShow := by
  intro i s t fb tr cs dev h
  obtain ⟨t', ht', fb', es, cs', dev', htr, rfl⟩ := exec_inStep (inStep_start s fb tr cs dev) h
  exact ⟨_, es, ht', htr, rfl, rfl, rfl, rfl, rfl, rfl, rfl, rfl⟩

/-! ### The state at reset -/

theorem resetOf_shape {c : Cfg} (hl : c.legal = true) : ShapeInv (State.resetOf c) :=
  resetRelease_shape (s := State.resetOf c) hl

theorem resetOf_trace (c : Cfg) : TraceInv (State.resetOf c) where
  order := rfl
  frames := fun _ _ he => absurd he List.not_mem_nil
  devices := rfl
  select := rfl

theorem resetOf_fault (c : Cfg) : FaultInv (State.resetOf c) where
  statusOk := fun _ => rfl
  answersOk := fun _ _ _ he => absurd he List.not_mem_nil
  failedFault := fun hf => nomatch hf

/-- Settles O55: at reset no event has happened, no register is known and no status but OK was given. -/
theorem resetMeetsTheInvariants : Obligations.ResetMeetsTheInvariants := by
  have h (c : Cfg) (hl : c.legal = true) :
      ShapeInv (State.resetOf c) ∧ TraceInv (State.resetOf c) ∧ FaultInv (State.resetOf c) :=
    ⟨resetOf_shape hl, resetOf_trace c, resetOf_fault c⟩
  exact ⟨h _ reset_cfg_legal, h⟩

/-- Settles O60: the codes are the tables' own, and the reset state is read field by field. -/
theorem hostReadsTheCodes : Obligations.HostReadsTheCodes :=
  ⟨rfl, rfl, rfl, rfl, rfl, rfl, rfl, rfl, rfl, rfl⟩

end Sys2Proof.Machine

/-! ### `TRACE` accounts for the devices and for select -/

namespace Sys2Proof.Machine

/-! #### The order of events -/

/-- In the `HW` variant no event leaves a transfer open: each is a whole frame (rules R124, R129). -/
theorem phaseAfter_hw_between {p : Option Phase} {e : Event} {q : Phase} (h : phaseAfter .hw p e = some q) :
    q = .between := by
  rcases p with _ | _ | _ | _ | _ <;> cases e <;> cases h
  rfl

theorem phases_hw_between (es : List Event) {q : Phase}
    (h : es.foldl (phaseAfter .hw) (some .between) = some q) : q = .between := by
  rcases List.eq_nil_or_concat es with rfl | ⟨es, e, rfl⟩
  · exact (Option.some.inj h).symm
  · rw [List.concat_eq_append, List.foldl_append] at h
    exact phaseAfter_hw_between h

/-- Only a software-select block stands inside a frame. -/
theorem TraceInv.sel_sw {s : State} (h : TraceInv s) (hp : s.progress.phase ≠ .between) : s.cfg.sel = .sw := by
  cases hs : s.cfg.sel with
  | sw => rfl
  | hw => exact absurd (phases_hw_between _ (hs ▸ h.order)) hp

/-! #### What one call adds -/

/-- With no call made the account stays, wherever the block's own position moves between two frames. -/
theorem TraceInv.congr {s t : State} (h : TraceInv s) (hc : t.cfg = s.cfg) (ht : t.trace = s.trace)
    (hd : t.dev = s.dev) (hs : t.cs = s.cs) (hp : t.progress.phase = s.progress.phase)
    (hf : t.sentFrame = s.sentFrame) : TraceInv t where
  order := by rw [hc, ht, hp, h.order]
  frames := by rw [hc, ht]; exact h.frames
  devices := by rw [hc, ht, hd, hf, h.devices]
  select := by rw [hc, ht, hs, h.select]

/-- One call: the account goes on when its event comes in order, carries a whole frame if it is a write, and says what
the call did to the devices and to select. -/
theorem TraceInv.call {s t : State} {e : Event} (h : TraceInv s) (hc : t.cfg = s.cfg) (ht : t.trace = s.trace ++ [e])
    (ho : phaseAfter s.cfg.sel (some s.progress.phase) e = some t.progress.phase)
    (hf : ∀ f r, e = .tx f r → f.length = 2 * s.cfg.n)
    (hd : observe s.cfg { dev := s.dev, sent := s.sentFrame } e = { dev := t.dev, sent := t.sentFrame })
    (hs : t.cs = observeSelect s.cfg.sel s.cs e) : TraceInv t where
  order := by rw [hc, ht, List.foldl_append, h.order]; exact ho
  frames := by
    intro f r hm
    rw [ht, List.mem_append, List.mem_singleton] at hm
    rw [hc]
    exact hm.elim (h.frames f r) fun e => hf f r e.symm
  devices := by
    rw [hc, ht, ← hd, ← h.devices, replay, List.foldl_append]; rfl
  select := by rw [hc, ht, replaySelect, List.foldl_append, hs, h.select]; rfl

/-! #### Each call -/

theorem progressAfter_phase (st : Status) (todo : List FrameReq) : (progressAfter st todo).phase = .between := by
  unfold progressAfter; split <;> rfl

theorem sentFrame_of_between {s : State} (hp : s.progress.phase = .between) : s.sentFrame = none := by
  unfold State.sentFrame
  split
  · next h => rw [h] at hp; cases hp
  · rfl

/-- After a frame's last call none is left unlatched. -/
@[simp] theorem progressAfter_sentFrame (st : Status) (todo : List FrameReq) (s : State) :
    (s.setProgress (progressAfter st todo)).sentFrame = none :=
  sentFrame_of_between (progressAfter_phase st todo)

theorem phase_of_idle {s : State} (hp : s.progress = .idle) : s.progress.phase = .between := by rw [hp]; rfl

/-- The first call of a frame: in the `HW` variant the whole of it, in the `SW` variant the drive to low (rules R124,
R125). -/
theorem nextFrame_traceInv {s : State} (h : TraceInv s) (hp : s.progress.phase = .between) {f : FrameReq}
    (hf : f.inChain s.cfg.n) (rest : List FrameReq) : TraceInv (nextFrame (f :: rest) s) := by
  cases hs : s.cfg.sel with
  | hw =>
    simp only [nextFrame, hs, sendFrame_hw hs, transferHW]
    refine h.call (e := .tx (frameBytes s.cfg.n f) (s.upcoming 0)) (by simp) (by simp [build_frame hf]) ?_ ?_ ?_ ?_
    · rw [hs, hp, setProgress_progress, progressAfter_phase]; rfl
    · rintro g r ⟨⟩
      exact frameBytes_length _ _
    · cases h0 : s.upcoming 0 <;> simp [observe, hs, h0, build_frame hf]
    · cases h0 : s.upcoming 0 <;> simp [observeSelect, hs, h0]
  | sw =>
    simp only [nextFrame, hs]
    refine h.call (e := .pl (s.upcoming 0)) (by simp) (by simp) ?_ nofun ?_ (by simp [observeSelect])
    · rw [hs, hp]; cases s.upcoming 0 <;> rfl
    · cases s.upcoming 0 <;> simp [observe, hs, State.sentFrame]

theorem StoreShape.frame_length {s : State} (h : StoreShape s) : s.frame.length = 2 * s.cfg.n := by
  have hn := legal_n_le h.legal
  rw [State.frame, List.length_take, h.fbLength]
  omega

/-- The write of a `SW` frame: sent whole if it was answered `ok`, and not latched yet (rule R125). -/
theorem writeFrame_traceInv {s : State} (h : TraceInv s) (hshape : StoreShape s) {todo : List FrameReq}
    (hp : s.progress = .selected todo) : TraceInv (writeFrame todo s) := by
  have hs : s.cfg.sel = .sw := h.sel_sw (by simp [hp, Progress.phase])
  refine h.call (e := .tx s.frame (s.upcoming 0)) rfl rfl ?_ ?_ ?_ ?_
  · rw [hs, hp]; rfl
  · rintro g r ⟨⟩
    exact hshape.frame_length
  · cases h0 : s.upcoming 0 <;> simp [observe, hs, writeFrame, State.sentFrame, h0]
  · rfl

theorem swStatus_high_failed (r1 : Answer) (r2 : Option Answer) : swStatus r1 r2 .err = .pinErr := by simp [swStatus]

/-- The drive to high that ends a `SW` frame: the devices latch what was sent whole, if the drive was good, and are
unknown otherwise (rules R51, R52, R125). -/
theorem releaseSelect_traceInv {s : State} (h : TraceInv s) {r1 : Answer} {r2 : Option Answer} (todo : List FrameReq)
    (hp : s.progress.phase = .written ∨ s.progress.phase = .lowFailed)
    (hsent : s.sentFrame = if swStatus r1 r2 .ok = .ok then some s.frame else none) :
    TraceInv (releaseSelect r1 r2 todo s) := by
  have hs : s.cfg.sel = .sw := h.sel_sw (by rcases hp with hp | hp <;> simp [hp])
  have hout : (releaseSelect r1 r2 todo s).sentFrame = none := progressAfter_sentFrame _ _ _
  refine h.call (e := .ph (s.upcoming 0)) (by simp [releaseSelect]) (by simp [releaseSelect]) ?_ nofun ?_
    (by simp [observeSelect, releaseSelect])
  · rw [hs, releaseSelect, setProgress_progress, progressAfter_phase]
    rcases hp with hp | hp <;> rw [hp] <;> rfl
  · rw [hout, hsent]
    cases h0 : s.upcoming 0 with
    | ok => by_cases hok : swStatus r1 r2 .ok = .ok <;> simp [observe, releaseSelect, hs, h0, hok]
    | err => simp [observe, releaseSelect, hs, h0, swStatus_high_failed]

theorem Moves.keeps_trace {s t : State} (hshape : ShapeInv s) (h : TraceInv s) (m : Moves s t) : TraceInv t := by
  have todo {p : Progress} (hp : s.progress = p) : ∀ f ∈ p.todo, f.inChain s.cfg.n := hp ▸ hshape.todoInChain
  cases m with
  | stay => exact h
  | reset acts => exact (resetOf_trace s.cfg).congr rfl rfl rfl rfl rfl rfl
  | noWord bytes acts => exact h.congr rfl rfl rfl rfl rfl rfl
  | complete bytes acts c st r => exact h.congr rfl rfl rfl rfl rfl rfl
  | command bytes acts c f rest hb _ _ hc =>
    have hs : TraceInv { s with port := acts, cmd := c } := h.congr rfl rfl rfl rfl rfl rfl
    exact nextFrame_traceInv hs (phase_of_idle ((idle_iff s).1 hb).2) (hc f List.mem_cons_self) rest
  | init f rest hr _ hi =>
    exact nextFrame_traceInv h (phase_of_idle ((atRelease_iff s).1 hr).2)
      (initFrames_inChain f (hi ▸ List.mem_cons_self)) rest
  | next f rest hp => exact nextFrame_traceInv h (by rw [hp]; rfl) (todo hp f List.mem_cons_self) rest
  | write rest hp => exact writeFrame_traceInv h hshape.store hp
  | release r rest hp =>
    refine releaseSelect_traceInv h rest (.inl (by rw [hp]; rfl)) ?_
    cases r <;> simp [State.sentFrame, hp, swStatus]
  | giveUp hp => exact releaseSelect_traceInv h [] (.inr (by rw [hp]; rfl)) (by simp [State.sentFrame, hp, swStatus])
  | finish st hp =>
    have hbetween : s.progress.phase = .between := by rcases hp with hp | ⟨hp, -⟩ <;> rw [hp] <;> rfl
    exact h.congr (finish_cfg st s) (finish_trace st s) (finish_dev st s) (finish_cs st s) hbetween.symm
      (sentFrame_of_between hbetween).symm

/-- A call or completion keeps the shape and the account together. -/
theorem callStep_keeps_account (s t : State) :
    ShapeInv s ∧ TraceInv s → callStep s = .next t → ShapeInv t ∧ TraceInv t :=
  fun ⟨hshape, h⟩ hs => ⟨callStep_keeps_shape s t hshape hs, (callStep_moves hs).2.keeps_trace hshape h⟩

/-- Settles O57: by the case analysis of what one call or completion can do, and for a whole step because it is a run of
such calls. -/
theorem stepKeepsTraceAccountingForTheChain : Obligations.StepKeepsTraceAccountingForTheChain := by
  rintro s t hshape h (hs | hs)
  · exact (step_keeps callStep_keeps_account ⟨hshape, h⟩ hs).2
  · exact (callStep_keeps_account s t ⟨hshape, h⟩ hs).2

end Sys2Proof.Machine

/-! ### The wire, one latched frame, and a failed transfer -/

namespace Sys2Proof.Machine

@[simp] theorem byteBits_length (b : Byte) : (byteBits b).length = 8 := by simp [byteBits]

theorem byteBits_getElem? (b : Byte) {j : Nat} (hj : j < 8) : (byteBits b)[j]? = some (b.getLsbD (7 - j)) := by
  simp [byteBits, hj, BitVec.getMsbD]

theorem wireBits_cons (b : Byte) (f : List Byte) : wireBits (b :: f) = byteBits b ++ wireBits f := rfl

theorem wireBits_length (f : List Byte) : (wireBits f).length = 8 * f.length := by
  induction f with
  | nil => rfl
  | cons b f ih => rw [wireBits_cons, List.length_append, byteBits_length, ih, List.length_cons]; omega

theorem wireBits_getElem? (f : List Byte) {i j : Nat} (hi : i < f.length) (hj : j < 8) :
    (wireBits f)[8 * i + j]? = some ((f.getD i 0).getLsbD (7 - j)) := by
  induction f generalizing i with
  | nil => cases hi
  | cons b f ih =>
    rw [wireBits_cons]
    cases i with
    | zero =>
      rw [List.getElem?_append_left (by simpa using hj), Nat.mul_zero, Nat.zero_add, byteBits_getElem? b hj]
      rfl
    | succ i =>
      rw [List.getElem?_append_right (by rw [byteBits_length]; omega), byteBits_length,
        show 8 * (i + 1) + j - 8 = 8 * i + j by omega, ih (Nat.lt_of_succ_lt_succ hi)]
      rfl

/-- Settles O20, by induction on the frame. -/
theorem wireBitsAreMsbFirst : Obligations.WireBitsAreMsbFirst :=
  fun f => ⟨wireBits_length f, fun _ _ hi hj => wireBits_getElem? f hi hj⟩

/-- Settles O23: one pair at a time, which `latchBelow_read` says of the whole chain. -/
theorem latchStoresEveryPair : Obligations.LatchStoresEveryPair :=
  fun f s k r => ⟨latchBelow_read s.cfg f s.dev s.cfg.n k r, rfl⟩

/-- Settles O24: of the rows of a transfer only the good one latches. -/
theorem failedTransferLeavesDevicesUnknown : Obligations.FailedTransferLeavesDevicesUnknown := by
  intro s k r hst
  obtain ⟨es, st, -, -, ht⟩ := transfer_row s
  rw [ht] at hst ⊢
  rw [State.devRead, show (afterTransfer s es st).dev = [] from if_neg hst, Memory.read_nil]

/-! ### What a command that ends in OK leaves in the devices -/

/-- A command that is no encoder and ends in OK passed its tests, and the devices have latched its frames. -/
theorem exec_ok_latched {i : Instr} {s t : State} (h : exec i s = .next t) (hst : t.status = .ok)
    (he : isEncoder i = false) :
    Performed i s ∧ t.dev = latchAll s.cfg (framesOf s.cfg.n (requestsOf s.cfg i)) s.dev := by
  rcases exec_ok_cases h hst with ⟨henc, -⟩ | ⟨-, hp, -, hdev, -⟩
  · rw [he] at henc; cases henc
  · exact ⟨hp, hdev⟩

/-- A command that sends one frame. -/
theorem exec_ok_one {i : Instr} {s t : State} {f : FrameReq} (h : exec i s = .next t) (hst : t.status = .ok)
    (hi : requestsOf s.cfg i = [f]) :
    f.inChain s.cfg.n ∧ t.dev = latchBelow s.cfg (frameBytes s.cfg.n f) s.dev s.cfg.n := by
  obtain ⟨hp, hdev⟩ := exec_ok_latched h hst (encoder_of_requests (c := s.cfg) (by simp [hi]))
  rw [hi] at hdev
  exact ⟨requestsOf_inChain hp.legal (performed_range hp) f (by simp [hi]), hdev⟩

/-- Settles O37: each of the seven commands sends one targeted frame, which is one store. -/
theorem targetedWriteChangesOneLocation : Obligations.TargetedWriteChangesOneLocation := by
  intro s t i k reg data _ h hst h0 ha hi
  have hreq : requestsOf s.cfg i = [.target k reg data] := by
    rcases hi with ⟨kb, rfl, rfl | ⟨name, rfl, rfl⟩ | ⟨mode, rfl, rfl, rfl⟩ | ⟨level, rfl, rfl, rfl⟩ |
      ⟨limit, rfl, rfl, rfl⟩ | ⟨mode, rfl, rfl, rfl⟩⟩ | ⟨rfl, digit, rfl, rfl⟩
    all_goals simp [requestsOf]
  obtain ⟨hk, hdev⟩ := exec_ok_one h hst hreq
  rw [hdev, frameBytes, latch_addr_target k hk reg data h0 ha]
  exact ⟨Memory.read_write_same _ _ _, fun a hne => Memory.read_write_other _ _ hne⟩

/-- One broadcast frame, read at any device and register byte. -/
theorem latchBelow_read_every (c : Cfg) (r v : Byte) (m : Memory) (d : Nat) (x : Byte) :
    (latchBelow c (everyFrame c.n r v) m c.n).read (devKey d x)
      = if d < c.n then afterPair c r v x (m.read (devKey d x)) else m.read (devKey d x) := by
  rw [latchBelow_read]
  split
  · next hd => rw [(everyFrame_pair _ _ _ _ hd).1, (everyFrame_pair _ _ _ _ hd).2]
  · rfl

/-- Settles O38: each sends one frame, and what a frame leaves in a device is what its pair leaves. -/
theorem rawWritesReachTheirDevices : Obligations.RawWritesReachTheirDevices := by
  intro s t reg data _
  refine ⟨fun k h hst d r => ?_, fun h hst d r => ?_⟩
  · obtain ⟨hk, hdev⟩ := exec_ok_one (f := .target k.toNat reg data) h hst rfl
    rw [State.devRead, hdev]
    exact latchAll_read_target k.toNat hk reg data s.dev d r
  · obtain ⟨-, hdev⟩ := exec_ok_one (f := .all reg data) h hst rfl
    rw [State.devRead, hdev]
    exact latchBelow_read_every s.cfg reg data s.dev d r

/-! ### Commands for one device -/

theorem stringFrames_target {c : Cfg} {k : Byte} {m : DecodeMode} {code : Fin 8 → Byte} {f : FrameReq}
    (hf : f ∈ stringFrames c k m code) : ∃ r v, f = .target k.toNat r v := by
  rcases List.mem_cons.1 hf with rfl | hf
  · exact ⟨_, _, rfl⟩
  · obtain ⟨j, -, rfl⟩ := List.mem_map.1 hf
    exact ⟨_, _, rfl⟩

/-- The frames of a command with a device index are all for that device (rules R121, R130). -/
theorem requestsOf_target {c : Cfg} {i : Instr} {k : Byte} (hd : deviceOf i = some k) :
    ∀ f ∈ requestsOf c i, ∃ r v, f = .target k.toNat r v := by
  intro f hf
  cases i with
  | segenc | bcdenc | bcraw | draw | pwron | pwroff | setshdn | setinta | settesta | clra => cases hd
  | wrraw | wrreg | setdec | settest =>
    cases hd
    exact ⟨_, _, List.mem_singleton.1 hf⟩
  | setint | setscan =>
    cases hd
    rw [requestsOf] at hf
    split at hf
    · exact ⟨_, _, List.mem_singleton.1 hf⟩
    · cases hf
  | clr | wrdig8 =>
    cases hd
    obtain ⟨j, -, rfl⟩ := List.mem_map.1 hf
    exact ⟨_, _, rfl⟩
  | wrstr | wrbcd =>
    cases hd
    exact stringFrames_target hf

/-- Frames for one device leave every other as it was (rule R51 (a)). -/
theorem latchAll_read_other {c : Cfg} {k d : Nat} (hk : k < c.n) (hdk : d ≠ k) (r : Byte) {fs : List FrameReq}
    (hfs : ∀ f ∈ fs, ∃ p v, f = .target k p v) (m : Memory) :
    (latchAll c (framesOf c.n fs) m).read (devKey d r) = m.read (devKey d r) := by
  induction fs generalizing m with
  | nil => rfl
  | cons f fs ih =>
    obtain ⟨p, v, rfl⟩ := hfs f List.mem_cons_self
    rw [framesOf, List.map_cons, latchAll_cons]
    refine (ih (fun g hg => hfs g (List.mem_cons_of_mem _ hg)) _).trans ?_
    rw [frameBytes, latchAll_read_target k hk, if_neg hdk]

theorem encoder_of_device {i : Instr} {k : Byte} (hd : deviceOf i = some k) : isEncoder i = false := by
  cases i with
  | segenc | bcdenc => cases hd
  | _ => rfl

/-- Settles O43: the frames such a command sends carry NoOp for every other device. -/
theorem otherDevicesDoNotChange : Obligations.OtherDevicesDoNotChange := by
  intro s t i k h hst hd d r hdk
  obtain ⟨hp, hdev⟩ := exec_ok_latched h hst (encoder_of_device hd)
  rw [State.devRead, hdev]
  exact latchAll_read_other (hp.inRange k hd) hdk r (requestsOf_target hd) s.dev

end Sys2Proof.Machine

/-! ### The opcode table, the words that decode, and their encodings -/

namespace Sys2Proof

/-! #### Rows -/

/-- The row of a mnemonic (rule R77). -/
def Mnemonic.row (m : Mnemonic) : Row := (opcodeTable.find? (·.mnemonic = m)).get (by cases m <;> rfl)

@[simp] theorem Mnemonic.row_mnemonic (m : Mnemonic) : m.row.mnemonic = m := by cases m <;> rfl

theorem rowOf_row_op (m : Mnemonic) : rowOf m.row.op = some m.row := by cases m <;> rfl

theorem eq_row_of_mem : ∀ r ∈ opcodeTable, r = r.mnemonic.row := by decide

/-- The decoder finds the row whose opcode the word has (rule R81). -/
theorem rowOf_eq_some_iff {op : Byte} {r : Row} : rowOf op = some r ↔ r = r.mnemonic.row ∧ op = r.op := by
  constructor
  · intro h
    obtain ⟨hr, hop⟩ := rowOf_some h
    exact ⟨eq_row_of_mem r hr, hop.symm⟩
  · rintro ⟨hr, rfl⟩
    rw [hr]
    exact rowOf_row_op _

theorem Row.holds_iff (r : Row) (c : CmdWord) :
    r.holds c = true ↔ c.dev &&& r.devMask = 0 ∧ c.a &&& r.aMask = 0 ∧ c.b &&& r.bMask = 0 := by
  simp only [Row.holds, Bool.and_eq_true, beq_iff_eq, and_assoc]

/-- The word passes the test of a row: the row's opcode and the row's mask (rules R77, R78). -/
def CmdWord.passes (c : CmdWord) (m : Mnemonic) : Prop := c.op = m.row.op ∧ m.row.holds c = true

theorem CmdWord.passes_iff (c : CmdWord) (m : Mnemonic) : c.passes m ↔
    c.op = m.row.op ∧ c.dev &&& m.row.devMask = 0 ∧ c.a &&& m.row.aMask = 0 ∧ c.b &&& m.row.bMask = 0 :=
  and_congr_right fun _ => Row.holds_iff _ _

/-- Everything that decodes: a word that passes the test of a row, read by that row's operands. -/
theorem decodeFields_eq_ok_iff {c : CmdWord} {i : Instr} :
    decodeFields c = .ok i ↔ c.passes i.mnemonic ∧ operandsOf i.mnemonic c = .ok i := by
  constructor
  · intro h
    unfold decodeFields at h
    split at h
    · cases h
    · next r hr =>
      obtain ⟨he, hop⟩ := rowOf_eq_some_iff.1 hr
      split at h
      · next hh => rw [operandsOf_mnemonic h, CmdWord.passes, ← he]; exact ⟨⟨hop, hh⟩, h⟩
      · cases h
  · rintro ⟨⟨hop, hh⟩, ho⟩
    simp only [decodeFields, hop, rowOf_row_op, hh, if_true, Mnemonic.row_mnemonic, ho]

/-! #### A row's mask and match as numbers -/

theorem bitVec_append_eq_append_iff {w v : Nat} {x x' : BitVec w} {y y' : BitVec v} :
    x ++ y = x' ++ y' ↔ x = x' ∧ y = y' := by
  constructor
  · intro h
    have hx := congrArg (BitVec.extractLsb' v w) h
    have hy := congrArg (BitVec.extractLsb' 0 v) h
    rw [BitVec.extractLsb'_append_eq_left, BitVec.extractLsb'_append_eq_left] at hx
    rw [BitVec.extractLsb'_append_eq_right, BitVec.extractLsb'_append_eq_right] at hy
    exact ⟨hx, hy⟩
  · rintro ⟨rfl, rfl⟩
    rfl

theorem maskOf_eq_append (m : Mnemonic) :
    Machine.maskOf m = 0xFF#8 ++ m.row.devMask ++ m.row.aMask ++ m.row.bMask := by
  cases m <;> rfl

theorem matchOf_eq_append (m : Mnemonic) : Machine.matchOf m = m.row.op ++ 0#8 ++ 0#8 ++ 0#8 := by
  cases m <;> rfl

/-- The 32-bit test of rule R77 is the test of the opcode and of three bytes. -/
theorem header_mask_eq_match_iff (c : CmdWord) (m : Mnemonic) :
    Machine.headerOf c &&& Machine.maskOf m = Machine.matchOf m ↔ c.passes m := by
  have hop : c.op &&& 0xFF#8 = c.op := BitVec.and_allOnes
  rw [CmdWord.passes_iff, Machine.headerOf, maskOf_eq_append, matchOf_eq_append, BitVec.and_append, BitVec.and_append,
    BitVec.and_append, bitVec_append_eq_append_iff, bitVec_append_eq_append_iff, bitVec_append_eq_append_iff, hop,
    and_assoc, and_assoc]
  rfl

/-! #### Typed operands -/

theorem typed_eq_ok_iff {α : Type} {v : Option α} {why : Reject} {f : α → Instr} {i : Instr} :
    typed v why f = .ok i ↔ ∃ x, v = some x ∧ f x = i := by
  cases v <;> simp [typed]

/-- A typed operand is rejected exactly where its ordinal names nothing. -/
theorem exists_typed_ok_iff {α : Type} {v : Option α} {why : Reject} {f : α → Instr} :
    (∃ i, typed v why f = .ok i) ↔ v.isSome = true := by
  cases v <;> simp [typed]

theorem RegName.ofOrdinal_eq_some_iff {n : Nat} {r : RegName} : RegName.ofOrdinal n = some r ↔ n = r.ordinal.val :=
  ⟨fun h => (RegName.ofOrdinal_some n r h).1.symm, fun h => h ▸ Machine.regName_ofOrdinal_ordinal r⟩

theorem Power.ofOrdinal_eq_some_iff {n : Nat} {p : Power} : Power.ofOrdinal n = some p ↔ n = p.ordinal.val :=
  ⟨fun h => (Power.ofOrdinal_some n p h).1.symm, fun h => h ▸ by cases p <;> rfl⟩

theorem DecodeMode.ofOrdinal_eq_some_iff {n : Nat} {d : DecodeMode} :
    DecodeMode.ofOrdinal n = some d ↔ n = d.ordinal.val :=
  ⟨fun h => (DecodeMode.ofOrdinal_some n d h).1.symm, fun h => h ▸ by cases d <;> rfl⟩

theorem DisplayTest.ofOrdinal_eq_some_iff {n : Nat} {d : DisplayTest} :
    DisplayTest.ofOrdinal n = some d ↔ n = d.ordinal.val :=
  ⟨fun h => (DisplayTest.ofOrdinal_some n d h).1.symm, fun h => h ▸ by cases d <;> rfl⟩

/-- The ordinals that name a register (rule R29). -/
theorem RegName.isSome_ofOrdinal_iff (n : Nat) : (RegName.ofOrdinal n).isSome = true ↔ n ≤ 13 := by
  rw [Option.isSome_iff_exists]
  constructor
  · rintro ⟨r, hr⟩
    exact Nat.le_of_lt_succ (RegName.ofOrdinal_some n r hr).2
  · intro h
    obtain ⟨r, hr⟩ := Machine.regName_ordinal_surjective ⟨n, Nat.lt_succ_of_le h⟩
    exact ⟨r, RegName.ofOrdinal_eq_some_iff.2 (by rw [hr])⟩

theorem Power.isSome_ofOrdinal : ∀ k : Fin 2, (Power.ofOrdinal k).isSome = true := by decide

theorem DecodeMode.isSome_ofOrdinal : ∀ k : Fin 4, (DecodeMode.ofOrdinal k).isSome = true := by decide

theorem DisplayTest.isSome_ofOrdinal : ∀ k : Fin 2, (DisplayTest.ofOrdinal k).isSome = true := by decide

/-- Under its row's mask a word's operands can be read, but for a register ordinal that names nothing (rule R79 (c)). -/
theorem exists_operandsOf_iff {c : CmdWord} {m : Mnemonic} (h : c.passes m) :
    (∃ i, operandsOf m c = .ok i) ↔ (m = .WRREG → c.a.toNat ≤ 13) := by
  obtain ⟨-, -, ha, -⟩ := (c.passes_iff m).1 h
  cases m with
  | WRREG =>
    rw [operandsOf, exists_typed_ok_iff, RegName.isSome_ofOrdinal_iff]
    exact ⟨fun hle _ => hle, fun hle => hle rfl⟩
  | SETSHDN => exact iff_of_true (exists_typed_ok_iff.2 (Power.isSome_ofOrdinal ⟨_, (mask_FE_zero _).1 ha⟩)) nofun
  | SETDEC => exact iff_of_true (exists_typed_ok_iff.2 (DecodeMode.isSome_ofOrdinal ⟨_, (mask_FC_zero _).1 ha⟩)) nofun
  | SETTEST | SETTESTA =>
    exact iff_of_true (exists_typed_ok_iff.2 (DisplayTest.isSome_ofOrdinal ⟨_, (mask_FE_zero _).1 ha⟩)) nofun
  | _ => exact iff_of_true ⟨_, rfl⟩ nofun

/-- Settles O4: the mask and match of a row are the test of its opcode and its three bytes, and past that test only a register
ordinal can be rejected. -/
theorem decodingIsTheMaskAndMatchTable : Obligations.DecodingIsTheMaskAndMatchTable := by
  intro c m
  rw [header_mask_eq_match_iff]
  constructor
  · rintro ⟨i, hd, rfl⟩
    obtain ⟨hp, ho⟩ := decodeFields_eq_ok_iff.1 hd
    exact ⟨hp, (exists_operandsOf_iff hp).1 ⟨i, ho⟩⟩
  · rintro ⟨hp, ha⟩
    obtain ⟨i, ho⟩ := (exists_operandsOf_iff hp).2 ha
    obtain rfl := operandsOf_mnemonic ho
    exact ⟨i, decodeFields_eq_ok_iff.2 ⟨hp, ho⟩, rfl⟩

/-! #### Operand bytes: the mask and the reading of a field against its encoding -/

/-- A byte no bit of which must be zero. -/
theorem mask_00_zero (b : Byte) : b &&& 0x00 = 0 ↔ True := iff_true_intro BitVec.and_zero

theorem operandByte_toNat {n : Nat} (h : n < 256) : (operandByte n).toNat = n :=
  (BitVec.toNat_ofNat n 8).trans (Nat.mod_eq_of_lt h)

/-- A field that holds a count (rule R76). -/
theorem count_iff {b mask : Byte} {bound : Nat} (hmask : b &&& mask = 0 ↔ b.toNat < bound) (n : Nat)
    (hbound : bound ≤ 256 := by decide) : b &&& mask = 0 ∧ b.toNat = n ↔ n < bound ∧ b = operandByte n := by
  rw [hmask]
  constructor
  · rintro ⟨h, rfl⟩
    exact ⟨h, BitVec.eq_of_toNat_eq (operandByte_toNat b.isLt).symm⟩
  · rintro ⟨h, rfl⟩
    rw [operandByte_toNat (by omega)]
    exact ⟨h, rfl⟩

/-- A field that holds an ordinal, which is in range by its type. -/
theorem ordinal_iff {b mask : Byte} {bound k : Nat} (hmask : b &&& mask = 0 ↔ b.toNat < bound) (n : Fin k)
    (hk : k ≤ bound := by decide) (hbound : bound ≤ 256 := by decide) :
    b &&& mask = 0 ∧ b.toNat = n.val ↔ b = operandByte n.val := by
  rw [count_iff hmask n.val hbound, and_iff_right (lt_of_lt_of_le n.isLt hk)]

/-- The field that holds the dot flag of SEGENC. -/
theorem dot_iff (b : Byte) (dot : Bool) : b &&& 0xFE = 0 ∧ b.getLsbD 0 = dot ↔ b = if dot then 1 else 0 := by
  constructor
  · rintro ⟨h, rfl⟩
    exact dot_byte b h
  · rintro rfl
    cases dot <;> decide

/-! #### The bytes of a word, and both round trips -/

/-- The bytes of a word, byte 0 first (rules R71 to R75). -/
def CmdWord.bytes (c : CmdWord) : List Byte := [c.op, c.dev, c.a, c.b] ++ if isLong c.op then c.buf.toList else []

theorem CmdWord.bytes_eq_cons_iff {c : CmdWord} {op dev a b : Byte} {tail : List Byte} :
    c.bytes = op :: dev :: a :: b :: tail ↔
      c.op = op ∧ c.dev = dev ∧ c.a = a ∧ c.b = b ∧ (if isLong op then c.buf.toList else []) = tail := by
  simp only [CmdWord.bytes, List.cons_append, List.nil_append, List.cons.injEq]
  exact and_congr_right fun hop => by rw [hop]

theorem takeWord_eq_some_bytes {bytes rest : List Byte} {c : CmdWord} (h : takeWord bytes = some (c, rest)) :
    bytes = c.bytes ++ rest := (takeWord_some h).1

/-- An encoding is one whole word, whatever follows it. -/
theorem takeWord_encode (i : Instr) (rest : List Byte) : ∃ c, takeWord (encode i ++ rest) = some (c, rest) := by
  cases i with
  | wrdig8 | wrstr | wrbcd => exact ⟨_, takeWord_long _ _ _ _ _ _ rfl⟩
  | _ => exact ⟨_, takeWord_short _ _ _ _ _ rfl⟩

/-- The decoder against the encoder: what a row's mask and operands say of each byte of a word is what the encoding of the
command they give says of it. Beside bytes that must be zero and whole bytes, a row has a count, an ordinal or the dot. -/
theorem decodeFields_eq_ok_iff_encode {c : CmdWord} {i : Instr} :
    decodeFields c = .ok i ↔ i.wellFormed = true ∧ c.bytes = encode i := by
  rw [decodeFields_eq_ok_iff]
  cases i <;> simp only [CmdWord.passes_iff, Instr.mnemonic, Mnemonic.row, opcodeTable, List.find?_cons, reduceCtorEq,
    decide_true, decide_false, Option.get_some, mask_FF_zero, mask_00_zero, true_and, operandsOf, Except.ok.injEq,
    typed_eq_ok_iff, RegName.ofOrdinal_eq_some_iff, Power.ofOrdinal_eq_some_iff, DecodeMode.ofOrdinal_eq_some_iff,
    DisplayTest.ofOrdinal_eq_some_iff, Instr.wellFormed, encode, List.cons_append, List.nil_append,
    CmdWord.bytes_eq_cons_iff, isLong, BitVec.reduceGetLsb, Bool.false_eq_true, reduceIte, Vector.toList_inj]
  case segenc ch dot => grind [dot_iff c.b dot]
  case draw n _ | setscan _ n => grind [count_iff (mask_F8_zero c.a) n]
  case setint _ n | setinta n => grind [count_iff (mask_F0_zero c.a) n]
  case wrreg _ name _ => grind [ordinal_iff (mask_F0_zero c.a) name.ordinal]
  case setdec _ mode => grind [ordinal_iff (mask_FC_zero c.a) mode.ordinal]
  case setshdn mode | settest _ mode | settesta mode => grind [ordinal_iff (mask_FE_zero c.a) mode.ordinal]
  all_goals grind

theorem decode_eq_ok_iff {bytes rest : List Byte} {i : Instr} :
    decode bytes = .ok (i, rest) ↔ ∃ c, takeWord bytes = some (c, rest) ∧ decodeFields c = .ok i := by
  unfold decode
  rcases takeWord bytes with _ | ⟨c, rest'⟩
  · simp
  · cases hd : decodeFields c <;> grind

/-- Settles O1: the word taken off the bytes is the one the command encodes to, and so reads as the command. -/
theorem encodeThenDecodeGivesTheCommand : Obligations.EncodeThenDecodeGivesTheCommand := by
  intro i rest hw
  obtain ⟨c, ht⟩ := takeWord_encode i rest
  have hc : c.bytes = encode i := (List.append_cancel_right (takeWord_eq_some_bytes ht)).symm
  exact decode_eq_ok_iff.2 ⟨c, ht, decodeFields_eq_ok_iff_encode.2 ⟨hw, hc⟩⟩

/-- Settles O2: the bytes begin with the word taken off them, and a word that decodes is its command's encoding. -/
theorem decodedBytesAreTheEncoding : Obligations.DecodedBytesAreTheEncoding := by
  intro bytes rest i h
  obtain ⟨c, ht, hd⟩ := decode_eq_ok_iff.1 h
  obtain ⟨hw, hc⟩ := decodeFields_eq_ok_iff_encode.1 hd
  exact ⟨hw, hc ▸ takeWord_eq_some_bytes ht⟩

/-! #### Opcodes of no row, and the spec's own words -/

/-- Settles O5: no row of the table has such an opcode. -/
theorem unassignedOpcodesAreRejected : Obligations.UnassignedOpcodesAreRejected := by
  intro c hop
  have hassigned : ∀ r ∈ opcodeTable, ¬ (r.op.toNat = 0x00 ∨ (0x03 ≤ r.op.toNat ∧ r.op.toNat ≤ 0x0F)
      ∨ (0x14 ≤ r.op.toNat ∧ r.op.toNat ≤ 0x1F) ∨ (0x2B ≤ r.op.toNat ∧ r.op.toNat ≤ 0x7F) ∨ 0x83 ≤ r.op.toNat) := by
    decide
  have hnone : rowOf c.op = none := by
    refine Option.eq_none_iff_forall_ne_some.2 fun r hr => ?_
    obtain ⟨hmem, hrow⟩ := rowOf_some hr
    exact hassigned r hmem (hrow ▸ hop)
  rw [decodeFields, hnone]

/-- Settles O3: the words and the ordinals are finitely many and evaluated one by one; each look-up in `CFG` is an entry by
definition. -/
theorem specWordsDecode : Obligations.SpecWordsDecode := by
  refine ⟨?words, ?registers, ?powers, ?decodeModes, ?levels, ?limits, ?tests, fun c => ?entries⟩
  case entries => exact ⟨rfl, rfl, rfl, rfl, rfl, rfl, rfl, fun _ => rfl, fun _ => rfl, rfl, rfl⟩
  all_goals decide

end Sys2Proof

/-! ### The step that performs a word -/

namespace Sys2Proof.Machine

/-- A word that decodes is in the latch when its command is performed (rule R73). -/
theorem acceptWord_ok (run : Instr → State → Host.Outcome State Fault Refusal) {c : CmdWord} {i : Instr}
    (hd : decodeFields c = .ok i) (s : State) : acceptWord run c s = run i { s with cmd := c } := by
  rw [acceptWord, hd, latchCmd]

/-- Settles O6: at either grain the step of an idle block is the host's act, which hands the command over. -/
theorem stepRunsTheDecodedCommand : Obligations.StepRunsTheDecodedCommand := by
  intro s bytes rest acts c i hl hb hp ht hd
  have hs := selectReady_of_idle hb
  have handed (run : Instr → State → Host.Outcome State Fault Refusal) :
      hostAct run s = run i { s with port := acts, cmd := c } := by
    rw [hostAct_word run hb hp ht, acceptWord_ok run hd]
  rw [step, callStep, guarded_pass hl hs, guarded_pass hl hs, hb]
  exact ⟨handed exec, handed start⟩

end Sys2Proof.Machine

/-! ### The encoders -/

namespace Sys2Proof.Machine

/-! #### Their work performed -/

/-- A command that only gives a byte ends in OK in every life-cycle state, and leaves all but `RES` and `STATUS` (rule R205). -/
theorem perform_result (v : Byte) (s : State) : perform (.result v) s = { s with status := .ok, res := v } := by
  simp [perform, enter, complete, faultAfter]

/-! #### Glyph keys -/

/-- Each byte is the upper-case byte it folds to, or the lower case of that. -/
theorem eq_foldCase_or_eq_add (ch : Byte) : ch = foldCase ch ∨ ch = foldCase ch + 0x20 := by
  unfold foldCase
  split
  · right; bv_omega
  · exact .inl rfl

/-- The upper- and the lower-case byte of a letter of the ASCII alphabet fold to one byte (rule R101). -/
theorem foldCase_add_of_upper {ch : Byte} (hA : 0x41#8 ≤ ch) (hZ : ch ≤ 0x5A#8) : foldCase (ch + 0x20) = foldCase ch := by
  have hlower : 0x61#8 ≤ ch + 0x20 ∧ ch + 0x20 ≤ 0x7A#8 := by constructor <;> bv_omega
  have hupper : ¬ (0x61#8 ≤ ch ∧ ch ≤ 0x7A#8) := by rintro ⟨h, -⟩; bv_omega
  rw [foldCase, foldCase, if_pos hlower, if_neg hupper, BitVec.add_sub_cancel]

/-- A byte past the digits, but for the underscore, is looked up among the letters (rule R101). -/
theorem glyphKey_of_pastDigits {ch : Byte} (hdigit : 0x39#8 < ch) (hund : ch ≠ 0x5F) :
    glyphKey ch = (letterCodes.lookup (foldCase ch)).map GlyphKey.letter := by
  have hspace : ch ≠ 0x20 := by bv_omega
  have hdash : ch ≠ 0x2D := by bv_omega
  have hdigits : ¬ (0x30#8 ≤ ch ∧ ch ≤ 0x39#8) := by rintro ⟨-, h⟩; bv_omega
  rw [glyphKey, if_neg hspace, if_neg hdash, if_neg hund, if_neg hdigits]

/-- The case of a letter does not matter (rules R101, R106). -/
theorem glyphKey_add_of_upper {ch : Byte} (hA : 0x41#8 ≤ ch) (hZ : ch ≤ 0x5A#8) : glyphKey (ch + 0x20) = glyphKey ch := by
  have hlower := glyphKey_of_pastDigits (ch := ch + 0x20) (by bv_omega) (by bv_omega)
  have hupper := glyphKey_of_pastDigits (ch := ch) (by bv_omega) (by bv_omega)
  rw [hlower, hupper, foldCase_add_of_upper hA hZ]

/-- A byte with a letter's key folds to the code of one. -/
theorem exists_letterCode {ch : Byte} (h : (letterCodes.lookup (foldCase ch)).isSome = true) :
    ∃ code ∈ letterCodes.map Prod.fst, ch = code ∨ ch = code + 0x20 := by
  rw [List.lookup_isSome_iff] at h
  obtain ⟨p, hp, hcode⟩ := h
  refine ⟨p.1, List.mem_map_of_mem hp, ?_⟩
  exact beq_iff_eq.1 hcode ▸ eq_foldCase_or_eq_add ch

/-- Settles O16: the keys the spec lists are evaluated one by one, and the branches of `glyphKey` are the bytes that have one. -/
theorem glyphKeysOfTheAlphabet : Obligations.GlyphKeysOfTheAlphabet := by
  refine ⟨by decide, by decide, by decide, by decide, by decide, fun ch h => ?_⟩
  unfold glyphKey at h
  split at h
  case isTrue hspace => exact .inl hspace
  split at h
  case isTrue hdash => exact .inr (.inl hdash)
  split at h
  case isTrue hund => exact .inr (.inr (.inl hund))
  split at h
  case isTrue hdigit => exact .inr (.inr (.inr (.inl hdigit)))
  exact .inr (.inr (.inr (.inr (exists_letterCode (Option.isSome_map.symm.trans h)))))

/-! #### The segment encoder -/

theorem segmentBase_of_none {ch : Byte} (h : glyphKey ch = none) (c : Cfg) : segmentBase c ch = fallback := by
  rw [segmentBase, h]

theorem segmentBase_of_some {ch : Byte} {key : GlyphKey} (h : glyphKey ch = some key) (c : Cfg) :
    segmentBase c ch = c.segOf key := by
  rw [segmentBase, h]

theorem segmentBase_congr {ch ch' : Byte} {c c' : Cfg} (hkey : glyphKey ch = glyphKey ch') (hseg : c.seg = c'.seg) :
    segmentBase c ch = segmentBase c' ch' := by
  unfold segmentBase Cfg.segOf
  rw [hkey, hseg]

@[simp] theorem or_pointBit_false (b : Byte) : b ||| pointBit false = b := BitVec.or_zero

/-- `FALLBACK` has the point lit already (rule R103). -/
theorem fallback_or_pointBit (dot : Bool) : fallback ||| pointBit dot = fallback := by revert dot; decide

/-- Bit 7 is the point (rules R102, R105). -/
theorem or_pointBit_bit7 (b : Byte) (dot : Bool) : (b ||| pointBit dot).getLsbD 7 = (b.getLsbD 7 || dot) := by
  cases dot <;> simp [pointBit]

/-- Settles O17: the dot flag writes bit 7 alone, and the rest is the entry of the glyph key, which `SEG` and the folded
byte fix. -/
theorem segmentEncoderLaws : Obligations.SegmentEncoderLaws := by
  have hnone (c : Cfg) (ch : Byte) (dot : Bool) (h : glyphKey ch = none) : segmentEncode c ch dot = fallback := by
    rw [segmentEncode, segmentBase_of_none h, fallback_or_pointBit]
  refine ⟨fun c c' ch dot hseg => ?depends, hnone, fun c ch => ?dotted, fun c ch hl hkey => ?keyed,
    fun c ch dot h => ?unkeyed, fun c ch dot hA hZ => ?letterCase⟩
  case depends => rw [segmentEncode, segmentEncode, segmentBase_congr rfl hseg]
  case dotted => rw [segmentEncode, segmentEncode, or_pointBit_false]; rfl
  case keyed =>
    obtain ⟨key, hkey⟩ := Option.isSome_iff_exists.1 hkey
    have hbit (dot : Bool) : (segmentEncode c ch dot).getLsbD 7 = dot := by
      rw [segmentEncode, segmentBase_of_some hkey, or_pointBit_bit7, legal_seg hl, Bool.false_or]
    exact ⟨hbit false, hbit true⟩
  case unkeyed => rw [hnone c ch dot h]; rfl
  case letterCase => rw [segmentEncode, segmentEncode, segmentBase_congr (glyphKey_add_of_upper hA hZ) rfl]

/-- Settles O14: the meaning is `segmentEncode`, whose branches and dot bit the statement writes out. -/
theorem segencWritesTheSegmentCode : Obligations.SegencWritesTheSegmentCode := by
  intro s ch dot
  rw [exec_eq, workOf, workSegenc, perform_result]
  rfl

/-! #### The BCD encoder -/

theorem bcdEncode_plain {ch : Byte} {key : BcdKey} (h : bcdCodes.lookup ch = some (key, false)) (c : Cfg) :
    bcdEncode c ch = c.bcdOf key := by
  rw [bcdEncode, h]
  exact or_pointBit_false _

theorem bcdEncode_pointed {ch : Byte} {key : BcdKey} (h : bcdCodes.lookup ch = some (key, true)) (c : Cfg) :
    bcdEncode c ch = c.bcdOf key ||| 0x80 := by
  rw [bcdEncode, h]
  rfl

/-- Any byte but the ten passes through (rule R111). -/
theorem bcdEncode_of_notMem {ch : Byte} (h : ch ∉ bcdCodes.map Prod.fst) (c : Cfg) : bcdEncode c ch = ch := by
  have hnone : bcdCodes.lookup ch = none :=
    List.lookup_eq_none_iff.2 fun p hp => bne_iff_ne.2 fun e => h (e ▸ List.mem_map_of_mem hp)
  rw [bcdEncode, hnone]

/-- The four letters in both cases: one key, and the upper case has the point (rule R108). -/
theorem bcdCodes_lookup_letter {ch : Byte} (h : ch ∈ [0x65#8, 0x68#8, 0x6C#8, 0x70#8]) :
    ∃ key, bcdCodes.lookup ch = some (key, false) ∧ bcdCodes.lookup (ch - 0x20) = some (key, true) := by
  simp only [List.mem_cons, List.not_mem_nil, or_false] at h
  obtain rfl | rfl | rfl | rfl := h
  · exact ⟨.e, rfl, rfl⟩
  · exact ⟨.h, rfl, rfl⟩
  · exact ⟨.l, rfl, rfl⟩
  · exact ⟨.p, rfl, rfl⟩

/-- Settles O18: a letter has one key in both cases, so its two results differ in the point. -/
theorem bcdCaseAndPassThrough : Obligations.BcdCaseAndPassThrough := by
  refine ⟨fun c ch hletter => ?letter, fun c ch hother => bcdEncode_of_notMem hother c⟩
  case letter =>
    obtain ⟨key, hlower, hupper⟩ := bcdCodes_lookup_letter hletter
    rw [bcdEncode_plain hlower, bcdEncode_pointed hupper]
    exact ⟨rfl, fun hl => legal_bcd hl key⟩

/-- Settles O15: the chain of bytes is the order of `bcdCodes`. -/
theorem bcdencWritesTheBcdCode : Obligations.BcdencWritesTheBcdCode := by
  intro s ch
  rw [exec_eq, workOf, workBcdenc, perform_result]
  congr 2
  split_ifs with hspace hdash he hE hh hH hl hL hp hP
  · subst hspace; exact bcdEncode_plain rfl s.cfg
  · subst hdash; exact bcdEncode_plain rfl s.cfg
  · subst he; exact bcdEncode_plain rfl s.cfg
  · subst hE; exact bcdEncode_pointed rfl s.cfg
  · subst hh; exact bcdEncode_plain rfl s.cfg
  · subst hH; exact bcdEncode_pointed rfl s.cfg
  · subst hl; exact bcdEncode_plain rfl s.cfg
  · subst hL; exact bcdEncode_pointed rfl s.cfg
  · subst hp; exact bcdEncode_plain rfl s.cfg
  · subst hP; exact bcdEncode_pointed rfl s.cfg
  · refine bcdEncode_of_notMem ?_ s.cfg
    simp only [bcdCodes, List.map, List.mem_cons, List.not_mem_nil, or_false, not_or]
    exact ⟨hspace, hdash, he, hE, hh, hH, hl, hL, hp, hP⟩

end Sys2Proof.Machine

/-! ### Building a frame, and one transfer of a hardware-select instance -/

namespace Sys2Proof.Machine

/-- `FB` with a whole frame at its front: the frame is what is sent, and the rest is what lay above it. -/
theorem frame_append_drop {n : Nat} {f : List Byte} (hf : f.length = 2 * n) (fb : List Byte) :
    ((f ++ fb.drop (2 * n)).take (2 * n)).length = 2 * n ∧ (f ++ fb.drop (2 * n)).drop (2 * n) = fb.drop (2 * n) :=
  ⟨by rw [List.take_left' hf, hf], List.drop_left' hf⟩

/-- Pair `i` of a targeted frame, whatever follows the frame. -/
theorem pairFrame_append_pair {n i : Nat} (hi : i < n) (k : Nat) (r d : Byte) (rest : List Byte) :
    (pairFrame n k r d ++ rest)[2 * i]? = some (if i = k then r else 0x00)
      ∧ (pairFrame n k r d ++ rest)[2 * i + 1]? = some (if i = k then d else 0x00) := by
  rw [List.getElem?_append_left (by rw [pairFrame_length]; omega), pairFrame_getElem? _ _ _ _ _ (by omega),
    List.getElem?_append_left (by rw [pairFrame_length]; omega), pairFrame_getElem? _ _ _ _ _ (by omega)]
  by_cases h : i = k
  · subst h; simp
  · simp [h, show ¬ 2 * i = 2 * k + 1 by omega, show ¬ 2 * i + 1 = 2 * k by omega]

/-- Pair `i` of a broadcast frame, whatever follows the frame. -/
theorem everyFrame_append_pair {n i : Nat} (hi : i < n) (r d : Byte) (rest : List Byte) :
    (everyFrame n r d ++ rest)[2 * i]? = some r ∧ (everyFrame n r d ++ rest)[2 * i + 1]? = some d := by
  rw [List.getElem?_append_left (by rw [everyFrame_length]; omega), everyFrame_getElem? _ _ _ _ (by omega),
    List.getElem?_append_left (by rw [everyFrame_length]; omega), everyFrame_getElem? _ _ _ _ (by omega),
    if_pos (by omega), if_neg (by omega)]
  exact ⟨rfl, rfl⟩

/-- In a chain of one, a frame to device 0 is its two bytes. -/
theorem pairFrame_one (r d : Byte) : pairFrame 1 0 r d = [r, d] := rfl

/-- In a chain of one, a broadcast frame is its two bytes. -/
theorem everyFrame_one (r d : Byte) : everyFrame 1 r d = [r, d] := rfl

/-- Settles O19: building puts the whole frame the spec writes in front of what lay above it. -/
theorem buildingAFrame : Obligations.BuildingAFrame := by
  refine ⟨fun n k r d fb hk => ?target, fun n r d fb => ?all, fun r d fb => ?one⟩
  case target =>
    rw [buildTarget_eq hk]
    obtain ⟨hlen, habove⟩ := frame_append_drop (pairFrame_length n k r d) fb
    exact ⟨hlen, fun i hi => pairFrame_append_pair hi k r d _, habove⟩
  case all =>
    rw [buildAll_eq]
    obtain ⟨hlen, habove⟩ := frame_append_drop (everyFrame_length n r d) fb
    exact ⟨hlen, fun i hi => everyFrame_append_pair hi r d _, habove⟩
  case one => rw [buildTarget_eq Nat.one_pos, buildAll_eq, pairFrame_one, everyFrame_one]

/-- A hardware-select transfer is the one write, of either answer (rules R124, R126). -/
theorem transfer_hw_eq {s : State} (hs : s.cfg.sel = .hw) :
    transfer s = (hwStatus (s.upcoming 0), afterTransfer s [.tx s.frame (s.upcoming 0)] (hwStatus (s.upcoming 0))) := by
  refine transfer_of_row ?row ?answers
  case row =>
    rw [hs]
    cases s.upcoming 0 with
    | ok => exact .inl ⟨rfl, rfl⟩
    | err => exact .inr (List.mem_singleton.2 rfl)
  case answers =>
    intro j hj
    obtain rfl : j = 0 := Nat.lt_one_iff.1 hj
    rfl

/-- Settles O21: the answer to the one write decides its status, the devices and the select line. -/
theorem hardwareSelectTransfer : Obligations.HardwareSelectTransfer := by
  intro s hs
  refine ⟨fun h0 => ?ok, fun h0 => ?err⟩
  all_goals
    rw [transfer_hw_eq hs, h0, afterTransfer, hs]
    rfl

/-! ### Commands that send one frame -/

/-- A performed command of one frame whose calls are all answered `ok`. -/
theorem exec_one_good {i : Instr} {s : State} {f : FrameReq} (h : Performed i s) (hi : requestsOf s.cfg i = [f])
    (ha : AnswersOk s (callsPerFrame s.cfg.sel)) :
    exec i s = .next (afterFrames s [frameBytes s.cfg.n f]) := by
  have hgood := exec_good h (by simp [hi]) (by simpa [hi] using ha)
  rwa [hi] at hgood

/-- A READY block performs a command that passes the other two tests (rule R207). -/
theorem performed_of_range {i : Instr} {s : State} (hlc : s.lc = .ready) (hl : legalFor s.cfg.n i = true)
    (hr : indexInRange s.cfg.n (deviceOf i) = true) : Performed i s where
  ready := hlc
  legal := hl
  inRange := fun k hk => by simpa [hk, indexInRange] using hr

/-- Settles O25: the one frame is the targeted one, read byte by byte. -/
theorem wrrawSendsItsPair : Obligations.WrrawSendsItsPair := by
  intro s k reg data hlc hk ha
  refine ⟨exec_one_good (f := .target k.toNat reg data) (performed_of_range hlc rfl (decide_eq_true hk)) rfl ha,
    pairFrame_length .., fun j hj => ?_⟩
  rw [List.getD_eq_getElem?_getD, pairFrame_getElem? _ _ _ _ _ hj, Option.getD_some]

/-- Settles O26: the one frame is the targeted one with the name's address. -/
theorem wrregSendsTheNamedRegister : Obligations.WrregSendsTheNamedRegister :=
  fun s k name data hlc hk ha =>
    exec_one_good (f := .target k.toNat (s.cfg.addrOf name) data) (performed_of_range hlc rfl (decide_eq_true hk)) rfl ha

/-- Settles O27: the one frame is the broadcast one. -/
theorem bcrawSendsThePairToEveryDevice : Obligations.BcrawSendsThePairToEveryDevice :=
  fun _ reg data hlc ha => exec_one_good (f := .all reg data) (performed_of_range hlc rfl rfl) rfl ha

/-- Settles O28: the one frame is that of device 0, in a chain of one its two bytes, and a legal configuration fixes the
digit's address. -/
theorem drawWritesOneDigit : Obligations.DrawWritesOneDigit := by
  intro s digit data hlegal hlc hn hdigit ha
  have hl : legalFor s.cfg.n (.draw digit data) = true := by simp [legalFor, Instr.wellFormed, hdigit, hn]
  have hreq : requestsOf s.cfg (.draw digit data) = [.target 0 (s.cfg.addrOf (.digit ⟨digit, hdigit⟩)) data] :=
    dif_pos hdigit
  rw [exec_one_good (performed_of_range hlc hl rfl) hreq ha, frameBytes, hn, legal_digit hlegal, pairFrame_one]

end Sys2Proof.Machine

/-! ### The controller operations: the frames they send, and where they stop -/

namespace Sys2Proof.Machine

/-! #### Power and typed writes: one frame -/

/-- Settles O29: one frame for every mode, and PWRON and PWROFF are SETSHDN with their mode (rules R83, R153). -/
theorem powerCommandsBroadcastToShutdown : Obligations.PowerCommandsBroadcastToShutdown := by
  intro s hlc ha
  have hmode (mode : Power) : exec (.setshdn mode) s
      = .next (afterFrames s [everyFrame s.cfg.n (s.cfg.addrOf .shutdown) (s.cfg.powerOf mode)]) :=
    exec_one_good (f := .all (s.cfg.addrOf .shutdown) (s.cfg.powerOf mode)) (performed_of_range hlc rfl rfl) rfl ha
  exact ⟨hmode .normalOperation, hmode .shutdownMode, hmode⟩

/-- Settles O30: each of the four commands is legal with every member of its enumeration, and its one frame is the targeted
one. -/
theorem typedWritesToOneDevice : Obligations.TypedWritesToOneDevice := by
  intro s k hlc hk ha
  have sends {i : Instr} {reg data : Byte} (hl : legalFor s.cfg.n i = true) (hd : deviceOf i = some k)
      (hi : requestsOf s.cfg i = [.target k.toNat reg data]) :
      exec i s = .next (afterFrames s [pairFrame s.cfg.n k.toNat reg data]) :=
    exec_one_good (performed_of_range hlc hl (by rw [hd]; exact decide_eq_true hk)) hi ha
  exact ⟨fun mode => sends rfl rfl rfl,
    fun level => sends (legalFor_of_wf (decide_eq_true level.isLt) nofun) rfl (dif_pos level.isLt),
    fun limit => sends (legalFor_of_wf (decide_eq_true limit.isLt) nofun) rfl (dif_pos limit.isLt),
    fun mode => sends rfl rfl rfl⟩

/-- Settles O31: each is legal with every member of its enumeration, and its one frame is the broadcast one. -/
theorem typedWritesToEveryDevice : Obligations.TypedWritesToEveryDevice := by
  intro s hlc ha
  have sends {i : Instr} {reg data : Byte} (hl : legalFor s.cfg.n i = true) (hd : deviceOf i = none)
      (hi : requestsOf s.cfg i = [.all reg data]) :
      exec i s = .next (afterFrames s [everyFrame s.cfg.n reg data]) :=
    exec_one_good (performed_of_range hlc hl (by rw [hd]; rfl)) hi ha
  exact ⟨fun level => sends (legalFor_of_wf (decide_eq_true level.isLt) nofun) rfl (dif_pos level.isLt),
    fun mode => sends rfl rfl rfl⟩

/-! #### Several frames -/

/-- A performed command whose calls are all answered `ok` has sent the frames the spec lists (rule R150). -/
theorem exec_frames_good {i : Instr} {s : State} (hl : s.cfg.legal = true) (h : Performed i s)
    (hne : commandFrames s.cfg i ≠ [])
    (ha : AnswersOk s ((commandFrames s.cfg i).length * callsPerFrame s.cfg.sel)) :
    exec i s = .next (afterFrames s (commandFrames s.cfg i)) := by
  rw [← framesOf_requestsOf hl] at hne ha ⊢
  exact exec_good h (by simpa [framesOf] using hne) (by simpa [framesOf] using ha)

/-- Settles O32: the frames the spec lists for the two commands are these eight. -/
theorem clearingSendsEightFrames : Obligations.ClearingSendsEightFrames := by
  intro s hl hlc ha
  exact ⟨fun k hk => exec_frames_good (i := .clr k) hl (performed_of_range hlc rfl (decide_eq_true hk)) nofun ha,
    exec_frames_good (i := .clra) hl (performed_of_range hlc rfl rfl) nofun ha⟩

/-- Settles O33: the frames the spec lists for the command are these eight. -/
theorem wrdig8WritesUpward : Obligations.Wrdig8WritesUpward :=
  fun _ k buf hl hlc hk ha =>
    exec_frames_good (i := .wrdig8 k buf) hl (performed_of_range hlc rfl (decide_eq_true hk)) nofun ha

/-- Settles O34: the frames the spec lists for the command are these nine. -/
theorem wrstrWritesTheString : Obligations.WrstrWritesTheString :=
  fun _ k dots buf hl hlc hk ha =>
    exec_frames_good (i := .wrstr k dots buf) hl (performed_of_range hlc rfl (decide_eq_true hk)) nofun ha

/-- Settles O35: the frames the spec lists for the command are these nine. -/
theorem wrbcdWritesTheString : Obligations.WrbcdWritesTheString :=
  fun _ k buf hl hlc hk ha =>
    exec_frames_good (i := .wrbcd k buf) hl (performed_of_range hlc rfl (decide_eq_true hk)) nofun ha

/-! #### The first failing frame -/

/-- A performed command whose frame `m` is the first to fail: it is the last frame built, and its status completes the
command (rule R165). -/
theorem exec_stopped {i : Instr} {s : State} {m : Nat} {f : List Byte} {es : List Event} {st : Status}
    (hl : s.cfg.legal = true) (h : Performed i s) (hf : (commandFrames s.cfg i)[m]? = some f)
    (ha : AnswersOk s (m * callsPerFrame s.cfg.sel)) (hr : (es, st) ∈ failRows s.cfg.sel f)
    (he : AnswersFrom s (m * callsPerFrame s.cfg.sel) es) :
    exec i s
      = .next (complete st (afterFrame (afterGood s ((commandFrames s.cfg i).take m)) f es st)) := by
  rw [← framesOf_requestsOf hl] at hf ⊢
  obtain ⟨req, hreq, rfl⟩ : ∃ req, (requestsOf s.cfg i)[m]? = some req ∧ frameBytes s.cfg.n req = f := by
    simpa [framesOf] using hf
  obtain ⟨hm, rfl⟩ := List.getElem?_eq_some_iff.1 hreq
  have hne : requestsOf s.cfg i ≠ [] := List.ne_nil_of_length_pos (Nat.zero_lt_of_lt hm)
  have hin := requestsOf_inChain h.legal (performed_range h)
  have hlen : ((requestsOf s.cfg i).take m).length = m := List.length_take_of_le hm.le
  have hstop := sendFrames_abort (fs := (requestsOf s.cfg i).take m) (gs := (requestsOf s.cfg i).drop (m + 1))
    (fun g hg => hin g (List.mem_of_mem_take hg)) (hin _ (List.getElem_mem hm)) (by rwa [hlen]) hr (by rwa [hlen])
  rw [← List.drop_eq_getElem_cons hm, List.take_append_drop] at hstop
  rw [exec_sending (encoder_of_requests hne), outcomeOf_performed h, hstop, framesOf, framesOf, List.map_take]

/-- Settles O36: the failing frame is what was built last, its row gives the events, the status and the devices, and the
rest is the frame of every command. -/
theorem commandStopsAtItsFirstFailingFrame : Obligations.CommandStopsAtItsFirstFailingFrame := by
  intro i s m f es st hl hp hf ha hr he
  have hx := exec_stopped hl hp hf ha hr he
  have hst : st ≠ .ok := failRows_not_ok hr
  have hne : requestsOf s.cfg i ≠ [] := by
    intro h0
    rw [← framesOf_requestsOf hl, h0] at hf
    cases hf
  have hlen : ∀ g ∈ commandFrames s.cfg i, g.length = 2 * s.cfg.n := by
    rw [← framesOf_requestsOf hl]
    exact framesOf_length
  obtain ⟨-, -, -, -, -, -, hgood, -, -⟩ :=
    afterGood_fields s ((commandFrames s.cfg i).take m) fun g hg => hlen g (List.mem_of_mem_take hg)
  obtain ⟨hcfg, hlc, hcmd, hport, hprogress, -, -, hres, -⟩ := commandFrame i s _ hx
  refine ⟨_, hx, ?trace, rfl, ?fault, if_neg hst, ?fb, hres (encoder_of_requests hne), hlc, hcmd, hport, hprogress, hcfg⟩
  case trace => rw [complete_trace, afterFrame, hgood]
  case fault => simp [faultAfter, hst]
  case fb => exact List.take_left' (hlen f (List.mem_of_getElem? hf))

end Sys2Proof.Machine

/-! ### What the devices hold after a broadcast, a clear, or a string -/

namespace Sys2Proof.Machine

/-- Settles O39: each of the five commands sends one broadcast frame to a register that is not NoOp. -/
theorem typedBroadcastsReachEveryDevice : Obligations.TypedBroadcastsReachEveryDevice := by
  intro s t i name data hl _ h hst hi
  have hreq : name ≠ .noOp ∧ requestsOf s.cfg i = [.all (s.cfg.addrOf name) data] := by
    rcases hi with ⟨rfl, rfl, rfl⟩ | ⟨rfl, rfl, rfl⟩ | ⟨mode, rfl, rfl, rfl⟩ | ⟨level, rfl, rfl, rfl⟩ |
      ⟨mode, rfl, rfl, rfl⟩
    all_goals exact ⟨nofun, by simp [requestsOf]⟩
  obtain ⟨hname, hreq⟩ := hreq
  obtain ⟨-, hdev⟩ := exec_ok_one h hst hreq
  have hlatch := latch_addr_all (s.cfg.addrOf name) data (legal_addr_ne_zero hl hname) (isAddress_addrOf _ _) s.dev
  simp only [State.devRead, hdev, frameBytes]
  exact ⟨(hlatch 0).1, fun a => (hlatch a).2⟩

/-- A command that is no encoder and ends in OK passed its tests, and the devices have latched the frames the spec lists. -/
theorem exec_ok_frames {i : Instr} {s t : State} (hl : s.cfg.legal = true) (h : exec i s = .next t)
    (hst : t.status = .ok) (he : isEncoder i = false) :
    Performed i s ∧ t.dev = latchAll s.cfg (commandFrames s.cfg i) s.dev := by
  rw [← framesOf_requestsOf hl]
  exact exec_ok_latched h hst he

theorem exec_cfg {i : Instr} {s t : State} (h : exec i s = .next t) : t.cfg = s.cfg := (commandFrame i s t h).1

/-- The address of the register that payload byte `j` of a string goes to (rules R21 (c), R163). -/
theorem legal_stringDigit {c : Cfg} (hl : c.legal = true) (j : Fin 8) :
    c.addrOf (stringDigit j) = BitVec.ofNat 8 (8 - j.val) := by
  rw [stringDigit, legal_digit hl, Fin.val_rev]
  congr 1
  omega

/-- The eight upward frames: each digit register holds its byte, nothing else changes (rules R160, R162). -/
theorem latchAll_upwardFrames {c : Cfg} (hl : c.legal = true) {k : Nat} (hk : k < c.n) (data : Fin 8 → Byte)
    (m : Memory) :
    (∀ i : Fin 8, (latchAll c (upwardFrames c.n k data) m).read (devKey k (c.addrOf (.digit i))) = some (data i))
      ∧ ∀ a, (∀ i : Fin 8, a ≠ devKey k (c.addrOf (.digit i)))
        → (latchAll c (upwardFrames c.n k data) m).read a = m.read a := by
  simp only [upwardFrames, ← legal_digit hl]
  obtain ⟨hdigits, hrest⟩ :=
    latchAll_digits hl k hk (List.finRange 8) (List.nodup_finRange 8) id Function.injective_id data m
  exact ⟨fun i => hdigits i (List.mem_finRange i), fun a ha => hrest a fun i _ => ha i⟩

/-- The eight downward frames: each digit register holds its byte, nothing else changes (rules R163, R164). -/
theorem latchAll_downwardFrames {c : Cfg} (hl : c.legal = true) {k : Nat} (hk : k < c.n) (data : Fin 8 → Byte)
    (m : Memory) :
    (∀ j : Fin 8, (latchAll c (downwardFrames c.n k data) m).read (devKey k (c.addrOf (stringDigit j))) = some (data j))
      ∧ ∀ a, (∀ i : Fin 8, a ≠ devKey k (c.addrOf (.digit i)))
        → (latchAll c (downwardFrames c.n k data) m).read a = m.read a := by
  simp only [downwardFrames, ← legal_stringDigit hl]
  obtain ⟨hdigits, hrest⟩ :=
    latchAll_digits hl k hk (List.finRange 8) (List.nodup_finRange 8) Fin.rev Fin.rev_injective data m
  exact ⟨fun j => hdigits j (List.mem_finRange j), fun a ha => hrest a fun j _ => ha j.rev⟩

/-- The decode mode's frame and the eight downward frames: the decode mode stays, each digit register holds its byte,
nothing else changes (rules R163, R164, R166). -/
theorem latchAll_stringFrames {c : Cfg} (hl : c.legal = true) {k : Nat} (hk : k < c.n) (mode : Byte)
    (data : Fin 8 → Byte) {m m' : Memory}
    (hm : m' = latchAll c (pairFrame c.n k (c.addrOf .decodeMode) mode :: downwardFrames c.n k data) m) :
    m'.read (devKey k (c.addrOf .decodeMode)) = some mode
      ∧ (∀ j : Fin 8, m'.read (devKey k (BitVec.ofNat 8 (8 - j.val))) = some (data j))
      ∧ ∀ a, a ≠ devKey k (c.addrOf .decodeMode) → (∀ i : Fin 8, a ≠ devKey k (c.addrOf (.digit i)))
        → m'.read a = m.read a := by
  have hmode : latchBelow c (pairFrame c.n k (c.addrOf .decodeMode) mode) m c.n
      = m.write (devKey k (c.addrOf .decodeMode)) mode :=
    latch_addr_target k hk _ mode (legal_addr_ne_zero hl (r := .decodeMode) nofun) (isAddress_addrOf _ _) m
  have hother (i : Fin 8) : devKey k (c.addrOf .decodeMode) ≠ devKey k (c.addrOf (.digit i)) :=
    fun e => nomatch legal_addr_inj hl (devKey_inj.1 e).2
  obtain ⟨hdigits, hrest⟩ :=
    latchAll_downwardFrames hl hk data (m.write (devKey k (c.addrOf .decodeMode)) mode)
  rw [latchAll_cons, hmode] at hm
  subst hm
  refine ⟨?_, fun j => ?_, fun a ha hdigit => ?_⟩
  · rw [hrest _ hother, Memory.read_write_same]
  · rw [← legal_stringDigit hl, hdigits]
  · rw [hrest a hdigit, Memory.read_write_other _ _ ha]

/-- Broadcast frames with one byte to digit registers: every device holds the byte in each, nothing else changes
(rule R161). -/
theorem latchAll_everyFrames {c : Cfg} (hl : c.legal = true) (v : Byte) (js : List (Fin 8)) (m : Memory) :
    (∀ j ∈ js, ∀ k, k < c.n → (latchAll c (js.map (fun j => everyFrame c.n (c.addrOf (.digit j)) v)) m).read
        (devKey k (c.addrOf (.digit j))) = some v)
      ∧ ∀ a, (∀ k, k < c.n → ∀ j ∈ js, a ≠ devKey k (c.addrOf (.digit j)))
        → (latchAll c (js.map (fun j => everyFrame c.n (c.addrOf (.digit j)) v)) m).read a = m.read a := by
  induction js generalizing m with
  | nil => exact ⟨nofun, fun _ _ => rfl⟩
  | cons j js ih =>
    have hframe := latch_addr_all (c.addrOf (.digit j)) v (legal_addr_ne_zero hl nofun) (isAddress_addrOf _ _) m
    simp only [List.map_cons, latchAll_cons]
    obtain ⟨hlater, hrest⟩ := ih (latchBelow c (everyFrame c.n (c.addrOf (.digit j)) v) m c.n)
    refine ⟨fun j' hj' k hk => ?_, fun a ha => ?_⟩
    · by_cases hmem : j' ∈ js
      · exact hlater j' hmem k hk
      · obtain rfl : j' = j := (List.mem_cons.1 hj').resolve_right hmem
        rw [hrest _ fun k' _ j'' hj'' e => ?_]
        · exact (hframe 0).1 k hk
        · obtain rfl : j' = j'' := RegName.digit.inj (legal_addr_inj hl (devKey_inj.1 e).2)
          exact hmem hj''
    · rw [hrest a fun k hk j' hj' => ha k hk j' (List.mem_cons_of_mem _ hj')]
      exact (hframe a).2 fun k hk => ha k hk j List.mem_cons_self

/-- Settles O40: the eight frames leave 0x00 in the digit registers they name and touch no other. -/
theorem clearingBlanks : Obligations.ClearingBlanks := by
  intro s t hl _ hst
  refine ⟨fun k h => ?clr, fun h => ?clra⟩
  case clr =>
    obtain ⟨hp, hdev⟩ := exec_ok_frames hl h hst rfl
    simp only [Blank, State.devRead, hdev, exec_cfg h]
    exact latchAll_upwardFrames hl (hp.inRange k rfl) (fun _ => 0x00) s.dev
  case clra =>
    obtain ⟨-, hdev⟩ := exec_ok_frames hl h hst rfl
    obtain ⟨hblank, hrest⟩ := latchAll_everyFrames hl 0x00 (List.finRange 8) s.dev
    simp only [Blank, State.devRead, hdev, exec_cfg h, commandFrames, ← legal_digit hl]
    exact ⟨fun k hk i => hblank i (List.mem_finRange i) k hk, fun a ha => hrest a fun k hk i _ => ha k hk i⟩

/-- Settles O41: the frames the spec lists for each of the three commands, latched one after the other. -/
theorem payloadCommandsFillTheirDevice : Obligations.PayloadCommandsFillTheirDevice := by
  intro s t k buf hl _ hst
  refine ⟨fun h => ?wrdig8, fun dots h => ?wrstr, fun h => ?wrbcd⟩
  case wrdig8 =>
    obtain ⟨hp, hdev⟩ := exec_ok_frames hl h hst rfl
    simp only [State.devRead, hdev]
    exact latchAll_upwardFrames hl (hp.inRange k rfl) buf.get s.dev
  case wrstr =>
    obtain ⟨hp, hdev⟩ := exec_ok_frames hl h hst rfl
    rw [DecodeOff, exec_cfg h]
    exact latchAll_stringFrames hl (hp.inRange k rfl) _ _ hdev
  case wrbcd =>
    obtain ⟨hp, hdev⟩ := exec_ok_frames hl h hst rfl
    exact latchAll_stringFrames hl (hp.inRange k rfl) _ _ hdev

end Sys2Proof.Machine

/-! ### What the frames of the string commands name -/

namespace Sys2Proof.Machine

theorem framesSent_append (es es' : List Event) : framesSent (es ++ es') = framesSent es ++ framesSent es' :=
  List.filterMap_append

/-- The frames in the events of good transfers are the frames transferred (rules R36, R126). -/
theorem framesSent_goodEvents (sel : Sel) (fs : List (List Byte)) : framesSent (fs.flatMap (goodEvents sel)) = fs := by
  induction fs with
  | nil => rfl
  | cons f fs ih =>
    rw [List.flatMap_cons, framesSent_append, ih]
    cases sel <;> rfl

/-- What `TRACE` gains from a command whose frames were all transferred holds these frames. -/
theorem exists_framesSent {i : Instr} {s : State} {fs : List (List Byte)} (h : exec i s = .next (afterFrames s fs)) :
    ∃ t es, exec i s = .next t ∧ t.trace = s.trace ++ es ∧ framesSent es = fs :=
  ⟨_, _, h, rfl, framesSent_goodEvents s.cfg.sel fs⟩

/-- What a targeted frame holds for a device of the chain. -/
theorem named_cons_pairFrame {n d : Nat} (hd : d < n) (k : Nat) (r v : Byte) (fs : List (List Byte)) :
    registersAt d (pairFrame n k r v :: fs) = (if d = k then r else 0x00) :: registersAt d fs
      ∧ dataAt d (pairFrame n k r v :: fs) = (if d = k then v else 0x00) :: dataAt d fs := by
  obtain ⟨hr, hv⟩ := pairFrame_pair n k r v d hd
  exact ⟨congrArg (· :: registersAt d fs) hr, congrArg (· :: dataAt d fs) hv⟩

/-- What targeted frames to one device hold for a device of the chain. -/
theorem named_map_pairFrame {α : Type} {n d : Nat} (hd : d < n) (k : Nat) (r v : α → Byte) (xs : List α) :
    registersAt d (xs.map (fun x => pairFrame n k (r x) (v x))) = xs.map (fun x => if d = k then r x else 0x00)
      ∧ dataAt d (xs.map (fun x => pairFrame n k (r x) (v x))) = xs.map (fun x => if d = k then v x else 0x00) := by
  induction xs with
  | nil => exact ⟨rfl, rfl⟩
  | cons x xs ih =>
    obtain ⟨hregs, hdata⟩ := ih
    simp only [List.map_cons, named_cons_pairFrame hd, hregs, hdata, and_self]

/-- What broadcast frames hold for a device of the chain. -/
theorem named_map_everyFrame {n d : Nat} (hd : d < n) (rs : List Byte) (v : Byte) :
    registersAt d (rs.map (fun r => everyFrame n r v)) = rs
      ∧ dataAt d (rs.map (fun r => everyFrame n r v)) = List.replicate rs.length v := by
  induction rs with
  | nil => exact ⟨rfl, rfl⟩
  | cons r rs ih =>
    obtain ⟨hregs, hdata⟩ := ih
    obtain ⟨hr, hv⟩ := everyFrame_pair n r v d hd
    exact ⟨congrArg₂ List.cons hr hregs, congrArg₂ List.cons hv hdata⟩

/-- Bit 7 of a segment code is the dot, where the byte has a glyph key (rules R21 (e), R106). -/
theorem segmentEncode_bit7 {c : Cfg} (hl : c.legal = true) {ch : Byte} (hkey : (glyphKey ch).isSome = true) (dot : Bool) :
    (segmentEncode c ch dot).getLsbD 7 = dot := by
  obtain ⟨-, -, -, hlaw, -⟩ := segmentEncoderLaws
  obtain ⟨hplain, hdotted⟩ := hlaw c ch hl hkey
  cases dot
  · exact hplain
  · exact hdotted

/-- The string "12345678" (rule R168 (a)). -/
def stringOfDigits : Payload := #v[0x31, 0x32, 0x33, 0x34, 0x35, 0x36, 0x37, 0x38]

/-- The string "ABCDEFGH" (rule R168 (b)). -/
def stringOfLetters : Payload := #v[0x41, 0x42, 0x43, 0x44, 0x45, 0x46, 0x47, 0x48]

theorem stringOfDigits_key (i : Fin 8) :
    glyphKey (stringOfDigits.get i.rev) = some (.digit (Fin.ofNat 10 (8 - i.val))) := by revert i; decide

theorem stringOfLetters_key (i : Fin 8) : (glyphKey (stringOfLetters.get i)).isSome = true := by revert i; decide

/-- The dots of the first example light no point (rule R168 (a)). -/
theorem getLsbD_noDots (i : Nat) : (0b0000_0000 : Byte).getLsbD i = false := BitVec.getLsbD_zero

/-- The dots of the second example light one point, that of register 8 (rule R168 (b)). -/
theorem firstDot_iff (i : Fin 8) : (0b1000_0000 : Byte).getLsbD (7 - i.rev.val) = true ↔ i = 7 := by revert i; decide

/-- Register `i + 1` after WRSTR: it holds the byte the string has last but `i` (rules R163, R167). -/
theorem wrstr_register {s t : State} {k dots : Byte} {buf : Payload} (hl : s.cfg.legal = true) (hlc : s.lc = .ready)
    (h : exec (.wrstr k dots buf) s = .next t) (hst : t.status = .ok) (i : Fin 8) :
    t.devRead k.toNat (BitVec.ofNat 8 (i.val + 1))
      = some (segmentEncode s.cfg (buf.get i.rev) (dots.getLsbD (7 - i.rev.val))) := by
  obtain ⟨-, hwrstr, -⟩ := payloadCommandsFillTheirDevice s t k buf hl hlc hst
  obtain ⟨-, hdigits, -⟩ := hwrstr dots h
  rw [← hdigits i.rev, Fin.val_rev, show 8 - (8 - (i.val + 1)) = i.val + 1 by omega]

/-- Settles O42: the strings through what WRSTR leaves in its device, the frames through what `TRACE` gains. -/
theorem stringExamplesOfTheDocument : Obligations.StringExamplesOfTheDocument := by
  intro s k hl hlc hk ha
  have hwrstr (dots : Byte) (buf : Payload) := wrstrWritesTheString s k dots buf hl hlc hk ha
  obtain ⟨hclr, hclra⟩ := clearingSendsEightFrames s hl hlc fun j hj => ha j (by omega)
  refine ⟨?digits, ?letters, ?clr, ?clra, fun dots buf => ?frames⟩
  case digits =>
    refine ⟨_, hwrstr 0b0000_0000 stringOfDigits, fun i => ⟨?_, legal_seg hl _⟩⟩
    rw [wrstr_register hl hlc (hwrstr _ _) rfl, getLsbD_noDots, segmentEncode, or_pointBit_false,
      segmentBase_of_some (stringOfDigits_key i)]
  case letters =>
    have hreg := wrstr_register hl hlc (hwrstr 0b1000_0000 stringOfLetters) rfl
    refine ⟨_, hwrstr 0b1000_0000 stringOfLetters, ?_, fun i => ⟨_, hreg i, ?_⟩⟩
    · exact (hreg 7).trans (by rw [segmentEncode, segmentBase_of_some (key := .letter .a) (by decide)]; rfl)
    · rw [segmentEncode_bit7 hl (stringOfLetters_key _), firstDot_iff]
  case clr =>
    obtain ⟨t, es, h, htrace, hsent⟩ := exists_framesSent (hclr k hk)
    refine ⟨t, es, h, htrace, ?_, ?_, fun d hd hdk => ?_⟩
    · rw [hsent, (named_map_pairFrame hk ..).1]
      simp
    · rw [hsent, (named_map_pairFrame hk ..).2]
      simp
    · rw [hsent, (named_map_pairFrame hd ..).1]
      simp [hdk]
  case clra =>
    obtain ⟨t, es, h, htrace, hsent⟩ := exists_framesSent hclra
    exact ⟨t, es, h, htrace, fun d hd => hsent ▸ named_map_everyFrame hd _ 0x00⟩
  case frames =>
    obtain ⟨t, es, h, htrace, hsent⟩ := exists_framesSent (hwrstr dots buf)
    refine ⟨t, es, h, htrace, ?_, ?_, fun d hd hdk => ?_⟩
    · rw [hsent, (named_cons_pairFrame hk ..).1, (named_map_pairFrame hk ..).1]
      simp only [if_true]
      rfl
    · rw [hsent, (named_cons_pairFrame hk ..).2, (named_map_pairFrame hk ..).2]
      simp only [if_true]
      rfl
    · rw [hsent, (named_cons_pairFrame hd ..).1, (named_map_pairFrame hd ..).1]
      simp [hdk]

end Sys2Proof.Machine

/-! ### What `FAULT = 0` promises -/

namespace Sys2Proof.Machine

theorem progressAfter_spoiled (st : Status) (todo : List FrameReq) : (progressAfter st todo).spoiled = (st != .ok) := by
  unfold progressAfter
  split
  · next h => rw [h]; rfl
  · rfl

/-- The promise is about five parts of the state alone. -/
theorem FaultInv.congr {s t : State} (h : FaultInv s) (hf : t.fault = s.fault) (hst : t.status = s.status)
    (hp : t.progress = s.progress) (ht : t.trace = s.trace) (hlc : t.lc = s.lc) : FaultInv t where
  statusOk := by rw [hf, hst]; exact h.statusOk
  answersOk := by rw [hf, hp, ht]; exact h.answersOk
  failedFault := by rw [hlc, hf]; exact h.failedFault

/-- `FAULT` stays 0 only through a completion with OK (rule R206). -/
theorem faultAfter_eq_false_iff {old : Bool} {st : Status} : faultAfter old st = false ↔ old = false ∧ st = .ok := by
  rw [faultAfter, Bool.or_eq_false_iff, bne_eq_false_iff_eq]

/-- A completion with a status that is not OK sets `FAULT`; after one with OK the promise is what it was. -/
theorem complete_faultInv {s : State} (h : FaultInv s) (st : Status) : FaultInv (complete st s) where
  statusOk := fun hf => (faultAfter_eq_false_iff.1 hf).2
  answersOk := fun hf => h.answersOk (faultAfter_eq_false_iff.1 hf).1
  failedFault := fun hlc => Bool.or_eq_true_iff.2 (.inl (h.failedFault hlc))

/-- The end of what is running: a failed call is told by the status, and a failed sequence by `FAULT` (rule R233). -/
theorem finish_faultInv {s : State} (h : FaultInv s) {st : Status} (hp : s.progress.spoiled = (st != .ok)) :
    FaultInv (finish st s) where
  statusOk := by
    rw [finish_fault, finish_status, faultAfter_eq_false_iff]
    exact And.right
  answersOk := by
    rw [finish_fault, finish_trace, faultAfter_eq_false_iff]
    rintro ⟨hf, rfl⟩ -
    exact h.answersOk hf hp
  failedFault := by
    rw [finish_lc, finish_fault, faultAfter, Bool.or_eq_true_iff]
    intro hlc
    split at hlc
    · exact .inr (bne_iff_ne.2 fun hst => by simp [hst] at hlc)
    · exact .inl (h.failedFault hlc)

/-- One call: the promise stays when a call that is answered `err`, or comes after one that was, leaves the command
spoiled. -/
theorem FaultInv.call {s t : State} {k : Nat} {e : Event} (h : FaultInv s) (hc : Called s t k)
    (ht : t.trace = s.trace ++ [e])
    (hok : t.progress.spoiled = false → s.progress.spoiled = false ∧ e.answer = .ok) : FaultInv t where
  statusOk := by rw [hc.fault, hc.status]; exact h.statusOk
  answersOk := fun hf hsp e' he' => by
    obtain ⟨hold, hnew⟩ := hok hsp
    rw [ht, List.mem_append, List.mem_singleton] at he'
    rcases he' with he' | rfl
    · exact h.answersOk (hc.fault ▸ hf) hold e' he'
    · exact hnew
  failedFault := by rw [hc.lc, hc.fault]; exact h.failedFault

/-- The first call of a frame (rules R124, R125). -/
theorem nextFrame_faultInv {s : State} (h : FaultInv s) (hp : s.progress.spoiled = false) (f : FrameReq)
    (rest : List FrameReq) : FaultInv (nextFrame (f :: rest) s) := by
  have hcalled := nextFrame_called f rest s
  cases hs : s.cfg.sel with
  | hw =>
    refine h.call (e := .tx (build f s).frame (s.upcoming 0)) hcalled ?_ fun hsp => ⟨hp, ?_⟩
    · simp [nextFrame, hs, sendFrame_hw hs, transferHW]
    · simp only [nextFrame, hs, sendFrame_hw hs, transferHW, setProgress_progress, progressAfter_spoiled,
        upcoming_build] at hsp
      cases h0 : s.upcoming 0
      · rfl
      · rw [h0] at hsp; cases hsp
  | sw =>
    refine h.call (e := .pl (s.upcoming 0)) hcalled ?_ fun hsp => ⟨hp, ?_⟩
    · simp [nextFrame, hs]
    · simp only [nextFrame, hs, setProgress_progress] at hsp
      cases h0 : s.upcoming 0
      · rfl
      · rw [h0] at hsp; cases hsp

/-- The write of a `SW` frame (rule R125). -/
theorem writeFrame_faultInv {s : State} (h : FaultInv s) (hp : s.progress.spoiled = false) (todo : List FrameReq) :
    FaultInv (writeFrame todo s) := by
  refine h.call (e := .tx s.frame (s.upcoming 0)) (writeFrame_called todo s) rfl fun hsp => ⟨hp, ?_⟩
  cases h0 : s.upcoming 0
  · rfl
  · simp [writeFrame, Progress.spoiled, h0] at hsp

theorem swStatus_ok {r1 r3 : Answer} {r2 : Option Answer} (h : swStatus r1 r2 r3 = .ok) :
    r1 = .ok ∧ r2 ≠ some .err ∧ r3 = .ok := by
  cases r1 <;> cases r3 <;> simp_all [swStatus]

/-- The drive to high that ends a `SW` frame: it is good only where every part was (rule R208). -/
theorem releaseSelect_faultInv {s : State} (h : FaultInv s) {r1 : Answer} {r2 : Option Answer} (todo : List FrameReq)
    (hp : r1 = .ok → r2 ≠ some .err → s.progress.spoiled = false) : FaultInv (releaseSelect r1 r2 todo s) := by
  refine h.call (e := .ph (s.upcoming 0)) (releaseSelect_called r1 r2 todo s) (by simp [releaseSelect]) fun hsp => ?_
  rw [releaseSelect, setProgress_progress, progressAfter_spoiled, bne_eq_false_iff_eq] at hsp
  obtain ⟨hlow, hwrite, hhigh⟩ := swStatus_ok hsp
  exact ⟨hp hlow hwrite, hhigh⟩

theorem Moves.keeps_faultInv {s t : State} (h : FaultInv s) (m : Moves s t) : FaultInv t := by
  cases m with
  | stay => exact h
  | reset acts => exact (resetOf_fault s.cfg).congr rfl rfl rfl rfl rfl
  | noWord bytes acts => exact h.congr rfl rfl rfl rfl rfl
  | complete bytes acts c st r =>
    exact complete_faultInv (s := { s with port := acts, cmd := c, res := r }) (h.congr rfl rfl rfl rfl rfl) st
  | command bytes acts c f rest hb =>
    exact nextFrame_faultInv (s := { s with port := acts, cmd := c }) (h.congr rfl rfl rfl rfl rfl)
      (by rw [((idle_iff s).1 hb).2]; rfl) f rest
  | init f rest hr => exact nextFrame_faultInv h (by rw [((atRelease_iff s).1 hr).2]; rfl) f rest
  | next f rest hp => exact nextFrame_faultInv h (by rw [hp]; rfl) f rest
  | write rest hp => exact writeFrame_faultInv h (by rw [hp]; rfl) rest
  | release r rest hp =>
    refine releaseSelect_faultInv h rest fun _ hr => ?_
    rw [hp]
    cases r
    · rfl
    · exact absurd rfl hr
  | giveUp hp => exact releaseSelect_faultInv h [] nofun
  | finish st hp => exact finish_faultInv h (by rcases hp with hp | ⟨hp, rfl⟩ <;> rw [hp] <;> rfl)

theorem callStep_keeps_faultInv (s t : State) (h : FaultInv s) (hs : callStep s = .next t) : FaultInv t :=
  (callStep_moves hs).2.keeps_faultInv h

/-- Settles O58: by the case analysis of what one call or completion can do, and for a whole step because it is a run of
such calls. -/
theorem stepKeepsTheFaultPremise : Obligations.StepKeepsTheFaultPremise := by
  rintro s t h (hs | hs)
  · exact step_keeps callStep_keeps_faultInv h hs
  · exact callStep_keeps_faultInv s t h hs

end Sys2Proof.Machine

/-! ### The tests before the first frame, and what a refused command leaves -/

namespace Sys2Proof.Machine

/-! #### Commands -/

/-- A command that sends frames is refused outside READY before anything else is looked at (rules R205, R207). -/
theorem exec_notReady {i : Instr} {s : State} (he : isEncoder i = false) (hlc : s.lc ≠ .ready) :
    exec i s = .next (refusedWith .notReady s) := by
  rw [exec_sending he, outcomeOf, if_pos hlc]

/-- In READY a command this instance does not take as legal is refused whatever its device index (rules R203, R207). -/
theorem exec_illegal {i : Instr} {s : State} (he : isEncoder i = false) (hlc : s.lc = .ready)
    (hl : legalFor s.cfg.n i = false) : exec i s = .next (refusedWith .illegalCmd s) := by
  rw [exec_sending he, outcomeOf, if_neg (not_not_intro hlc), if_pos hl]

/-- In READY a legal command is refused for an index outside the chain (rule R204). -/
theorem exec_outsideChain {i : Instr} {s : State} {k : Byte} (hlc : s.lc = .ready) (hl : legalFor s.cfg.n i = true)
    (hd : deviceOf i = some k) (hk : s.cfg.n ≤ k.toNat) : exec i s = .next (refusedWith .rangeErr s) := by
  have hr : indexInRange s.cfg.n (deviceOf i) = false := by rw [hd]; exact decide_eq_false (Nat.not_lt.2 hk)
  rw [exec_sending (encoder_of_device hd), outcomeOf, if_neg (not_not_intro hlc), if_neg (by simp [hl]), if_pos hr]

/-- How a command can end: as its calls were answered, or refused by one of the three tests, each for its own reason
(rules R202, R212). -/
theorem exec_status_cases {i : Instr} {s t : State} (h : exec i s = .next t) :
    t.status = .ok
      ∨ (isEncoder i = false ∧ (t.status = .transportErr ∨ (t.status = .pinErr ∧ s.cfg.sel = .sw)))
      ∨ (isEncoder i = false ∧ ∃ st, t = refusedWith st s
        ∧ ((st = .notReady ∧ s.lc ≠ .ready) ∨ (st = .illegalCmd ∧ legalFor s.cfg.n i = false)
          ∨ (st = .rangeErr ∧ (deviceOf i).isSome = true))) := by
  cases he : isEncoder i with
  | true =>
    obtain ⟨v, hv⟩ := exec_encoder he s
    exact .inl (Host.Outcome.next.inj (h.symm.trans hv) ▸ rfl)
  | false =>
    obtain rfl : t = outcomeOf i s := Host.Outcome.next.inj (h.symm.trans (exec_sending he s))
    rcases outcome_refused_cases i s with ⟨e, hlc⟩ | ⟨e, -, hl⟩ | ⟨e, -, -, hr⟩ | ⟨e, hp⟩
    · exact .inr (.inr ⟨rfl, _, e, .inl ⟨rfl, hlc⟩⟩)
    · exact .inr (.inr ⟨rfl, _, e, .inr (.inl ⟨rfl, hl⟩)⟩)
    · refine .inr (.inr ⟨rfl, _, e, .inr (.inr ⟨rfl, ?_⟩)⟩)
      cases hd : deviceOf i with
      | none => rw [hd] at hr; cases hr
      | some k => rfl
    · rw [e, complete_status]
      exact (sendFrames_status (requestsOf_inChain hp.legal (performed_range hp))).imp_right fun hst => .inl ⟨rfl, hst⟩

/-- Settles O45: the other ways to end are OK and the two statuses of a failed call. -/
theorem refusedCommandsChangeNothing : Obligations.RefusedCommandsChangeNothing := by
  intro i s t h hst
  rcases exec_status_cases h with hok | ⟨-, htransport | ⟨hpin, -⟩⟩ | ⟨-, st, rfl, -⟩
  · simp [hok] at hst
  · simp [htransport] at hst
  · simp [hpin] at hst
  · rfl

/-- Settles O50: each refusal comes with its reason, and a failed call is a transfer's. -/
theorem statusesOfEachCommand : Obligations.StatusesOfEachCommand := by
  intro i s t h
  rcases exec_status_cases h with hok | ⟨he, htransport | ⟨hpin, hsel⟩⟩ |
    ⟨he, st, rfl, ⟨rfl, hlc⟩ | ⟨rfl, hl⟩ | ⟨rfl, hd⟩⟩
  · simp [hok]
  · simp [he, htransport]
  · simp [he, hpin, hsel]
  · simp [he, hlc]
  · simp [he, hl]
  · simp [he, hd]

/-- Settles O48: each of the ten commands is legal at every value of its other operands. -/
theorem indexOutsideTheChainIsRangeErr : Obligations.IndexOutsideTheChainIsRangeErr := by
  intro s k hlc hk
  have refused {i : Instr} (hl : legalFor s.cfg.n i = true) (hd : deviceOf i = some k) :
      exec i s = .next (refusedWith .rangeErr s) := exec_outsideChain hlc hl hd hk
  exact ⟨fun reg data => refused rfl rfl, fun name data => refused rfl rfl, fun mode => refused rfl rfl,
    fun level => refused (legalFor_of_wf (decide_eq_true level.isLt) nofun) rfl,
    fun limit => refused (legalFor_of_wf (decide_eq_true limit.isLt) nofun) rfl,
    fun mode => refused rfl rfl, refused rfl rfl, fun buf => refused rfl rfl, fun dots buf => refused rfl rfl,
    fun buf => refused rfl rfl⟩

/-! #### Words -/

/-- The end of a word that is no legal command, by its opcode and the life-cycle state (rules R203, R207). -/
theorem rejectWord_eq_refusedWith (op : Byte) (s : State) :
    rejectWord op s = refusedWith (if isEncoderOp op = true ∨ s.lc = .ready then .illegalCmd else .notReady) s := by
  unfold rejectWord refuseIllegal
  by_cases hop : isEncoderOp op = true
  · rw [if_pos hop, if_pos (.inl hop), complete_refused (by simp)]
  · by_cases hlc : s.lc = .ready
    · rw [if_neg hop, if_neg (not_not_intro hlc), if_pos (.inr hlc), complete_refused (by simp)]
    · rw [if_neg hop, if_pos hlc, if_neg (not_or_intro hop hlc), complete_refused (by simp)]

/-- A step of an idle block with a legal configuration is the host's act. -/
theorem step_eq_hostAct {s : State} (hl : s.cfg.legal = true) (hb : s.busy = false) : step s = hostAct exec s := by
  rw [step, guarded_pass hl (selectReady_of_idle hb), hb, if_neg Bool.false_ne_true]

/-- The step of an idle block that is offered a word that is no legal command. -/
theorem step_rejected {s : State} (hl : s.cfg.legal = true) (hb : s.busy = false) {bytes rest : List Byte}
    {acts : List HostAct} {c : CmdWord} {e : Reject} (hp : s.port = .word bytes :: acts)
    (ht : takeWord bytes = some (c, rest)) (hd : decodeFields c = .error e) :
    step s = .next (rejectWord c.op { s with port := acts, cmd := c }) := by
  rw [step_eq_hostAct hl hb, hostAct_word exec hb hp ht, acceptWord, hd, latchCmd]

theorem draw_not_legalFor {n : Nat} (hn : n ≠ 1) (digit : Nat) (data : Byte) : legalFor n (.draw digit data) = false := by
  simp [legalFor, Instr.mnemonic, hn]

/-- Settles O7: the word is rejected in READY, and DRAW is no legal command of a longer chain. -/
theorem illegalCommandsAreRefused : Obligations.IllegalCommandsAreRefused := by
  refine ⟨fun s bytes rest acts c e hl hb hlc hp ht hd => ?word, fun s digit data hlc hn => ?draw⟩
  case word =>
    rw [step_rejected hl hb hp ht hd, rejectWord_eq_refusedWith, if_pos (.inr hlc)]
    rfl
  case draw => exact exec_illegal rfl hlc (draw_not_legalFor hn digit data)

/-- Settles O8: each test is reached where those before it are passed. -/
theorem testsComeInOrder : Obligations.TestsComeInOrder := by
  refine ⟨fun s bytes rest acts c e hl hb hlc hp ht hd => ?word,
    fun s i he hlc => exec_notReady he (by simp [hlc]), fun s i he hlc hl => exec_illegal he hlc hl,
    fun s i k hlc hl hd hk => exec_outsideChain hlc hl hd hk⟩
  case word =>
    rw [step_rejected hl hb hp ht hd, rejectWord_eq_refusedWith]
    simp [refusedWith, isEncoderOp, hlc]

/-! #### FAILED -/

/-- A step of a block that is past its initialization sequence keeps `LC` unless it is a reset (rules R205, R233). -/
theorem step_lc {s t : State} (h : step s = .next t) (hlc : s.lc ≠ .init) :
    t.lc = s.lc ∨ (s.busy = false ∧ ∃ acts, s.port = .reset :: acts) := by
  cases hb : s.busy with
  | true =>
    obtain ⟨st, u, e, -, hu, -⟩ := runOut_cases hb
    rw [step_busy h hb, e, finish_lc, hu, if_neg hlc]
    exact .inl rfl
  | false =>
    rcases hostAct_cases hb (step_idle h hb) with ⟨-, rfl⟩ | ⟨acts, hp, -⟩ | ⟨bytes, acts, -, -, rfl⟩ |
      ⟨bytes, acts, c, rest, -, -, ⟨i, -, hx⟩ | ⟨e, -, rfl⟩⟩
    · exact .inl rfl
    · exact .inr ⟨rfl, acts, hp⟩
    · exact .inl rfl
    · obtain ⟨-, hkeep, -⟩ := commandFrame i _ t hx
      exact .inl hkeep
    · rw [rejectWord_eq_refusedWith]
      exact .inl rfl

/-- An encoder gives one result, whatever `LC` (rule R205). -/
theorem exec_encoder_lc {i : Instr} {s t : State} (he : isEncoder i = true) (h : exec i s = .next t) :
    t.status = .ok ∧ ∀ l, exec i { s with lc := l } = .next { t with lc := l } := by
  obtain ⟨v, hv⟩ := workOf_encoder (c := s.cfg) he
  rw [exec_eq, hv, perform_result] at h
  obtain rfl := Host.Outcome.next.inj h
  exact ⟨rfl, fun l => by rw [exec_eq, hv, perform_result]⟩

/-- Settles O49: the first test refuses all but the encoders, which are not tested; `LC` is written by a reset and at the end
of the initialization sequence alone; and INIT is busy. -/
theorem failedBlockServesTheEncodersOnly : Obligations.FailedBlockServesTheEncodersOnly := by
  refine ⟨fun i s hlc he => exec_notReady he (by simp [hlc]), fun i s t he h => exec_encoder_lc he h,
    fun s t h hlc ht => ?leaves, fun s bytes hlc => ?init⟩
  case leaves =>
    rcases step_lc h (by simp [hlc]) with hkeep | ⟨-, hreset⟩
    · exact absurd (hkeep.trans hlc) ht
    · exact hreset
  case init =>
    have hb : s.busy = true := (busy_iff s).2 (.inl hlc)
    exact ⟨present_busy exec bytes hb, present_busy start bytes hb⟩

end Sys2Proof.Machine

/-! ### One transfer of a software-select instance -/

namespace Sys2Proof.Machine

/-- Settles O22: after a good drive to low the write and the restoring drive are made, after a failed one the restoring drive
alone, and only three good answers latch. -/
theorem softwareSelectTransfer : Obligations.SoftwareSelectTransfer := by
  intro s hs
  refine ⟨fun h0 => ?low, fun h0 => ?lowFailed⟩
  case low =>
    rw [transfer_sw hs, transferSW, h0, three_calls _ _ h0]
    cases s.upcoming 1 <;> cases s.upcoming 2 <;> rfl
  case lowFailed =>
    rw [transfer_sw hs, transferSW, h0, two_calls _ h0]
    cases s.upcoming 1 <;> rfl

end Sys2Proof.Machine

/-! ### The two grains of step, and the reference host -/

namespace Sys2Proof.Machine

/-! #### Every step answers -/

theorem callStep_next {s : State} (hl : s.cfg.legal = true) (hs : selectReady s = true) :
    ∃ t, callStep s = .next t := by
  rw [callStep, guarded_pass hl hs]
  cases s.busy with
  | true => exact ⟨_, rfl⟩
  | false => exact hostAct_next (fun _ _ => ⟨_, rfl⟩) s

/-- The one refusal of a legal configuration (rule R237). -/
theorem guarded_selectNotReady {s : State} (hl : s.cfg.legal = true) (hs : selectReady s = false)
    (o : Host.Outcome State Fault Refusal) : guarded s o = .refused .selectNotHighAtRelease := by
  rw [guarded, if_pos hl, hs, if_neg Bool.false_ne_true]

/-- One call-grain step of a busy block: a call, which the host cannot see, or the completion (rules R9, R28, R38). -/
theorem advance_call_or_completion {s : State} (hb : s.busy = true) :
    (∃ e, (advance s).trace = s.trace ++ [e] ∧ (advance s).busy = true ∧ (advance s).hostView = s.hostView
        ∧ (advance s).cmd = s.cmd ∧ (advance s).cfg = s.cfg)
      ∨ ((advance s).busy = false ∧ advance s = { s with
          lc := (advance s).lc, status := (advance s).status
          fault := s.fault || (advance s).status != .ok, progress := .idle }) := by
  rcases advance_cases hb with ⟨k, -, hc⟩ | ⟨st, e, -⟩
  · obtain ⟨e, he⟩ := hc.trace
    refine .inl ⟨e, he, hc.busy, ?_, hc.cmd, hc.cfg⟩
    simp only [State.hostView, hc.busy, hb, hc.lc, hc.status, hc.fault, hc.res]
  · rw [e]
    exact .inr ⟨finish_busy st s, by apply State.ext <;> simp [faultAfter]⟩

/-- The first call-grain step of a command: its completion, or its first call (rule R9). -/
theorem start_completion_or_call {i : Instr} {s t : State} (hb : s.busy = false) (h : start i s = .next t) :
    (exec i s = .next t ∧ t.busy = false ∧ t = { s with
        res := t.res, status := t.status, fault := s.fault || t.status != .ok })
      ∨ (∃ e, t.trace = s.trace ++ [e] ∧ t.busy = true ∧ t.status = s.status ∧ t.fault = s.fault ∧ t.res = s.res
        ∧ t.lc = s.lc) := by
  rcases start_cases hb h with ⟨hx, st, r, rfl⟩ | ⟨dev, f, rest, k, -, -, -, -, hc⟩
  · exact .inl ⟨hx, complete_busy (s := { s with res := r }) hb st, rfl⟩
  · obtain ⟨e, he⟩ := hc.trace
    exact .inr ⟨e, he, hc.busy, hc.status, hc.fault, hc.res, hc.lc⟩

/-- Settles O11: a step is refused by its two guards alone, a call or a completion is all that `advance` and `start` do, and a
step is a run of such steps. -/
theorem legalConfigurationsStep : Obligations.LegalConfigurationsStep := by
  refine ⟨fun s hl => ⟨fun hcs => ?answers, fun hlc hp hsel hcs => ?refused⟩, fun s t h hb => ?busy,
    fun i s t hb h => start_completion_or_call hb h, step_is_callRun⟩
  case answers =>
    have hs : selectReady s = true :=
      (selectReady_iff s).2 fun hr => hcs ((atRelease_iff s).1 hr).1 ((atRelease_iff s).1 hr).2
    exact ⟨step_next hl hs, callStep_next hl hs⟩
  case refused =>
    have hs : selectReady s = false := by
      rw [← Bool.not_eq_true, selectReady_iff]
      exact fun h => hcs (h ((atRelease_iff s).2 ⟨hlc, hp⟩) hsel)
    exact ⟨guarded_selectNotReady hl hs _, guarded_selectNotReady hl hs _⟩
  case busy =>
    obtain ⟨-, ⟨-, -, rfl⟩ | ⟨hi, -⟩⟩ := callStep_next_cases h
    · exact advance_call_or_completion hb
    · simp [hb] at hi

/-! #### The reference host -/

/-- A step of the reference host. -/
theorem referenceRun_succ {s t : State} (h : step s = .next t) (k : Nat) :
    referenceRun (k + 1) s = if referenceHostStops s t then .next t else referenceRun k t := by
  rw [referenceRun, h]

/-- With nothing left to present the reference host's run ends. -/
theorem referenceRun_of_port_nil {s : State} (hl : s.cfg.legal = true) (hb : s.busy = false) (hp : s.port = [])
    (k : Nat) : referenceRun k s = .next s := by
  induction k with
  | zero => rfl
  | succ k ih =>
    have hstep : step s = .next s := by rw [step_eq_hostAct hl hb, hostAct, hp]
    have hgoes : referenceHostStops s s = false := by simp [referenceHostStops, completesWord, hb, hp]
    rw [referenceRun_succ hstep, hgoes]
    exact ih

/-- A word that ends too soon is taken from the port and nothing else happens; the run goes on (log 5). -/
theorem referenceRun_partialWord {s : State} (hl : s.cfg.legal = true) (hb : s.busy = false) {bytes : List Byte}
    {acts : List HostAct} (hp : s.port = .word bytes :: acts) (ht : takeWord bytes = none) (k : Nat) :
    referenceRun (k + 1) s = referenceRun k { s with port := acts } := by
  have hb' : State.busy { s with port := acts } = false := hb
  have hstep : step s = .next { s with port := acts } := by
    simp [step_eq_hostAct hl hb, hostAct, hp, present, hb', ht]
  have hgoes : referenceHostStops s { s with port := acts } = false := by
    simp [referenceHostStops, completesWord, hb, hp, ht]
  rw [referenceRun_succ hstep, hgoes]
  rfl

/-- A whole word at the port of an idle block is taken and completed by one step (rules R28, R206). -/
theorem step_wholeWord {s : State} (hl : s.cfg.legal = true) (hb : s.busy = false) {bytes : List Byte}
    {acts : List HostAct} (hp : s.port = .word bytes :: acts) (ht : (takeWord bytes).isSome = true) :
    ∃ u, step s = .next u ∧ u.port = acts ∧ u.busy = false ∧ u.cfg = s.cfg := by
  obtain ⟨⟨c, rest⟩, ht⟩ := Option.isSome_iff_exists.1 ht
  obtain ⟨u, hu⟩ := step_next hl (selectReady_of_idle hb)
  refine ⟨u, hu, ?_⟩
  cases hd : decodeFields c with
  | ok i =>
    have ha := step_word hu hb hp ht
    rw [acceptWord_ok exec hd] at ha
    obtain ⟨hcfg, hlc, -, hport, hprogress, -⟩ := commandFrame i _ u ha
    exact ⟨hport, (idle_iff u).2 ⟨hlc ▸ ((idle_iff s).1 hb).1, hprogress.trans ((idle_iff s).1 hb).2⟩, hcfg⟩
  | error e =>
    obtain ⟨st, -, rfl⟩ := step_refusedWord hu hb hp ht hd
    exact ⟨rfl, hb, rfl⟩

/-- A step that completes a presented command ends the run, or lets it go on, by its status (rule R210). -/
theorem referenceRun_of_completesWord {s u : State} (h : step s = .next u) (hc : completesWord s = true) (k : Nat) :
    referenceRun (k + 1) s = if u.status = .ok then referenceRun k u else .next u := by
  rw [referenceRun_succ h, referenceHostStops, hc, Bool.true_and]
  by_cases hst : u.status = .ok <;> simp [hst]

theorem completesWord_of_wholeWord {s : State} (hb : s.busy = false) {bytes : List Byte} {acts : List HostAct}
    (hp : s.port = .word bytes :: acts) (ht : (takeWord bytes).isSome = true) : completesWord s = true := by
  simp [completesWord, hb, hp, ht]

/-- A list of words is presented in order, up to the first that does not complete with OK, in as many steps as it has
words. -/
theorem referenceRun_words {s : State} {k : Nat} (hl : s.cfg.legal = true) (hb : s.busy = false)
    (hw : ∀ a ∈ s.port, ∃ bytes, a = .word bytes) (hk : s.port.length ≤ k) :
    ∃ t, referenceRun k s = .next t ∧ (t.status = .ok → t.port = []) ∧ ∃ presented, s.port = presented ++ t.port := by
  induction k generalizing s with
  | zero =>
    have hp : s.port = [] := List.length_eq_zero_iff.1 (Nat.le_zero.1 hk)
    exact ⟨s, rfl, fun _ => hp, [], rfl⟩
  | succ k ih =>
    cases hp : s.port with
    | nil => exact ⟨s, referenceRun_of_port_nil hl hb hp _, fun _ => hp, [], hp.symm⟩
    | cons a acts =>
      rw [hp] at hw hk
      obtain ⟨bytes, rfl⟩ := hw a List.mem_cons_self
      have hacts : ∀ a ∈ acts, ∃ bytes, a = HostAct.word bytes := fun a ha => hw a (List.mem_cons_of_mem _ ha)
      have hlen : acts.length ≤ k := Nat.le_of_succ_le_succ hk
      cases ht : takeWord bytes with
      | none =>
        obtain ⟨t, hrun, hall, presented, he⟩ := ih (s := { s with port := acts }) hl hb hacts hlen
        exact ⟨t, (referenceRun_partialWord hl hb hp ht k).trans hrun, hall, .word bytes :: presented,
          congrArg (HostAct.word bytes :: ·) he⟩
      | some w =>
        have ht : (takeWord bytes).isSome = true := by rw [ht]; rfl
        obtain ⟨u, hu, hport, hidle, hcfg⟩ := step_wholeWord hl hb hp ht
        rw [referenceRun_of_completesWord hu (completesWord_of_wholeWord hb hp ht)]
        subst hport
        split
        · obtain ⟨t, hrun, hall, presented, he⟩ := ih (hcfg ▸ hl) hidle hacts hlen
          exact ⟨t, hrun, hall, .word bytes :: presented, congrArg (HostAct.word bytes :: ·) he⟩
        · next hst => exact ⟨u, rfl, fun h => absurd h hst, [.word bytes], rfl⟩

/-- Settles O13: only the status of a word's completion is looked at, and the list of words is presented by induction on the
steps. -/
theorem referenceHostStopsAtTheFirstError : Obligations.ReferenceHostStopsAtTheFirstError := by
  refine ⟨fun s k hl hb hp => referenceRun_of_port_nil hl hb hp k, fun s k bytes acts hl hb hp ht => ?word,
    fun s u k hlc h => ?init, fun s u k hb hlc h => ?running, fun s k hl hb hw hk => referenceRun_words hl hb hw hk⟩
  case word =>
    obtain ⟨u, hu, hport, hidle, -⟩ := step_wholeWord hl hb hp ht
    have hrun := referenceRun_of_completesWord hu (completesWord_of_wholeWord hb hp ht) k
    exact ⟨u, hu, hport, hidle, fun hst => hrun.trans (if_pos hst), fun hst => hrun.trans (if_neg hst)⟩
  case init =>
    have hb : s.busy = true := (busy_iff s).2 (.inl hlc)
    have hgoes : referenceHostStops s u = false := by simp [referenceHostStops, completesWord, hb, hlc]
    rw [referenceRun_succ h, hgoes]
    exact ⟨(busy_step_keeps (.inl h) hb).1, rfl⟩
  case running =>
    have hc : completesWord s = true := by simp [completesWord, hb, hlc]
    exact ⟨(busy_step_keeps (.inl h) hb).1, referenceRun_of_completesWord h hc k⟩

end Sys2Proof.Machine

/-! ### Reset, and the end of the initialization sequence -/

namespace Sys2Proof.Machine

/-! #### The step that runs the sequence -/

/-- The step of a block whose reset has just been released, as its pseudocode gives it (rules R230, R232). -/
theorem step_eq_boot {s t : State} (h : step s = .next t) (hlc : s.lc = .init) (hp : s.progress = .idle) : t = boot s := by
  obtain ⟨hl, hs, -⟩ := guarded_next.1 h
  have hr := (atRelease_iff s).2 ⟨hlc, hp⟩
  exact Host.Outcome.next.inj (h.symm.trans (step_release hl hr ((selectReady_iff s).1 hs hr)))

/-- The end of the sequence, wherever in it the step began (rule R233). -/
theorem step_init_end {s t : State} (h : step s = .next t) (hlc : s.lc = .init) :
    t.lc = (if t.status = .ok then .ready else .failed) ∧ t.fault = (s.fault || t.status != .ok) ∧ t.busy = false := by
  have hb : s.busy = true := (busy_iff s).2 (.inl hlc)
  obtain rfl := step_busy h hb
  refine ⟨?_, runOut_fault hb, runOut_busy s⟩
  obtain ⟨st, u, e, -, hu, -⟩ := runOut_cases hb
  rw [e, finish_lc, finish_status, hu, if_pos hlc]

/-! #### Who writes `LC` -/

/-- A call-grain step writes `LC` only as the completion of the sequence or as a reset (rules R230, R233). -/
theorem callStep_lc {s t : State} (h : callStep s = .next t) :
    t.lc = s.lc ∨ (s.lc = .init ∧ t.busy = false) ∨ (s.busy = false ∧ ∃ acts, s.port = .reset :: acts) := by
  obtain ⟨-, ⟨hb, -, rfl⟩ | ⟨hb, ha⟩⟩ := callStep_next_cases h
  · rcases advance_cases hb with ⟨k, -, hc⟩ | ⟨st, e, -⟩
    · exact .inl hc.lc
    · rw [e]
      by_cases hlc : s.lc = .init
      · exact .inr (.inl ⟨hlc, finish_busy st s⟩)
      · exact .inl ((finish_lc st s).trans (if_neg hlc))
  · rcases hostAct_cases hb ha with ⟨-, rfl⟩ | ⟨acts, hp, -⟩ | ⟨bytes, acts, -, -, rfl⟩ |
      ⟨bytes, acts, c, rest, -, -, ⟨i, -, hx⟩ | ⟨e, -, rfl⟩⟩
    · exact .inl rfl
    · exact .inr (.inr ⟨hb, acts, hp⟩)
    · exact .inl rfl
    · rcases start_completion_or_call (s := { s with port := acts, cmd := c }) hb hx with
        ⟨-, -, e⟩ | ⟨e, -, -, -, -, -, hlc⟩
      · rw [e]; exact .inl rfl
      · exact .inl hlc
    · rw [rejectWord_eq_refusedWith]
      exact .inl rfl

/-- Settles O52: the sequence ends as its frames do, and no other completion writes `LC`. -/
theorem initEndsReadyOrFailed : Obligations.InitEndsReadyOrFailed := by
  refine ⟨fun s t h hlc => ?sequence, fun s t h hlc hne => (step_lc h hlc).resolve_left hne,
    fun s t h hne => (callStep_lc h).resolve_left hne⟩
  case sequence =>
    obtain ⟨hend, hfault, hbusy⟩ := step_init_end h hlc
    refine ⟨fun hp => ?_, fun hst => ?_, fun hst => ?_, hbusy⟩
    · rw [step_eq_boot h hlc hp]
      exact ⟨rfl, (sendFrames_status (s := s) initFrames_inChain).imp_right (.imp_right And.left)⟩
    · exact ⟨by rw [hend, if_pos hst], by simp [hfault, hst]⟩
    · exact ⟨by rw [hend, if_neg hst], by simp [hfault, hst]⟩

/-! #### Reset -/

theorem hostAct_reset (run : Instr → State → Host.Outcome State Fault Refusal) {s : State} {acts : List HostAct}
    (hp : s.port = .reset :: acts) : hostAct run s = .next (resetRelease { s with port := acts }) := by
  rw [hostAct, hp]

/-- A call-grain step of an idle block with a legal configuration is the host's act. -/
theorem callStep_eq_hostAct {s : State} (hl : s.cfg.legal = true) (hb : s.busy = false) :
    callStep s = hostAct start s := by
  rw [callStep, guarded_pass hl (selectReady_of_idle hb), hb, if_neg Bool.false_ne_true]

/-- A step that ends in INIT is a reset (rule R230). -/
theorem step_to_init {s t : State} (h : step s = .next t) (ht : t.lc = .init) :
    s.busy = false ∧ ∃ acts, s.port = .reset :: acts := by
  have hlc : s.lc ≠ .init := fun hlc => by
    have hend := (step_init_end h hlc).1
    rw [ht] at hend
    split at hend <;> cases hend
  exact (step_lc h hlc).resolve_left fun e => hlc (e.symm.trans ht)

/-- Outside INIT a step of either grain keeps `LC` unless it is a reset. -/
theorem either_step_lc {s t : State} (h : step s = .next t ∨ callStep s = .next t) (hlc : s.lc ≠ .init) :
    t.lc = s.lc ∨ (s.busy = false ∧ ∃ acts, s.port = .reset :: acts) := by
  rcases h with h | h
  · exact step_lc h hlc
  · exact (callStep_lc h).imp_right fun hw => hw.resolve_left fun e => hlc e.1

/-- Settles O9: a reset takes every field from the reset state; a step past INIT writes `LC` as a reset only, a step in INIT
ends in READY or FAILED, and a reset alone clears `FAULT`. -/
theorem resetAndOnlyResetRestarts : Obligations.ResetAndOnlyResetRestarts := by
  refine ⟨fun s => rfl, fun s acts hl hb hp => ?act,
    fun s hl hlc hp hcs => step_release hl ((atRelease_iff s).2 ⟨hlc, hp⟩) hcs, fun s t h ht => step_to_init h ht,
    fun s t h ht hlc => (either_step_lc (.inr h) hlc).resolve_left fun e => hlc (e.symm.trans ht),
    fun s t h hno => ?keeps⟩
  case act =>
    rw [callStep_eq_hostAct hl hb, step_eq_hostAct hl hb, hostAct_reset _ hp, hostAct_reset _ hp]
    exact ⟨rfl, rfl⟩
  case keeps =>
    have hnoReset : ¬ (s.busy = false ∧ ∃ acts, s.port = .reset :: acts) := by
      rintro ⟨hb, acts, hp⟩
      rcases hno with hb' | hp'
      · simp [hb] at hb'
      · exact hp' acts hp
    exact ⟨(step_fault h).resolve_right hnoReset,
      fun hlc => ((either_step_lc h (by simp [hlc])).resolve_right hnoReset).trans hlc⟩

end Sys2Proof.Machine

/-! ### The frames of the initialization sequence, and where it stops -/

namespace Sys2Proof.Machine

theorem initSequence_frame_length {c : Cfg} (hl : c.legal = true) : ∀ f ∈ initSequence c, f.length = 2 * c.n := by
  rw [← initFrames_framesOf hl]
  exact framesOf_length

theorem initSequence_ne_nil (c : Cfg) : initSequence c ≠ [] :=
  List.ne_nil_of_length_pos (by rw [initSequence_length]; omega)

/-- The sequence whose frames end with this status in this state. -/
theorem boot_of_sendFrames {s u : State} {st : Status} (h : sendFrames (initFrames s.cfg) s = (st, u)) :
    boot s = finishInit st u := by
  rw [boot, h]

/-- The sequence when every call is answered `ok` (rules R232, R233). -/
theorem boot_good {s : State} (hl : s.cfg.legal = true)
    (ha : AnswersOk s ((11 * s.cfg.n + 1) * callsPerFrame s.cfg.sel)) :
    boot s = { afterFrames s (initSequence s.cfg) with lc := .ready } := by
  have hsent := sendFrames_good (s := s) initFrames_inChain (by rwa [initFrames_length hl])
  rw [initFrames_framesOf hl, afterGood_eq s (initSequence_ne_nil _) (initSequence_frame_length hl)] at hsent
  rw [boot_of_sendFrames hsent]
  simp [finishInit, complete, faultAfter, afterFrames]

/-- Settles O51: the step is the sequence, whose calls are all answered `ok`. -/
theorem initSendsItsFrames : Obligations.InitSendsItsFrames := by
  intro s hl hlc hp hcs ha
  refine ⟨?_, initSequence_length s.cfg, initSequence_frame_length hl⟩
  rw [step_release hl ((atRelease_iff s).2 ⟨hlc, hp⟩) hcs, boot_good hl ha]

/-- Frame `m` of a sequence is the first to fail: it is the last frame built, and its status is the sequence's (rule
R165). -/
theorem sendFrames_stopped {fs : List FrameReq} {s : State} {m : Nat} {f : List Byte} {es : List Event} {st : Status}
    (hin : ∀ g ∈ fs, g.inChain s.cfg.n) (hf : (framesOf s.cfg.n fs)[m]? = some f)
    (ha : AnswersOk s (m * callsPerFrame s.cfg.sel)) (hr : (es, st) ∈ failRows s.cfg.sel f)
    (he : AnswersFrom s (m * callsPerFrame s.cfg.sel) es) :
    sendFrames fs s = (st, afterFrame (afterGood s ((framesOf s.cfg.n fs).take m)) f es st) := by
  obtain ⟨hm, rfl⟩ := List.getElem?_eq_some_iff.1 hf
  have hm' : m < fs.length := by simpa [framesOf] using hm
  have hlen : (fs.take m).length = m := List.length_take_of_le hm'.le
  simp only [framesOf, List.getElem_map] at hr ⊢
  have hstop := sendFrames_abort (fs := fs.take m) (gs := fs.drop (m + 1))
    (fun g hg => hin g (List.mem_of_mem_take hg)) (hin _ (List.getElem_mem hm')) (by rwa [hlen]) hr (by rwa [hlen])
  rwa [← List.drop_eq_getElem_cons hm', List.take_append_drop, framesOf, List.map_take] at hstop

/-- Settles O53: the failing frame is what was built last, and its row gives the events, the status and the devices. -/
theorem initStopsAtItsFirstFailingFrame : Obligations.InitStopsAtItsFirstFailingFrame := by
  intro s m f es st hl hf ha hr he
  have hstop := sendFrames_stopped (s := s) (m := m) initFrames_inChain (by rwa [initFrames_framesOf hl]) ha hr he
  have hst : st ≠ .ok := failRows_not_ok hr
  have hlen := initSequence_frame_length hl
  rw [initFrames_framesOf hl] at hstop
  rw [boot_of_sendFrames hstop]
  obtain ⟨-, -, -, -, -, -, htrace, -, -⟩ :=
    afterGood_fields s ((initSequence s.cfg).take m) fun g hg => hlen g (List.mem_of_mem_take hg)
  refine ⟨?trace, rfl, if_neg hst, ?fault, if_neg hst, List.take_left' (hlen f (List.mem_of_getElem? hf))⟩
  case trace => exact congrArg (· ++ es) htrace
  case fault => simp [finishInit, faultAfter, hst]

end Sys2Proof.Machine

/-! ### What the initialization sequence leaves in the devices -/

namespace Sys2Proof.Machine

/-! #### Frames read at one device -/

/-- The pair a frame carries for device `d` (rules R121, R122). -/
def FrameReq.pairAt (d : Nat) : FrameReq → Byte × Byte
  | .target k r v => if d = k then (r, v) else (0x00, 0x00)
  | .all r v => (r, v)

/-- A latched frame, read at a device of the chain: the device has latched its pair (rule R51). -/
theorem latchBelow_read_pairAt {c : Cfg} {f : FrameReq} (hf : f.inChain c.n) {d : Nat} (hd : d < c.n) (m : Memory)
    (x : Byte) :
    (latchBelow c (frameBytes c.n f) m c.n).read (devKey d x)
      = afterPair c (f.pairAt d).1 (f.pairAt d).2 x (m.read (devKey d x)) := by
  cases f with
  | target k r v =>
    rw [frameBytes, latchAll_read_target k hf, FrameReq.pairAt]
    split
    · rfl
    · simp [afterPair]
  | all r v => rw [frameBytes, latchBelow_read_every, if_pos hd, FrameReq.pairAt]

/-- A device that latches a pair for a register of the closed set, or for NoOp (rule R51 (a), (b)). -/
theorem afterPair_of_named {c : Cfg} {p v r : Byte} {old : Option Byte} (hr : r ≠ 0x00)
    (hp : p = 0x00 ∨ c.isAddress p = true) : afterPair c p v r old = if p = r then some v else old := by
  rw [afterPair]
  rcases hp with rfl | hset
  · rw [if_pos rfl, if_neg hr.symm]
  · by_cases h0 : p = 0x00
    · rw [if_pos h0, if_neg fun e => hr (e.symm.trans h0)]
    · simp only [if_neg h0, hset, if_true, eq_comm]

/-- Frames that name registers of the closed set, and register `x` always with the byte `v`: where one names it, it holds
that byte afterwards; where none does, it holds what it held. -/
theorem latchAll_read_pairAt {c : Cfg} {d : Nat} (hd : d < c.n) {x v : Byte} (hx : x ≠ 0x00) {fs : List FrameReq}
    (hin : ∀ f ∈ fs, f.inChain c.n) (haddr : ∀ f ∈ fs, (f.pairAt d).1 = 0x00 ∨ c.isAddress (f.pairAt d).1 = true)
    (hv : ∀ f ∈ fs, (f.pairAt d).1 = x → (f.pairAt d).2 = v) (m : Memory) :
    (latchAll c (framesOf c.n fs) m).read (devKey d x)
      = if ∃ f ∈ fs, (f.pairAt d).1 = x then some v else m.read (devKey d x) := by
  induction fs generalizing m with
  | nil => simp [framesOf, latchAll]
  | cons f fs ih =>
    rw [List.forall_mem_cons] at hin haddr hv
    rw [framesOf, List.map_cons, latchAll_cons, ← framesOf, ih hin.2 haddr.2 hv.2, latchBelow_read_pairAt hin.1 hd]
    rw [afterPair_of_named hx haddr.1]
    by_cases hlater : ∃ g ∈ fs, (g.pairAt d).1 = x
    · simp [hlater]
    · by_cases hfx : (f.pairAt d).1 = x
      · simp [hlater, hfx, hv.1 hfx]
      · simp [hlater, hfx]

/-! #### The registers the sequence writes -/

/-- The byte the sequence writes to a register of every device, if it writes one (rule R232). -/
def initValue (c : Cfg) : RegName → Option Byte
  | .noOp => none
  | .digit _ => some 0x00
  | .decodeMode => some (c.decodeOf .noDecode)
  | .intensity => none
  | .scanLimit => some (c.scanOf 7)
  | .shutdown => some (c.powerOf .shutdownMode)
  | .displayTest => some (c.testOf .normal)

/-- A frame of the sequence leaves a device alone, or carries the byte of the register it names. -/
theorem initFrames_pairAt {c : Cfg} {f : FrameReq} (hf : f ∈ initFrames c) (d : Nat) :
    (f.pairAt d).1 = 0x00 ∨ ∃ r v, initValue c r = some v ∧ f.pairAt d = (c.addrOf r, v) := by
  have targeted (k : Nat) {r : RegName} {v : Byte} (hr : initValue c r = some v) :
      ((FrameReq.target k (c.addrOf r) v).pairAt d).1 = 0x00
        ∨ ∃ r' v', initValue c r' = some v' ∧ (FrameReq.target k (c.addrOf r) v).pairAt d = (c.addrOf r', v') := by
    by_cases hk : d = k
    · exact .inr ⟨r, v, hr, if_pos hk⟩
    · exact .inl (by rw [FrameReq.pairAt, if_neg hk])
  simp only [initFrames, initDevice, List.mem_append, List.mem_flatMap, List.mem_cons, List.not_mem_nil, or_false,
    List.mem_map] at hf
  rcases hf with ⟨k, -, (rfl | rfl | rfl) | ⟨i, -, rfl⟩⟩ | rfl
  · exact targeted k (r := .displayTest) rfl
  · exact targeted k (r := .decodeMode) rfl
  · exact targeted k (r := .scanLimit) rfl
  · exact targeted k (r := .digit i) rfl
  · exact .inr ⟨.shutdown, _, rfl, rfl⟩

/-- Every register the sequence writes is written in every device. -/
theorem exists_initFrame {c : Cfg} {d : Nat} (hd : d < c.n) {r : RegName} {v : Byte} (hr : initValue c r = some v) :
    ∃ f ∈ initFrames c, f.pairAt d = (c.addrOf r, v) := by
  have targeted (hmem : FrameReq.target d (c.addrOf r) v ∈ initDevice c d) :
      ∃ f ∈ initFrames c, f.pairAt d = (c.addrOf r, v) :=
    ⟨_, List.mem_append_left _ (List.mem_flatMap.2 ⟨d, List.mem_range.2 hd, hmem⟩), if_pos rfl⟩
  cases r <;> cases hr
  case shutdown => exact ⟨_, List.mem_append_right _ List.mem_cons_self, rfl⟩
  all_goals exact targeted (by simp [initDevice])

/-- The devices after the whole sequence: each register it writes holds its byte, every other what it held (rule R235). -/
theorem latchAll_initSequence {c : Cfg} (hl : c.legal = true) {d : Nat} (hd : d < c.n) {r : RegName} (hr : r ≠ .noOp)
    (m : Memory) :
    (latchAll c (initSequence c) m).read (devKey d (c.addrOf r))
      = (initValue c r).or (m.read (devKey d (c.addrOf r))) := by
  have hnamed {f : FrameReq} (hf : f ∈ initFrames c) (hfr : (f.pairAt d).1 = c.addrOf r) :
      initValue c r = some (f.pairAt d).2 := by
    rcases initFrames_pairAt hf d with h0 | ⟨r', v, hr', e⟩
    · exact absurd (hfr.symm.trans h0) (legal_addr_ne_zero hl hr)
    · rw [e] at hfr ⊢
      rwa [← legal_addr_inj hl hfr]
  have haddr : ∀ f ∈ initFrames c, (f.pairAt d).1 = 0x00 ∨ c.isAddress (f.pairAt d).1 = true := fun f hf =>
    (initFrames_pairAt hf d).imp_right fun ⟨r', v, _, e⟩ => e ▸ isAddress_addrOf c r'
  rw [← initFrames_framesOf hl, latchAll_read_pairAt (v := (initValue c r).getD 0x00) hd (legal_addr_ne_zero hl hr)
    initFrames_inChain haddr (fun f hf hfr => by rw [hnamed hf hfr, Option.getD_some])]
  cases hv : initValue c r with
  | some v =>
    obtain ⟨f, hf, e⟩ := exists_initFrame hd hv
    exact if_pos ⟨f, hf, by rw [e]⟩
  | none => exact if_neg fun ⟨f, hf, hfr⟩ => by simp [hnamed hf hfr] at hv

/-- A sequence that ends in OK has latched every one of its frames. -/
theorem boot_ok {s : State} (hl : s.cfg.legal = true) (hst : (boot s).status = .ok) :
    (boot s).cfg = s.cfg ∧ (boot s).dev = latchAll s.cfg (initSequence s.cfg) s.dev := by
  rcases sendFrames_cases (s := s) initFrames_inChain with ⟨-, e⟩ | ⟨gs, f, hs, es, st, -, hr, -, -, e⟩
  · obtain ⟨hcfg, -, -, -, -, -, -, -, hdev⟩ :=
      afterGood_fields s (framesOf s.cfg.n (initFrames s.cfg)) framesOf_length
    rw [boot_of_sendFrames e]
    exact ⟨hcfg, initFrames_framesOf hl ▸ hdev⟩
  · rw [boot_of_sendFrames e] at hst
    exact absurd hst (failRows_not_ok hr)

/-- Settles O54: the frames were all latched, and each register reads as the sequence writes it. -/
theorem initLeavesEveryDeviceKnown : Obligations.InitLeavesEveryDeviceKnown := by
  intro s t h hlc hp hst k hk
  obtain ⟨hl, -⟩ := step_next_cases h
  obtain rfl := step_eq_boot h hlc hp
  obtain ⟨hcfg, hdev⟩ := boot_ok hl hst
  have hread {r : RegName} (hr : r ≠ .noOp) :
      (boot s).devRead k (s.cfg.addrOf r) = (initValue s.cfg r).or (s.devRead k (s.cfg.addrOf r)) := by
    rw [State.devRead, hdev, latchAll_initSequence hl hk hr, State.devRead]
  rw [TestOff, DecodeOff, ScanFull, Blank, PoweredOff, hcfg]
  exact ⟨hread nofun, hread nofun, hread nofun, fun i => hread nofun, hread nofun, hread nofun⟩

end Sys2Proof.Machine
